-- ==== Sys2Proof/Word.lean ====
section
/-! DEFINITION. The word types of the UFDC and the notation helpers of 00_scope.md (R9 to R12). -/

namespace Sys2Proof

/-- One byte of a block, of PBUF or of the 8-bit accumulator. -/
abbrev Byte := BitVec 8

/-- A CRC register, a CRC trailer, a sequence number or a payload length (R53, R54). -/
abbrev Half := BitVec 16

/-- A configuration register, a sample index, a width in samples or a counter (R34, R37). -/
abbrev Word := BitVec 32

/-- A doubled pulse centre C2, in half-samples (R14). -/
abbrev Time := BitVec 33

/-- The 4-bit ADDR field of a command (R130). -/
abbrev RegAddr := BitVec 4

/-- One 48-bit command word (R130). -/
abbrev CmdWord := BitVec 48

/-- The exact rationals: the number domain of every analog quantity (R9). -/
abbrev Analog := Rat

/-- `clamp(v, lo, hi)` of R12. -/
def clamp (v lo hi : Analog) : Analog :=
  if v < lo then lo else if v > hi then hi else v

/-- The sign class `pos(v)` of R12: true when v is not negative. -/
def pos (v : Analog) : Bool := decide (v ≥ 0)

/-- `max(a, b)` of R12. -/
def maxQ (a b : Analog) : Analog := if a ≤ b then b else a

end Sys2Proof
end

