-- ==== Sys2Proof/Machine/Regs.lean ====
section
/-! DEFINITION. The ten read-write configuration registers (10_state.md R37 to R44), the fields of CTRL (R38)
and the reset values as functions of the sample rate (R58). -/

namespace Sys2Proof.Machine

/-- The RW registers of the register file `cfg`, addresses 0x0 to 0x9 (R37).
The read-only registers 0xA to 0xF are views of the rest of the state and are stored nowhere twice. -/
structure RegFile where
  ctrl      : Word
  k1        : Word
  k2        : Word
  gain      : Word
  floor     : Word
  thrLow    : Word
  thrHigh   : Word
  zeroCount : Word
  startIdx  : Word
  stopIdx   : Word
  deriving DecidableEq, Repr

/-- CTRL.MEAN_EN, bit 0 (R38). -/
def RegFile.meanEn (c : RegFile) : Bool := c.ctrl.getLsbD 0

/-- CTRL.SPIKE_EN, bit 1 (R38). -/
def RegFile.spikeEn (c : RegFile) : Bool := c.ctrl.getLsbD 1

/-- CTRL.ADAPT_EN, bit 2 (R38). -/
def RegFile.adaptEn (c : RegFile) : Bool := c.ctrl.getLsbD 2

/-- CTRL.HTIME_EN, bit 3 (R38). -/
def RegFile.htimeEn (c : RegFile) : Bool := c.ctrl.getLsbD 3

/-- CTRL.BYPASS, bit 4 (R38). -/
def RegFile.bypass (c : RegFile) : Bool := c.ctrl.getLsbD 4

/-- CTRL.FMT, bits 6:5 (R38). -/
def RegFile.fmt (c : RegFile) : BitVec 2 := c.ctrl.extractLsb' 5 2

/-- CTRL.STOP_EN, bit 7 (R38). -/
def RegFile.stopEn (c : RegFile) : Bool := c.ctrl.getLsbD 7

/-- CTRL.HCRC_SYNC, bit 8 (R38). -/
def RegFile.hcrcSync (c : RegFile) : Bool := c.ctrl.getLsbD 8

/-- CTRL.CRC_BE, bit 9 (R38). -/
def RegFile.crcBe (c : RegFile) : Bool := c.ctrl.getLsbD 9

/-- CTRL.NAME_TERM10, bit 10 (R38). -/
def RegFile.nameTerm10 (c : RegFile) : Bool := c.ctrl.getLsbD 10

/-- A value a CTRL write may store: reserved bits 31:11 clear and FMT not 11 (R236). -/
def ctrlLegal (d : Word) : Bool :=
  d.extractLsb' 11 21 == 0#21 && d.extractLsb' 5 2 != 3#2

/-- The register values CFG_WRITE can leave: a legal CTRL and a ZERO_COUNT of at least 1 (R43, R236). -/
def RegFile.legal (c : RegFile) : Bool := ctrlLegal c.ctrl && c.zeroCount != 0#32

/-- `ceil(a / b)` for naturals. -/
def ceilDiv (a b : Nat) : Nat := (a + b - 1) / b

/-- `round(a / b)` for naturals, a half going up. -/
def roundDiv (a b : Nat) : Nat := (2 * a + b) / (2 * b)

/-- 2π times 10^21, to the nearest integer below (R58 needs 2π, and π is irrational).
DEDUCED: at P_RATE = 44100 the rounding of R58 does not depend on the digits left out; log entry 3. -/
def twoPiE21 : Nat := 6283185307179586476925

/-- The reset values of R58 at sample rate `pRate`. -/
def RegFile.defaults (pRate : Nat) : RegFile where
  ctrl      := 0x00000100#32
  k1        := BitVec.ofNat 32 (roundDiv (65536 * 1200 * twoPiE21) (pRate * 10 ^ 21))
  k2        := BitVec.ofNat 32 (roundDiv (65536 * 1200 * twoPiE21) (pRate * 10 ^ 21))
  gain      := 0x00010000#32
  floor     := 0x0000199A#32
  thrLow    := BitVec.ofNat 32 (ceilDiv pRate 3200)
  thrHigh   := BitVec.ofNat 32 (ceilDiv pRate 7000)
  zeroCount := BitVec.ofNat 32 (max 1 (pRate / 6200))
  startIdx  := 0#32
  stopIdx   := 0xFFFFFFFF#32

end Sys2Proof.Machine
end

