-- ==== Sys2Proof/Config.lean ====
section
/-! DEFINITION. What is fixed for one instance of the UFDC: the constants and the parameters of 00_scope.md R8,
and the one free value of the model. -/

namespace Sys2Proof

/-- The record {poly, init, refin, refout, xorout} of the open parameter CRC16 (R8, R425). -/
structure Crc16 where
  poly   : Half
  init   : Half
  refin  : Bool
  refout : Bool
  xorout : Half
  deriving DecidableEq, Repr

/-- The open parameter HIGH_TIMING (R8, R352) as plain data: the triples (prev, c2, w) on which the predicate holds.
Its arguments range over finitely many values, so every predicate is such a list, and the empty list is the
default, constantly false. DESIGN CHOICE: the representation; log entry 2. -/
abbrev HighTiming := List (Option Time × Time × Word)

/-- The parameters of R8 that an instance may override. They are arguments of the model, held with the state as plain
data that no step changes, so a statement about every state is a statement about every value of them. -/
structure Params where
  /-- P_RATE, in Hz. -/
  pRate      : Nat
  /-- CFG_RESET: the values a hardware reset loads into the RW registers. -/
  cfgReset   : Machine.RegFile
  crc        : Crc16
  highTiming : HighTiming
  deriving DecidableEq, Repr

/-- SYNC (R8). -/
def Config.sync : Byte := 0x2A#8

/-- MAX_PAYLOAD (R8). -/
def Config.maxPayload : Nat := 256

/-- NAME_MAX (R8). -/
def Config.nameMax : Nat := 10

/-- ID_VALUE (R8). -/
def Config.idValue : Word := 0x55454631#32

/-- The default CRC16 of R8. -/
def Config.crcDefault : Crc16 := ⟨0x1021#16, 0x0000#16, false, false, 0x0000#16⟩

/-- The default parameters of R8: the values this spec's column "value in this spec" gives. -/
def Config.params : Params := ⟨44100, Machine.RegFile.defaults 44100, Config.crcDefault, []⟩

/-- FREE VALUE. What the 32-bit register MCNT holds after the 2^32-th sample of a session has entered the mean stage:
R46 says that it never wraps and R265 counts that sample, so no rule states the value. Applied to the counter
`State.freeUse`. DESIGN CHOICE: log entry 5. -/
opaque Config.meanCountPastEnd : Nat → Word

/-- What a byte of PBUF that nothing has written reads as. Its reset contents are unspecified and 93 I7 lets a model
choose any value. DESIGN CHOICE: log entry 1. -/
def Config.pbufUnlisted : Byte := 0x00#8

end Sys2Proof
end

