-- ==== Sys2Proof/Machine/Event.lean ====
section
/-! DEFINITION. The records of the output port (30_encoding.md R170 to R173) and the enumerations of R160. -/

namespace Sys2Proof.Machine

/-- `st.SESSION` (R33). The code 3 is never reached and has no constructor. -/
inductive Session where
  | idle | active | done
  deriving DecidableEq, Repr

/-- The SESSION codes of R160. -/
def Session.code : Session → BitVec 2
  | .idle => 0#2
  | .active => 1#2
  | .done => 2#2

/-- The assembler state `st.ASM` (R51). -/
inductive AsmState where
  | waiting | ready | data | after
  deriving DecidableEq, Repr

/-- The ASM codes of R160. -/
def AsmState.code : AsmState → BitVec 2
  | .waiting => 0#2
  | .ready => 1#2
  | .data => 2#2
  | .after => 3#2

/-- The framer state `st.FR` (R55, R421). The codes 12 to 15 are never reached and have no constructor. -/
inductive FrState where
  | hunt | name | nameTerm | load | exec | seq | len | flag | next | hcrc | data | pcrc
  deriving DecidableEq, Repr

/-- The FR codes of R160. -/
def FrState.code : FrState → BitVec 4
  | .hunt => 0#4
  | .name => 1#4
  | .nameTerm => 2#4
  | .load => 3#4
  | .exec => 4#4
  | .seq => 5#4
  | .len => 6#4
  | .flag => 7#4
  | .next => 8#4
  | .hcrc => 9#4
  | .data => 10#4
  | .pcrc => 11#4

/-- The classifier's output (R16, R160): internal, never on a port. -/
inductive Tone where
  | low | high | none
  deriving DecidableEq, Repr

/-- A fault kind with its info fields (R172). -/
inductive FaultKind where
  | invalidPulse (width : Word)
  | framingFault
  | blockLengthFault (length : Half)
  | headerCrcFault (received computed : Half)
  | payloadCrcFault (received computed : Half)
  deriving DecidableEq, Repr

/-- The FAULT codes of R172. -/
def FaultKind.code : FaultKind → BitVec 4
  | .invalidPulse _ => 1#4
  | .framingFault => 2#4
  | .blockLengthFault _ => 3#4
  | .headerCrcFault _ _ => 4#4
  | .payloadCrcFault _ _ => 5#4

/-- Why a stream ended: the cause of EXHAUSTED (R171). -/
inductive Cause where
  | endCommand | stopIndex | indexExhausted
  deriving DecidableEq, Repr

/-- The cause codes of R171. -/
def Cause.code : Cause → BitVec 2
  | .endCommand => 0#2
  | .stopIndex => 1#2
  | .indexExhausted => 2#2

/-- The REJECT reasons (R173). -/
inductive Reason where
  | malformed | sessionActive | badWrite | sessionDone
  deriving DecidableEq, Repr

/-- The reason codes of R173. -/
def Reason.code : Reason → BitVec 4
  | .malformed => 1#4
  | .sessionActive => 2#4
  | .badWrite => 3#4
  | .sessionDone => 4#4

/-- The fields of a BLOCK event (R171, R448). -/
structure Block where
  name    : List Byte
  load    : Word
  exec    : Word
  seq     : Half
  length  : Half
  flag    : Byte
  next    : Word
  hcrc    : Half
  payload : List Byte
  pcrc    : Half
  time    : Time
  deriving DecidableEq, Repr

/-- One event of the output port (R171). -/
inductive Event where
  | pulse (start stop : Word) (peak : Analog) (accepted : Bool)
  | byte (value : Byte) (time : Time)
  | block (b : Block)
  | fault (kind : FaultKind) (time : Time)
  | exhausted (cause : Cause)
  | cfgData (addr : RegAddr) (data : Word)
  | reject (reason : Reason) (op : BitVec 4)
  deriving DecidableEq, Repr

/-- The event codes of R171. -/
def Event.code : Event → Nat
  | .pulse _ _ _ _ => 1
  | .byte _ _ => 2
  | .block _ => 3
  | .fault _ _ => 4
  | .exhausted _ => 5
  | .cfgData _ _ => 6
  | .reject _ _ => 7

end Sys2Proof.Machine
end

