-- ==== Sys2Proof/Machine/State.lean ====
section
/-! DEFINITION. The whole state of one UFDC (10_state.md), why a step can stop, and the state after reset (R700, R701). -/

namespace Sys2Proof.Machine

/-- Why the machine stops. Both are impossible in every state that meets `Safety.Inv`, so in every state a run from
reset reaches: each marks a state the spec says is never reached. -/
inductive Fault where
  /-- Raised by the framer for an access to PBUF outside its 256 bytes (R100). Safe: the spec gives no such byte. -/
  | pbufOutOfRange
  /-- Raised by SAMPLE with CTRL.FMT = 11, which never stands in CTRL (R134, R140). Safe: the spec gives that format
  no meaning. -/
  | reservedFormat
  deriving DecidableEq, Repr

/-- Why the model has no meaning for what follows. -/
inductive Refusal where
  /-- Raised by exec's arm of an instruction without a meaning. Safe. -/
  | notModelled (mnemonic : String)
  /-- Raised by every step from a state whose REFUSED is set (R36, R200): adaptive tracking has no formula (R212).
  Safe: nothing can be proved of what follows. -/
  | adaptiveTrackingUnmodelled
  deriving DecidableEq, Repr

/-- The one refusal reason of `st.REFUSED` (R36). -/
inductive RefusedReason where
  | adaptiveTrackingUnmodelled
  deriving DecidableEq, Repr

/-- The front-end state of section 4: the spike window (R45), the running mean (R46) and the two voltages (R47). -/
structure FrontEnd where
  spkQ : List (Analog × Word)
  spkA : Option Analog
  msum : Analog
  mcnt : Word
  v1   : Analog
  v2   : Analog
  deriving DecidableEq, Repr

/-- The pulse detector's registers (R48). -/
structure Detector where
  inPulse : Bool
  pStart  : Word
  pPeak   : Analog
  zRun    : Word
  zStart  : Word
  deriving DecidableEq, Repr

/-- The bit assembler's registers (R51, R52). -/
structure BitAsm where
  asm   : AsmState
  acc   : Byte
  shift : BitVec 4
  cycle : BitVec 2
  deriving DecidableEq, Repr

/-- The framer's registers: FR and FR_CNT (R55), the block field registers (R53) and the running CRCs (R54). -/
structure Framer where
  fr      : FrState
  frCnt   : BitVec 9
  name    : List Byte
  load    : Word
  exec    : Word
  seq     : Half
  len     : Half
  flag    : Byte
  next    : Word
  hcrcRx  : Half
  pcrcRx  : Half
  blkTime : Time
  hcrc    : Half
  pcrc    : Half
  deriving DecidableEq, Repr

/-- A memory: the listed bytes with their addresses. -/
abbrev Memory := List Host.Cell

/-- What the outside can put on the input port: a command word (R130) or a hardware reset (R700). -/
inductive PortItem where
  | command (w : CmdWord)
  | hardwareReset
  deriving DecidableEq, Repr

/-- One UFDC: `cfg`, every element of `st`, PBUF, the instance's parameters and the two ports. -/
structure State where
  /-- The instance's parameters (R8). The model's own field: no step changes it. -/
  par        : Params
  /-- The RW registers of `cfg` (R37). -/
  cfg        : RegFile
  /-- `st.SESSION` (R33). -/
  session    : Session
  /-- `st.N` (R34). -/
  n          : Word
  /-- `st.BLOCK_COUNT` (R35). -/
  blockCount : Word
  /-- `st.FAULT_COUNT` (R35). -/
  faultCount : Word
  /-- `st.REFUSED` (R36). -/
  refused    : Option RefusedReason
  /-- SPK_Q, SPK_A, MSUM, MCNT, V1, V2 (R45 to R47). -/
  fe         : FrontEnd
  /-- IN_PULSE, P_START, P_PEAK, Z_RUN, Z_START (R48). -/
  det        : Detector
  /-- `st.PREV_C2` (R49). -/
  prevC2     : Option Time
  /-- ASM, ACC, SHIFT, CYCLE (R51, R52). -/
  asm        : BitAsm
  /-- The framer (R53 to R55). -/
  blk        : Framer
  /-- PBUF (R56, R100): the listed bytes in canonical form. -/
  pbuf       : Memory
  /-- The input port: what the host has sent and the UFDC has not taken, oldest first (R110). The model's own field. -/
  input      : List PortItem
  /-- The output port: every event emitted so far, oldest first (R170, R245). The model's own field. -/
  output     : List Event
  /-- How many free values have been used. The model's own field. -/
  freeUse    : Nat
  deriving DecidableEq, Repr

/-- R701: an empty spike window, an empty mean and zero voltages. -/
def FrontEnd.reset : FrontEnd := ⟨[], none, 0, 0#32, 0, 0⟩

/-- R701: no pulse is open. -/
def Detector.reset : Detector := ⟨false, 0#32, 0, 0#32, 0#32⟩

/-- R701: Waiting with zero counters, which is also what a fault leaves (R601, R602). -/
def BitAsm.reset : BitAsm := ⟨.waiting, 0#8, 0#4, 0#2⟩

/-- R701: HUNT with empty block fields; the CRC registers hold CRC16.init (R54). -/
def Framer.reset (crc : Crc16) : Framer where
  fr      := .hunt
  frCnt   := 0#9
  name    := []
  load    := 0#32
  exec    := 0#32
  seq     := 0#16
  len     := 0#16
  flag    := 0#8
  next    := 0#32
  hcrcRx  := 0#16
  pcrcRx  := 0#16
  blkTime := 0#33
  hcrc    := crc.init
  pcrc    := crc.init

/-- An instance with parameters `p` right after a hardware reset at the start of a run, with nothing on its ports (R700). -/
def State.init (p : Params) : State where
  par        := p
  cfg        := p.cfgReset
  session    := .idle
  n          := 0#32
  blockCount := 0#32
  faultCount := 0#32
  refused    := none
  fe         := .reset
  det        := .reset
  prevC2     := none
  asm        := .reset
  blk        := .reset p.crc
  pbuf       := []
  input      := []
  output     := []
  freeUse    := 0

/-- The machine right after reset, with the parameters of R8 at the values this spec gives. -/
def State.reset : State := State.init Config.params

end Sys2Proof.Machine
end

