-- ==== Sys2Proof/Machine/Flags.lean ====
section
/-! DEFINITION. The UFDC has no condition codes: its only status bits are the fields of STATUS, a read-only view of
the state (10_state.md R50, R57). -/

namespace Sys2Proof.Machine

/-- The STATUS word of R50: from bit 31 down, 0 (8 bits), SESSION, IN_PULSE, 0 (1 bit), FR, ACC, CYCLE, SHIFT, ASM. -/
def statusWord (s : State) : Word :=
  0#8 ++ s.session.code ++ BitVec.ofBool s.det.inPulse ++ 0#1 ++ s.blk.fr.code ++ s.asm.acc ++ s.asm.cycle
    ++ s.asm.shift ++ s.asm.asm.code

end Sys2Proof.Machine
end

