-- ==== Sys2Proof/Machine/Memory.lean ====
section
/-! DEFINITION. PBUF as a list of listed bytes in one canonical form, with MemRead and MemWrite (20_memory.md R100). -/

namespace Sys2Proof.Machine

/-- The size of PBUF in bytes (R100). -/
def pbufSize : Nat := 256

/-- The byte at an address: the listed one, or what an unlisted address reads as. -/
def Memory.lookup : Memory → Nat → Byte
  | [], _ => Config.pbufUnlisted
  | c :: m, a => if c.1 = a then c.2 else Memory.lookup m a

/-- `m` with the byte at `a` set to `v`, in canonical form: a byte equal to what an unlisted address reads as is not listed. -/
def Memory.set : Memory → Nat → Byte → Memory
  | [], a, v => if v = Config.pbufUnlisted then [] else [(a, v)]
  | c :: m, a, v =>
    if a < c.1 then (if v = Config.pbufUnlisted then c :: m else (a, v) :: c :: m)
    else if a = c.1 then (if v = Config.pbufUnlisted then m else (a, v) :: m)
    else c :: Memory.set m a v

/-- The listed addresses rise strictly from a lower bound `lo`, lie in PBUF, and list no byte an unlisted address reads as. -/
def Memory.wfFrom : Nat → Memory → Bool
  | _, [] => true
  | lo, c :: m =>
    decide (lo ≤ c.1) && decide (c.1 < pbufSize) && (c.2 != Config.pbufUnlisted) && Memory.wfFrom (c.1 + 1) m

/-- The canonical form of PBUF. -/
def Memory.wf (m : Memory) : Bool := Memory.wfFrom 0 m

/-- `MemRead(PBUF, a, 1)` (R100): the byte at index `a`, if PBUF has one. -/
def memRead (m : Memory) (a : Nat) : Option Byte :=
  if a < pbufSize then some (Memory.lookup m a) else none

/-- `MemWrite(PBUF, a, 1, v)` (R100), if PBUF has a byte at index `a`. -/
def memWrite (m : Memory) (a : Nat) (v : Byte) : Option Memory :=
  if a < pbufSize then some (Memory.set m a v) else none

/-- The bytes at indices 0 to `len` − 1 (R447), if PBUF has them all. -/
def memReadFirst (m : Memory) (len : Nat) : Option (List Byte) :=
  if len ≤ pbufSize then some ((List.range len).map (Memory.lookup m)) else none

end Sys2Proof.Machine
end

