-- ==== Sys2Proof/Machine/Ops.lean ====
section
/-! DEFINITION. The operations the commands and the pipeline share: events, register reads and writes, taking a fault,
ending a stream and the two resets. -/

namespace Sys2Proof.Machine

/-- `s` with the front-end state `f`. -/
def setFe (f : FrontEnd) (s : State) : State := { s with fe := f }

/-- `s` with the detector registers `d`. -/
def setDet (d : Detector) (s : State) : State := { s with det := d }

/-- `s` with the assembler registers `a`. -/
def setAsm (a : BitAsm) (s : State) : State := { s with asm := a }

/-- `s` with the framer registers `f`. -/
def setBlk (f : Framer) (s : State) : State := { s with blk := f }

/-- `emit E` (R13): the event joins the output port. -/
def emit (e : Event) (s : State) : State := { s with output := s.output ++ [e] }

/-- `emit REJECT(reason, op)` (R173). A rejected command changes nothing else (R202). -/
def rejectCmd (r : Reason) (op : BitVec 4) (s : State) : State := emit (.reject r op) s

/-- The value CFG_READ returns for each address (R230): the RW registers, the views of the state, ID, and 0 at 0xF. -/
def readReg (a : RegAddr) (s : State) : Word :=
  match a.toNat with
  | 0x0 => s.cfg.ctrl
  | 0x1 => s.cfg.k1
  | 0x2 => s.cfg.k2
  | 0x3 => s.cfg.gain
  | 0x4 => s.cfg.floor
  | 0x5 => s.cfg.thrLow
  | 0x6 => s.cfg.thrHigh
  | 0x7 => s.cfg.zeroCount
  | 0x8 => s.cfg.startIdx
  | 0x9 => s.cfg.stopIdx
  | 0xA => statusWord s
  | 0xB => s.n
  | 0xC => s.blockCount
  | 0xD => s.faultCount
  | 0xE => Config.idValue
  | _ => 0#32

/-- `cfg[a] <- d` (R13) for the RW registers (R37). The other addresses hold nothing a write could change. -/
def RegFile.write (c : RegFile) (a : RegAddr) (d : Word) : RegFile :=
  match a.toNat with
  | 0x0 => { c with ctrl := d }
  | 0x1 => { c with k1 := d }
  | 0x2 => { c with k2 := d }
  | 0x3 => { c with gain := d }
  | 0x4 => { c with floor := d }
  | 0x5 => { c with thrLow := d }
  | 0x6 => { c with thrHigh := d }
  | 0x7 => { c with zeroCount := d }
  | 0x8 => { c with startIdx := d }
  | 0x9 => { c with stopIdx := d }
  | _ => c

/-- The value checks of CFG_WRITE (R236): a RW address, and no illegal CTRL or ZERO_COUNT. -/
def writeLegal (a : RegAddr) (d : Word) : Bool :=
  decide (a.toNat < 0xA) && (a != 0x0#4 || ctrlLegal d) && (a != 0x7#4 || d != 0#32)

/-- `clearBlock()` (R449): the block fields, the counters and the CRC registers, but not FR and not PBUF. -/
def clearBlock (s : State) : State := setBlk { Framer.reset s.par.crc with fr := s.blk.fr } s

/-- `clearBlock(); st.FR <- HUNT`: the framer's recovery from a fault (R600, R450) and its state after a BLOCK (R447). -/
def abandonBlock (s : State) : State := setBlk (Framer.reset s.par.crc) s

/-- The recovery of the fault table (R600): which units each fault kind sets back. -/
def recover (k : FaultKind) (s : State) : State :=
  match k with
  | .invalidPulse _ => setAsm .reset s
  | .framingFault => abandonBlock (setAsm .reset s)
  | .blockLengthFault _ => abandonBlock s
  | .headerCrcFault _ _ => abandonBlock s
  | .payloadCrcFault _ _ => abandonBlock s

/-- `raise F(time, info)` (R600, R601 to R605): taking a fault. It emits FAULT, counts it modulo 2^32 and performs the
recovery. It saves nothing else, changes no mode and has no handler (R615), so there is no return from it (R625). -/
def raiseFault (k : FaultKind) (time : Time) (s : State) : State :=
  recover k { emit (.fault k time) s with faultCount := s.faultCount + 1 }

/-- `endStream(cause)` (R220). What is in progress keeps its values and is never completed (R221). -/
def endOfStream (c : Cause) (s : State) : State := { emit (.exhausted c) s with session := .done }

/-- Every element of `st` but REFUSED at its reset value (R240, R701). The contents of PBUF are unspecified after it;
the model empties PBUF. DESIGN CHOICE: log entry 1. -/
def sessionResetState (s : State) : State where
  par        := s.par
  cfg        := s.cfg
  session    := .idle
  n          := 0#32
  blockCount := 0#32
  faultCount := 0#32
  refused    := s.refused
  fe         := .reset
  det        := .reset
  prevC2     := none
  asm        := .reset
  blk        := .reset s.par.crc
  pbuf       := []
  input      := s.input
  output     := s.output
  freeUse    := s.freeUse

/-- A hardware reset that arrives on the input port (R700): `cfg` at CFG_RESET, then as SESSION_RESET (R705). -/
def hardwareResetState (s : State) : State := sessionResetState { s with cfg := s.par.cfgReset }

end Sys2Proof.Machine
end

