-- ==== Sys2Proof/Machine/ConfigAccess.lean ====
section
/-! DEFINITION. CFG_READ and CFG_WRITE (40_commands.md R230, R235 to R237). -/

namespace Sys2Proof.Machine

/-- CFG_READ addr (R230): legal in every session state, no side effect. -/
def execCfgRead (addr : RegAddr) (s : State) : Host.Outcome State Fault Refusal :=
  .next (emit (.cfgData addr (readReg addr s)) s)

/-- CFG_WRITE addr, data (R235): the ACTIVE check comes before the address and value checks (R237, R622). -/
def execCfgWrite (addr : RegAddr) (data : Word) (s : State) : Host.Outcome State Fault Refusal :=
  if s.session = .active then .next (rejectCmd .sessionActive 0x3#4 s)
  else if writeLegal addr data then .next { s with cfg := s.cfg.write addr data }
  else .next (rejectCmd .badWrite 0x3#4 s)

end Sys2Proof.Machine
end

