-- ==== Sys2Proof/Machine/Crc.lean ====
section
/-! DEFINITION. The CRC-16 of 44_framer.md R425, for any parameter record. -/

namespace Sys2Proof.Machine

/-- One of the eight shifts of crcUpdate (R425). -/
def crcShiftBit (poly c : Half) : Half := if c.getLsbD 15 then (c <<< 1) ^^^ poly else c <<< 1

/-- `k` shifts of crcUpdate. -/
def crcShiftBits (poly : Half) : Nat → Half → Half
  | 0, c => c
  | k + 1, c => crcShiftBits poly k (crcShiftBit poly c)

/-- The byte as crcUpdate takes it: reflected when CRC16.refin is set (R425). -/
def crcByteIn (p : Crc16) (b : Byte) : Byte := if p.refin then b.reverse else b

/-- `crcUpdate(c, b)` (R425). -/
def crcUpdate (p : Crc16) (c : Half) (b : Byte) : Half :=
  crcShiftBits p.poly 8 (c ^^^ ((crcByteIn p b).setWidth 16 <<< 8))

/-- `crcFinish(c)` (R425). -/
def crcFinish (p : Crc16) (c : Half) : Half := (if p.refout then c.reverse else c) ^^^ p.xorout

/-- The CRC register after a list of bytes, from `c`. -/
def crcFold (p : Crc16) (c : Half) (bs : List Byte) : Half := bs.foldl (crcUpdate p) c

/-- `crc(bytes)` (R425). -/
def crcOf (p : Crc16) (bs : List Byte) : Half := crcFinish p (crcFold p p.init bs)

end Sys2Proof.Machine
end

