-- ==== Sys2Proof/Machine/Framer.lean ====
section
/-! DEFINITION. The block framer (44_framer.md): `frame(b, c2)`, one definition per framer state. -/

namespace Sys2Proof.Machine

/-- The states whose bytes enter the header CRC (R420, R440). -/
def FrState.inHeader : FrState → Bool
  | .name | .nameTerm | .load | .exec | .seq | .len | .flag | .next => true
  | .hunt | .hcrc | .data | .pcrc => false

/-- `v | (zext(b) << sh)`: a byte of a multi-byte field at bit `sh` (R432). -/
def orByte {w : Nat} (v : BitVec w) (b : Byte) (sh : Nat) : BitVec w := v ||| (b.setWidth w <<< sh)

/-- Count one byte of a field of `k` bytes, and go on to state `nextFr` after the last (R421). -/
def Framer.advance (k : BitVec 9) (nextFr : FrState) (f : Framer) : Framer :=
  if f.frCnt + 1 = k then { f with fr := nextFr, frCnt := 0#9 } else { f with frCnt := f.frCnt + 1 }

/-- The bit at which the next byte of a little-endian field stands (R103). -/
def Framer.leShift (f : Framer) : Nat := 8 * f.frCnt.toNat

/-- `crcShift(FR_CNT)` (R446). -/
def crcShift (be : Bool) (i : Nat) : Nat := if be then 8 * (1 - i) else 8 * i

/-- NAME (R430). -/
def Framer.nameByte (term10 : Bool) (b : Byte) (f : Framer) : Framer :=
  if b = 0#8 then { f with fr := .load, frCnt := 0#9 }
  else if (f.name ++ [b]).length = Config.nameMax then
    { f with name := f.name ++ [b], fr := if term10 then .nameTerm else .load, frCnt := 0#9 }
  else { f with name := f.name ++ [b] }

/-- NAMETERM (R431): the byte, whatever its value, is the terminator. -/
def Framer.nameTermByte (f : Framer) : Framer := { f with fr := .load, frCnt := 0#9 }

/-- LOAD (R432). -/
def Framer.loadByte (b : Byte) (f : Framer) : Framer :=
  ({ f with load := orByte f.load b f.leShift }).advance 4#9 .exec

/-- EXEC (R433). -/
def Framer.execByte (b : Byte) (f : Framer) : Framer :=
  ({ f with exec := orByte f.exec b f.leShift }).advance 4#9 .seq

/-- SEQ (R434). -/
def Framer.seqByte (b : Byte) (f : Framer) : Framer :=
  ({ f with seq := orByte f.seq b f.leShift }).advance 2#9 .len

/-- FLAG (R436). -/
def Framer.flagByte (b : Byte) (f : Framer) : Framer := { f with flag := b, fr := .next, frCnt := 0#9 }

/-- NEXT (R437). -/
def Framer.nextByte (b : Byte) (f : Framer) : Framer :=
  ({ f with next := orByte f.next b f.leShift }).advance 4#9 .hcrc

/-- `hunt(b, c2)` (R422). -/
def huntByte (b : Byte) (c2 : Time) (s : State) : State :=
  if b ≠ Config.sync then s
  else
    let t := clearBlock s
    setBlk
      { t.blk with
        fr := .name
        blkTime := c2
        hcrc := if s.cfg.hcrcSync then crcUpdate s.par.crc t.blk.hcrc Config.sync else t.blk.hcrc } t

/-- LEN (R435). -/
def lenByte (b : Byte) (c2 : Time) (s : State) : State :=
  let f : Framer := { s.blk with len := orByte s.blk.len b s.blk.leShift }
  if f.frCnt + 1 = 2#9 then
    if f.len.toNat > Config.maxPayload then
      raiseFault (.blockLengthFault f.len) c2 (setBlk { f with frCnt := 0#9 } s)
    else setBlk { f with fr := .flag, frCnt := 0#9 } s
  else setBlk { f with frCnt := f.frCnt + 1 } s

/-- HCRC (R441). -/
def hcrcByte (b : Byte) (c2 : Time) (s : State) : State :=
  let f : Framer := { s.blk with hcrcRx := orByte s.blk.hcrcRx b (crcShift s.cfg.crcBe s.blk.frCnt.toNat) }
  if f.frCnt + 1 = 2#9 then
    if f.hcrcRx ≠ crcFinish s.par.crc f.hcrc then
      raiseFault (.headerCrcFault f.hcrcRx (crcFinish s.par.crc f.hcrc)) c2 (setBlk { f with frCnt := 0#9 } s)
    else setBlk { f with fr := if f.len.toNat > 0 then .data else .pcrc, frCnt := 0#9 } s
  else setBlk { f with frCnt := f.frCnt + 1 } s

/-- DATA (R444). -/
def dataByte (b : Byte) (s : State) : Except Fault State :=
  match memWrite s.pbuf s.blk.frCnt.toNat b with
  | none => .error .pbufOutOfRange
  | some m =>
    let f : Framer := { s.blk with pcrc := crcUpdate s.par.crc s.blk.pcrc b }
    if f.frCnt.toNat + 1 = f.len.toNat then .ok (setBlk { f with fr := .pcrc, frCnt := 0#9 } { s with pbuf := m })
    else .ok (setBlk { f with frCnt := f.frCnt + 1 } { s with pbuf := m })

/-- The record of the block in progress (R447, R448). -/
def Framer.toBlock (f : Framer) (payload : List Byte) : Block where
  name    := f.name
  load    := f.load
  exec    := f.exec
  seq     := f.seq
  length  := f.len
  flag    := f.flag
  next    := f.next
  hcrc    := f.hcrcRx
  payload := payload
  pcrc    := f.pcrcRx
  time    := f.blkTime

/-- `emitBlock()` (R447). -/
def emitBlock (s : State) : Except Fault State :=
  match memReadFirst s.pbuf s.blk.len.toNat with
  | none => .error .pbufOutOfRange
  | some payload =>
    .ok (abandonBlock { emit (.block (s.blk.toBlock payload)) s with blockCount := s.blockCount + 1 })

/-- PCRC (R445). -/
def pcrcByte (b : Byte) (c2 : Time) (s : State) : Except Fault State :=
  let f : Framer := { s.blk with pcrcRx := orByte s.blk.pcrcRx b (crcShift s.cfg.crcBe s.blk.frCnt.toNat) }
  if f.frCnt + 1 = 2#9 then
    if f.pcrcRx ≠ crcFinish s.par.crc f.pcrc then
      .ok (raiseFault (.payloadCrcFault f.pcrcRx (crcFinish s.par.crc f.pcrc)) c2 (setBlk { f with frCnt := 0#9 } s))
    else emitBlock (setBlk { f with frCnt := 0#9 } s)
  else .ok (setBlk { f with frCnt := f.frCnt + 1 } s)

/-- A header byte enters the running header CRC before its state reads it (R420, R440). -/
def coverHeader (b : Byte) (s : State) : State :=
  if s.blk.fr.inHeader then setBlk { s.blk with hcrc := crcUpdate s.par.crc s.blk.hcrc b } s else s

/-- A byte in the state FR, its header CRC already taken (R420). -/
def frameByState (b : Byte) (c2 : Time) (s : State) : Except Fault State :=
  match s.blk.fr with
  | .hunt => .ok (huntByte b c2 s)
  | .name => .ok (setBlk (s.blk.nameByte s.cfg.nameTerm10 b) s)
  | .nameTerm => .ok (setBlk s.blk.nameTermByte s)
  | .load => .ok (setBlk (s.blk.loadByte b) s)
  | .exec => .ok (setBlk (s.blk.execByte b) s)
  | .seq => .ok (setBlk (s.blk.seqByte b) s)
  | .len => .ok (lenByte b c2 s)
  | .flag => .ok (setBlk (s.blk.flagByte b) s)
  | .next => .ok (setBlk (s.blk.nextByte b) s)
  | .hcrc => .ok (hcrcByte b c2 s)
  | .data => dataByte b s
  | .pcrc => pcrcByte b c2 s

/-- `frame(b, c2)` (R420). -/
def frame (b : Byte) (c2 : Time) (s : State) : Except Fault State := frameByState b c2 (coverHeader b s)

end Sys2Proof.Machine
end

