-- ==== Sys2Proof/Machine/Assembler.lean ====
section
/-! DEFINITION. The tone classifier and the bit assembler (43_assembler.md). -/

namespace Sys2Proof.Machine

/-- `(ACC >> 1) | (b << 7)` as an 8-bit operation (R372). -/
def shiftIn (bit : Bool) (acc : Byte) : Byte := (acc >>> 1) ||| ((BitVec.ofBool bit).setWidth 8 <<< 7)

/-- A completed byte (R373): the BYTE event, and the assembler in After with its counters cleared. -/
def completeByte (acc : Byte) (c2 : Time) (s : State) : State :=
  setAsm ⟨.after, acc, 0#4, 0#2⟩ (emit (.byte acc c2) s)

/-- `pushBit(b, c2)` (R372, R373): the eighth bit completes a byte, which goes to the framer. -/
def pushBit (bit : Bool) (c2 : Time) (s : State) : Except Fault State :=
  if s.asm.shift + 1 = 8#4 then
    frame (shiftIn bit s.asm.acc) c2 (completeByte (shiftIn bit s.asm.acc) c2 s)
  else .ok (setAsm { s.asm with acc := shiftIn bit s.asm.acc, shift := s.asm.shift + 1 } s)

/-- `assemble(tone, w, c2)` (R355): the cells R360 to R381, and R385 for None. -/
def assemble (tone : Tone) (w : Word) (c2 : Time) (s : State) : Except Fault State :=
  match s.asm.asm, tone with
  | _, .none => .ok (raiseFault (.invalidPulse w) c2 s)
  | .waiting, .low => .ok s
  | .waiting, .high => .ok (setAsm { s.asm with asm := .ready } s)
  | .ready, .low => .ok (setAsm ⟨.data, 0#8, 0#4, 0#2⟩ s)
  | .ready, .high => .ok s
  | .data, .low => pushBit false c2 (setAsm { s.asm with cycle := 0#2 } s)
  | .data, .high =>
    if s.asm.cycle + 1 = 2#2 then pushBit true c2 (setAsm { s.asm with cycle := 0#2 } s)
    else .ok (setAsm { s.asm with cycle := s.asm.cycle + 1 } s)
  | .after, .low => .ok (raiseFault .framingFault c2 s)
  | .after, .high =>
    if s.asm.cycle + 1 = 2#2 then .ok (setAsm { s.asm with asm := .ready, cycle := 0#2 } s)
    else .ok (setAsm { s.asm with cycle := s.asm.cycle + 1 } s)

/-- `HIGH_TIMING(prev, c2, w)`, the instance's predicate (R8, R352). -/
def highTiming (p : Params) (prev : Option Time) (c2 : Time) (w : Word) : Bool :=
  decide ((prev, c2, w) ∈ p.highTiming)

/-- The tone of an accepted pulse (R350 to R352). -/
def toneOf (w : Word) (c2 : Time) (s : State) : Tone :=
  if s.cfg.thrLow ≤ w then .low
  else if s.cfg.thrHigh ≤ w ∨ (s.cfg.htimeEn = true ∧ highTiming s.par s.prevC2 c2 w = true) then .high
  else .none

/-- `classify(w, c2)` (R350): PREV_C2 is updated whatever the tone (R353). -/
def classify (w : Word) (c2 : Time) (s : State) : Except Fault State :=
  assemble (toneOf w c2 s) w c2 { s with prevC2 := some c2 }

end Sys2Proof.Machine
end

