-- ==== Sys2Proof/Machine/Operands.lean ====
section
/-! DEFINITION. Operand decoding: sample codes to normalised samples (30_encoding.md R140, 40_commands.md R215) and
unsigned Q16.16 register values (R150). -/

namespace Sys2Proof.Machine

/-- The value a Q16.16 register stands for (R150). -/
def q16 (r : Word) : Analog := (r.toNat : Analog) / 65536

/-- The normalised sample s of a DATA field, an exact rational in [−1, 1) (R140, R215): a 16-bit signed, an 8-bit signed
or an 8-bit unsigned code over its full scale. FMT 11 is reserved and has no row. -/
def normalise (fmt : BitVec 2) (data : Word) : Option Analog :=
  match fmt.toNat with
  | 0 => some (((data.extractLsb' 0 16).toInt : Analog) / 32768)
  | 1 => some (((data.extractLsb' 0 8).toInt : Analog) / 128)
  | 2 => some ((((data.extractLsb' 0 8).toNat : Analog) - 128) / 128)
  | _ => none

end Sys2Proof.Machine
end

