-- ==== Sys2Proof/Machine/PulseDetector.lean ====
section
/-! DEFINITION. The envelope detector and pulse edge classifier (42_pulse_detector.md). -/

namespace Sys2Proof.Machine

/-- The doubled centre of a pulse, start + end in 33 bits (R310). -/
def doubledCentre (start stop : Word) : Time := start.setWidth 33 + stop.setWidth 33

/-- A pulse is accepted when its peak is above the noise floor, strictly (R315). -/
def accepted (s : State) (peak : Analog) : Bool := decide (peak > q16 s.cfg.floor)

/-- A confirmed pulse: the PULSE event, and classification when it is accepted (R300, R310, R316). -/
def completePulse (start stop : Word) (peak : Analog) (s : State) : Except Fault State :=
  let s1 := emit (.pulse start stop peak (accepted s peak)) s
  if accepted s peak then classify (stop - start) (doubledCentre start stop) s1 else .ok s1

/-- The detector after a zero sample inside a pulse has marked the start of its run (R307). -/
def Detector.markZero (n : Word) (d : Detector) : Detector := if d.zRun = 0#32 then { d with zStart := n } else d

/-- `detect(y, n)` (R300, R305 to R313). The run length is compared exactly, so the 32-bit register never wraps. -/
def detect (y : Analog) (n : Word) (s : State) : Except Fault State :=
  if s.det.inPulse then
    if y > 0 then .ok (setDet { s.det with zRun := 0#32, pPeak := maxQ s.det.pPeak y } s)
    else if s.cfg.zeroCount.toNat ≤ s.det.zRun.toNat + 1 then
      completePulse s.det.pStart (s.det.markZero n).zStart s.det.pPeak
        (setDet { s.det.markZero n with inPulse := false, zRun := 0#32 } s)
    else .ok (setDet { s.det.markZero n with zRun := s.det.zRun + 1 } s)
  else if y > 0 then .ok (setDet { s.det with inPulse := true, pStart := n, pPeak := y, zRun := 0#32 } s)
  else .ok s

end Sys2Proof.Machine
end

