-- ==== Sys2Proof/Machine/AnalogFrontEnd.lean ====
section
/-! DEFINITION. The analog front end: spike filter, running mean, gain, the two single-pole stages and the envelope
(41_front_end.md). -/

namespace Sys2Proof.Machine

/-- `stageUpdate(V, in, k)` (R270). -/
def stageUpdate (v input k : Analog) : Analog := clamp (v + (input - v) * k) (-1) 1

/-- The envelope of a stage-1 output and the stage-2 voltage before its update (R280). -/
def envelope (u v2 : Analog) : Analog := clamp (u - v2) 0 1

/-- The mean m that `meanStage(s)` returns (R265): over every sample that entered the stage, the current one included,
or 0 with MEAN_EN = 0. The count is exact, also for the 2^32-th sample. -/
def meanValue (x : Analog) (s : State) : Analog :=
  if s.cfg.meanEn then (s.fe.msum + x) / ((s.fe.mcnt.toNat : Analog) + 1) else 0

/-- What `meanStage(s)` writes (R265). MCNT is 32 bits and never wraps (R46); after the 2^32-th sample, the last one a
session can hold, its value is a free value. DESIGN CHOICE: log entry 5. -/
def meanState (x : Analog) (s : State) : State :=
  if s.cfg.meanEn then
    if s.fe.mcnt = 0xFFFFFFFF#32 then
      { setFe { s.fe with msum := s.fe.msum + x, mcnt := Config.meanCountPastEnd s.freeUse } s with
        freeUse := s.freeUse + 1 }
    else setFe { s.fe with msum := s.fe.msum + x, mcnt := s.fe.mcnt + 1 } s
  else s

/-- The stage-1 input `x = G · (s − m)` (R266). -/
def stageInput (x : Analog) (s : State) : Analog := q16 s.cfg.gain * (x - meanValue x s)

/-- `afe(s, n)` (R250): stage 2 takes stage 1's updated voltage, the envelope stage 2's voltage before its update
(R271, R272, R280). -/
def afe (x : Analog) (n : Word) (s : State) : Except Fault State :=
  let u := stageUpdate s.fe.v1 (stageInput x s) (q16 s.cfg.k1)
  let y := envelope u s.fe.v2
  let v2 := stageUpdate s.fe.v2 u (q16 s.cfg.k2)
  let t := meanState x s
  detect y n (setFe { t.fe with v1 := u, v2 := v2 } t)

/-- R262: the value before, the two after lie in one sign class, and b in the other. -/
def isSpike (a : Option Analog) (b c d : Analog) : Bool :=
  match a with
  | none => false
  | some a => pos a == pos c && pos c == pos d && pos b != pos a

/-- The value the spike filter passes on for b (R260, R263). -/
def despike (a : Option Analog) (b c d : Analog) : Analog :=
  match a with
  | none => b
  | some v => if isSpike (some v) b c d then (v + c) / 2 else b

/-- `spike(d, n)` (R260, R261). -/
def spike (d : Analog) (n : Word) (s : State) : Except Fault State :=
  match s.fe.spkQ with
  | [] => .ok (setFe { s.fe with spkQ := [(d, n)] } s)
  | [b] => .ok (setFe { s.fe with spkQ := [b, (d, n)] } s)
  | b :: c :: _ =>
    let v := despike s.fe.spkA b.1 c.1 d
    afe v b.2 (setFe { s.fe with spkA := some v, spkQ := [c, (d, n)] } s)

/-- `frontEnd(s, n)` (R216): bypass (R285), spike filter, or straight to the stages. -/
def frontEnd (x : Analog) (n : Word) (s : State) : Except Fault State :=
  if s.cfg.bypass then detect (clamp x 0 1) n s
  else if s.cfg.spikeEn then spike x n s
  else afe x n s

end Sys2Proof.Machine
end

