-- ==== Sys2Proof/Machine/Sample.lean ====
section
/-! DEFINITION. SAMPLE (40_commands.md R210 to R217). -/

namespace Sys2Proof.Machine

/-- After a counted sample (R210): the next index, or at index 0xFFFFFFFF the end of the stream (R214). -/
def countSample (s : State) : State :=
  if s.n = 0xFFFFFFFF#32 then endOfStream .indexExhausted s else { s with n := s.n + 1 }

/-- A normalised sample at index N: skipped below START_IDX (R211), else through the front end (R216), then counted. -/
def takeSample (x : Analog) (s : State) : Except Fault State :=
  if s.cfg.startIdx ≤ s.n then
    match frontEnd x s.n s with
    | .error f => .error f
    | .ok t => .ok (countSample t)
  else .ok (countSample s)

/-- A SAMPLE that the session accepts (R210): the stop check (R213), normalisation (R215), the sample. -/
def acceptSample (data : Word) (s : State) : Host.Outcome State Fault Refusal :=
  if s.cfg.stopEn = true ∧ s.cfg.stopIdx ≤ s.n then .next (endOfStream .stopIndex s)
  else match normalise s.cfg.fmt data with
    | none => .fault .reservedFormat
    | some x =>
      match takeSample x s with
      | .error f => .fault f
      | .ok t => .next t

/-- SAMPLE data (R210). In DONE it is rejected (R217); with CTRL.ADAPT_EN = 1 it sets REFUSED and does nothing else
(R212), and no step follows (R200). -/
def execSample (data : Word) (s : State) : Host.Outcome State Fault Refusal :=
  if s.session = .done then .next (rejectCmd .sessionDone 0x1#4 s)
  else if s.cfg.adaptEn then .next { s with refused := some .adaptiveTrackingUnmodelled }
  else acceptSample data { s with session := .active }

end Sys2Proof.Machine
end

