-- ==== Sys2Proof/Machine/SessionControl.lean ====
section
/-! DEFINITION. NOP, END and SESSION_RESET (40_commands.md R205, R220, R240). -/

namespace Sys2Proof.Machine

/-- NOP (R205): legal in every session state, no effect. -/
def execNop (s : State) : Host.Outcome State Fault Refusal := .next s

/-- END (R220). In DONE it is rejected (R217). -/
def execEndStream (s : State) : Host.Outcome State Fault Refusal :=
  if s.session = .done then .next (rejectCmd .sessionDone 0x2#4 s) else .next (endOfStream .endCommand s)

/-- SESSION_RESET (R240): no event, `cfg` unchanged. -/
def execSessionReset (s : State) : Host.Outcome State Fault Refusal := .next (sessionResetState s)

end Sys2Proof.Machine
end

