-- ==== Sys2Proof/Syntax.lean ====
section
/-! DEFINITION. The six host commands (30_encoding.md R132), one constructor per row of spec/opcode_table.json. -/

namespace Sys2Proof

/-- A command of the UFDC. -/
inductive Instr where
  /-- NOP (R205). -/
  | nop
  /-- SAMPLE data (R210): the 32-bit DATA field, a sample code in the format CTRL.FMT. -/
  | sample (data : Word)
  /-- END (R220). -/
  | endStream
  /-- CFG_WRITE addr, data (R235). -/
  | cfgWrite (addr : RegAddr) (data : Word)
  /-- CFG_READ addr (R230). -/
  | cfgRead (addr : RegAddr)
  /-- SESSION_RESET (R240). -/
  | sessionReset
  deriving DecidableEq, Repr

end Sys2Proof
end

