-- ==== Sys2Proof/Machine/Dispatch.lean ====
section
/-! DEFINITION. One arm per command (40_commands.md R200). -/

namespace Sys2Proof.Machine

def exec (i : Instr) (s : State) : Host.Outcome State Fault Refusal :=
  match i with
  | .nop => Sys2Proof.Machine.execNop s
  | .sample data => Sys2Proof.Machine.execSample data s
  | .endStream => Sys2Proof.Machine.execEndStream s
  | .cfgWrite addr data => Sys2Proof.Machine.execCfgWrite addr data s
  | .cfgRead addr => Sys2Proof.Machine.execCfgRead addr s
  | .sessionReset => Sys2Proof.Machine.execSessionReset s

end Sys2Proof.Machine
end

