-- ==== Sys2Proof/WellFormed.lean ====
section
/-! DEFINITION. Which commands have an encoding (30_encoding.md R134), given the sample format CTRL.FMT. -/

namespace Sys2Proof

/-- The condition R134 puts on the DATA field of a SAMPLE: no bit above the sample code's width is set.
FMT 00 has 16-bit codes and the other formats 8-bit codes. -/
def sampleDataFits (fmt : BitVec 2) (data : Word) : Bool :=
  if fmt == 0#2 then data.extractLsb' 16 16 == 0#16 else data.extractLsb' 8 24 == 0#24

/-- A command whose fields its encoding can carry under the sample format `fmt`. Every field of the other five has
exactly the width of its place in the word, so only SAMPLE has something to check. -/
def Instr.wellFormed (fmt : BitVec 2) : Instr → Bool
  | .nop => true
  | .sample data => sampleDataFits fmt data
  | .endStream => true
  | .cfgWrite _ _ => true
  | .cfgRead _ => true
  | .sessionReset => true

end Sys2Proof
end

