-- ==== Sys2Proof/Decode.lean ====
section
/-! DEFINITION. The decoder of the 48-bit command word, total and rejecting by name, and the encoder
(30_encoding.md R130 to R135). -/

namespace Sys2Proof

/-- Why a word is malformed (R135). Every one of them is answered with REJECT(1, op). -/
inductive Malformed where
  /-- The opcode is 0x6 to 0xF. -/
  | reservedOpcode
  /-- RSVD, bits 39:32, is not 0. -/
  | reservedBits
  /-- ADDR is not 0 in a command without a register operand. -/
  | addrNotZero
  /-- DATA is not 0 in a command without a data operand. -/
  | dataNotZero
  /-- SAMPLE data has a bit set above the sample width of CTRL.FMT. -/
  | sampleTooWide
  deriving DecidableEq, Repr

/-- OP, bits 47:44 (R133). -/
def opField (w : CmdWord) : BitVec 4 := w.extractLsb' 44 4

/-- ADDR, bits 43:40 (R133). -/
def addrField (w : CmdWord) : RegAddr := w.extractLsb' 40 4

/-- RSVD, bits 39:32 (R133). -/
def rsvdField (w : CmdWord) : BitVec 8 := w.extractLsb' 32 8

/-- DATA, bits 31:0 (R133). -/
def dataField (w : CmdWord) : Word := w.extractLsb' 0 32

/-- A command with neither operand: ADDR and DATA must be 0 (R134). -/
def decodePlain (i : Instr) (w : CmdWord) : Except Malformed Instr :=
  if addrField w ≠ 0#4 then .error .addrNotZero
  else if dataField w ≠ 0#32 then .error .dataNotZero
  else .ok i

/-- SAMPLE: ADDR must be 0 and DATA must fit the sample width (R134). -/
def decodeSample (fmt : BitVec 2) (w : CmdWord) : Except Malformed Instr :=
  if addrField w ≠ 0#4 then .error .addrNotZero
  else if sampleDataFits fmt (dataField w) then .ok (.sample (dataField w))
  else .error .sampleTooWide

/-- CFG_READ: DATA must be 0 (R134). -/
def decodeCfgRead (w : CmdWord) : Except Malformed Instr :=
  if dataField w ≠ 0#32 then .error .dataNotZero else .ok (.cfgRead (addrField w))

/-- The command a 48-bit word stands for under the sample format `fmt`, or why it is malformed (R132, R134, R135). -/
def decode (fmt : BitVec 2) (w : CmdWord) : Except Malformed Instr :=
  if rsvdField w ≠ 0#8 then .error .reservedBits
  else match (opField w).toNat with
    | 0x0 => decodePlain .nop w
    | 0x1 => decodeSample fmt w
    | 0x2 => decodePlain .endStream w
    | 0x3 => .ok (.cfgWrite (addrField w) (dataField w))
    | 0x4 => decodeCfgRead w
    | 0x5 => decodePlain .sessionReset w
    | _ => .error .reservedOpcode

/-- The opcode of a command (R132). -/
def Instr.opcode : Instr → BitVec 4
  | .nop => 0x0#4
  | .sample _ => 0x1#4
  | .endStream => 0x2#4
  | .cfgWrite _ _ => 0x3#4
  | .cfgRead _ => 0x4#4
  | .sessionReset => 0x5#4

/-- The word with the fields OP, ADDR, RSVD = 0 and DATA (R130). -/
def packWord (op addr : BitVec 4) (data : Word) : CmdWord := op ++ addr ++ 0#8 ++ data

/-- The word of a command (R130, R132). -/
def encode : Instr → CmdWord
  | .nop => packWord 0x0#4 0#4 0#32
  | .sample data => packWord 0x1#4 0#4 data
  | .endStream => packWord 0x2#4 0#4 0#32
  | .cfgWrite addr data => packWord 0x3#4 addr data
  | .cfgRead addr => packWord 0x4#4 addr 0#32
  | .sessionReset => packWord 0x5#4 0#4 0#32

/-- The command word whose low `nbits` bits are those of `w` and whose other bits are 0. -/
def wordOfBits (nbits w : Nat) : CmdWord := BitVec.ofNat 48 (w % 2 ^ nbits)

/-- The command the decoder reads from a table word, under CTRL.FMT = 00, the format the opcode table's rows are
written for and the reset value. A UFDC command is one 48-bit word (R130), so there is no word order to lay out.
More than 48 bits are no command word. -/
def decodeTableWord (nbits w : Nat) : Option Instr :=
  if w % 2 ^ nbits < 2 ^ 48 then
    match decode 0#2 (wordOfBits nbits w) with
    | .ok i => some i
    | .error _ => none
  else none

end Sys2Proof
end

