-- ==== Sys2Proof/Machine/Port.lean ====
section
/-! DEFINITION. The input port: taking the next item, and the answer to a malformed word (40_commands.md R200, R201). -/

namespace Sys2Proof.Machine

/-- The next item of the input port, with the state in which it has been taken (R110). -/
def takeItem (s : State) : Option (PortItem × State) :=
  match s.input with
  | [] => none
  | p :: rest => some (p, { s with input := rest })

/-- The command a word stands for in this state: which SAMPLE words are well-formed depends on CTRL.FMT (R134, R200). -/
def decodeHere (w : CmdWord) (s : State) : Except Malformed Instr := decode s.cfg.fmt w

/-- A malformed word: REJECT(1, op) and nothing else (R135, R201). -/
def rejectMalformed (w : CmdWord) (s : State) : State := rejectCmd .malformed (opField w) s

/-- Put a command word where the next step takes it. -/
def pushCommand (w : CmdWord) (s : State) : State := { s with input := .command w :: s.input }

end Sys2Proof.Machine
end

