-- ==== Sys2Proof/Machine/Step.lean ====
section
/-! DEFINITION. One step: the complete processing of one item of the input port (00_scope.md R7, 40_commands.md R200). -/

namespace Sys2Proof.Machine

/-- One step. From a refused state there is none (R36, R200). With nothing on the input port the UFDC does nothing and
its state is kept (R645). A hardware reset and a malformed word are answered without exec (R700, R201). -/
def step (s : State) : Host.Outcome State Fault Refusal :=
  match s.refused with
  | some .adaptiveTrackingUnmodelled => .refused .adaptiveTrackingUnmodelled
  | none =>
    match takeItem s with
    | none => .next s
    | some (.hardwareReset, t) => .next (hardwareResetState t)
    | some (.command w, t) =>
      match decodeHere w t with
      | .ok i => exec i t
      | .error _ => .next (rejectMalformed w t)

/-- The state with the command word `w` of `nbits` bits on the input port, ahead of what is already there. -/
def State.withFetchWord (s : State) (nbits w : Nat) : State := pushCommand (wordOfBits nbits w) s

end Sys2Proof.Machine
end

