-- ==== Sys2Proof/Machine/Run.lean ====
section
/-! DEFINITION. A run of the model and its observation (40_commands.md R245). -/

namespace Sys2Proof.Machine

/-- The commands `ws`, each sent once the step of the one before it is complete (R110, R724), from `s`. Where a step
stops, the run has no further step (R200). -/
def runFrom : List CmdWord → State → Host.Outcome State Fault Refusal
  | [], s => .next s
  | w :: ws, s =>
    match step (pushCommand w s) with
    | .next t => runFrom ws t
    | .fault f => .fault f
    | .refused r => .refused r

/-- A run (R245): a finite list of commands from the reset state of an instance. -/
def run (p : Params) (ws : List CmdWord) : Host.Outcome State Fault Refusal := runFrom ws (State.init p)

/-- What a run lets the host observe (R245): the events of every step, in order, which the output port of the reset
state, empty at first, has collected. A run that ends in a refused state, or asks for a step from one, has no
observation. -/
def observation (p : Params) (ws : List CmdWord) : Option (List Event) :=
  match run p ws with
  | .next t => if t.refused = none then some t.output else none
  | .fault _ => none
  | .refused _ => none

end Sys2Proof.Machine
end

