-- ==== Sys2Proof/Machine/Serialise.lean ====
section
/-! DEFINITION. The wire bytes of a block (44_framer.md R455), the inverse of the framer. The UFDC does not serialise;
the host or a model does. -/

namespace Sys2Proof.Machine

/-- `le(v, k)` (R455): the low `k` bytes of `v`, least significant first. -/
def leBytes {w : Nat} (v : BitVec w) (k : Nat) : List Byte := (List.range k).map fun i => v.extractLsb' (8 * i) 8

/-- `crcBytes(v)` (R455), in the order CTRL.CRC_BE selects. -/
def crcBytes (be : Bool) (v : Half) : List Byte :=
  if be then [v.extractLsb' 8 8, v.extractLsb' 0 8] else [v.extractLsb' 0 8, v.extractLsb' 8 8]

/-- The name on the wire with its terminator, if it has one (R455). -/
def wireName (term10 : Bool) (name : List Byte) : List Byte :=
  name ++ if name.length < Config.nameMax ∨ term10 = true then [0#8] else []

/-- The header bytes after the sync byte: name to next-block address (R455). -/
def wireHeader (term10 : Bool) (b : Block) : List Byte :=
  wireName term10 b.name ++ leBytes b.load 4 ++ leBytes b.exec 4 ++ leBytes b.seq 2 ++ leBytes b.length 2
    ++ [b.flag] ++ leBytes b.next 4

/-- `serialise(B)` (R455) under the CTRL fields of `c`. -/
def serialise (c : RegFile) (b : Block) : List Byte :=
  [Config.sync] ++ wireHeader c.nameTerm10 b ++ crcBytes c.crcBe b.hcrc ++ b.payload ++ crcBytes c.crcBe b.pcrc

/-- The bytes the header CRC covers (R440): the sync byte when HCRC_SYNC = 1, then the header. -/
def headerCovered (c : RegFile) (b : Block) : List Byte :=
  (if c.hcrcSync then [Config.sync] else []) ++ wireHeader c.nameTerm10 b

/-- A block that R456's round trip speaks of: a name of at most 10 non-zero bytes, a payload of the declared length, at
most 256, and the two CRCs that R440 and R444 compute. -/
def Block.valid (p : Crc16) (c : RegFile) (b : Block) : Prop :=
  b.name.length ≤ Config.nameMax ∧ 0#8 ∉ b.name ∧ b.payload.length = b.length.toNat ∧
    b.length.toNat ≤ Config.maxPayload ∧ b.hcrc = crcOf p (headerCovered c b) ∧ b.pcrc = crcOf p b.payload

/-- The bytes `bs` given to `frame` one after another, each with its time. -/
def frameAll : List (Byte × Time) → State → Except Fault State
  | [], s => .ok s
  | (b, c2) :: rest, s =>
    match frame b c2 s with
    | .error f => .error f
    | .ok t => frameAll rest t

end Sys2Proof.Machine
end

