-- ==== Sys2Proof/Safety.lean ====
section
/-! DEFINITION. What the statements about runs speak of: the invariant of the machine, the events of a step, and the
end of a run (40_commands.md R245). -/

namespace Sys2Proof.Machine

/-- The laws of R390 and R361 for the assembler between steps. -/
def BitAsm.ok (a : BitAsm) : Prop :=
  match a.asm with
  | .waiting => a = BitAsm.reset
  | .ready => a.shift = 0#4 ∧ a.cycle = 0#2
  | .data => a.shift.toNat ≤ 7 ∧ a.cycle.toNat ≤ 1
  | .after => a.shift = 0#4 ∧ a.cycle.toNat ≤ 1

/-- The framer between steps: the count stays inside the field, the name inside its buffer, and a declared length that
passed the check of R435 is at most 256 (R53, R55, R421, R444). -/
def Framer.ok (crc : Crc16) (f : Framer) : Prop :=
  f.name.length ≤ Config.nameMax ∧ 0#8 ∉ f.name ∧
  match f.fr with
  | .hunt => f = Framer.reset crc
  | .name => f.frCnt = 0#9 ∧ f.name.length < Config.nameMax
  | .nameTerm => f.frCnt = 0#9 ∧ f.name.length = Config.nameMax
  | .load | .exec => f.frCnt.toNat < 4
  | .seq | .len => f.frCnt.toNat < 2
  | .flag => f.frCnt = 0#9 ∧ f.len.toNat ≤ Config.maxPayload
  | .next => f.frCnt.toNat < 4 ∧ f.len.toNat ≤ Config.maxPayload
  | .hcrc | .pcrc => f.frCnt.toNat < 2 ∧ f.len.toNat ≤ Config.maxPayload
  | .data => f.frCnt.toNat < f.len.toNat ∧ f.len.toNat ≤ Config.maxPayload

/-- The spike window of an active session: at most two samples, with consecutive indices from START_IDX to N − 1, and
none unless the spike filter is in the path (R45, R211, R216, R264). -/
def FrontEnd.windowOk (spiking : Bool) (start n : Nat) (f : FrontEnd) : Prop :=
  match f.spkQ with
  | [] => True
  | [(_, i)] => spiking = true ∧ start ≤ i.toNat ∧ i.toNat + 1 = n
  | [(_, i), (_, j)] => spiking = true ∧ start ≤ i.toNat ∧ i.toNat + 1 = j.toNat ∧ j.toNat + 1 = n
  | _ => False

/-- The smallest index the next sample to reach the detector can have: the oldest pending one, else N. -/
def State.nextIndex (s : State) : Nat :=
  match s.fe.spkQ with
  | [] => s.n.toNat
  | e :: _ => e.2.toNat

/-- The detector of an active session: an open pulse began before the next sample, has a peak in (0, 1] and a zero run
shorter than ZERO_COUNT that began after it (R48, R305 to R313). -/
def Detector.ok (zeroCount next : Nat) (d : Detector) : Prop :=
  d.inPulse = true →
    d.pStart.toNat < next ∧ 0 < d.pPeak ∧ d.pPeak ≤ 1 ∧ d.zRun.toNat < zeroCount ∧
      (d.zRun ≠ 0#32 → d.pStart.toNat < d.zStart.toNat ∧ d.zStart.toNat < next)

end Sys2Proof.Machine

namespace Sys2Proof.Safety

open Sys2Proof.Machine

/-- The state of `st` is that of a reset (R33: IDLE means no SAMPLE accepted). `cfg` and the ports may differ, and the
contents of PBUF, which a reset leaves unspecified (R56, R701), are not spoken of. -/
def Fresh (s : State) : Prop :=
  s = { State.init s.par with
        cfg := s.cfg, refused := s.refused, pbuf := s.pbuf, input := s.input, output := s.output, freeUse := s.freeUse }

/-- The invariant of the machine: it holds at reset and every step keeps it. It rules out the states that the spec says
are never reached. -/
structure Inv (s : State) : Prop where
  /-- CTRL and ZERO_COUNT hold values CFG_WRITE or a reset can leave (R236). -/
  cfgLegal    : s.cfg.legal = true
  /-- The same of the values a hardware reset loads. DESIGN CHOICE: log entry 19. -/
  resetLegal  : s.par.cfgReset.legal = true
  /-- In IDLE nothing has been processed (R33). -/
  idleFresh   : s.session = .idle → Fresh s
  /-- PBUF is in canonical form. -/
  memory      : Memory.wf s.pbuf = true
  /-- The filter voltages lie in [−1, 1] (R47). -/
  voltage1    : -1 ≤ s.fe.v1 ∧ s.fe.v1 ≤ 1
  voltage2    : -1 ≤ s.fe.v2 ∧ s.fe.v2 ≤ 1
  /-- MCNT is at most N while the stream runs (R46). -/
  meanCount   : s.session ≠ .done → s.fe.mcnt.toNat ≤ s.n.toNat
  /-- The spike window of an active session. -/
  window      : s.session = .active → s.fe.windowOk (s.cfg.spikeEn && !s.cfg.bypass) s.cfg.startIdx.toNat s.n.toNat
  /-- The detector of an active session. -/
  detector    : s.session = .active → s.det.ok s.cfg.zeroCount.toNat s.nextIndex
  /-- The last classified centre lies before every later pulse of an active session (R317). -/
  centre      : s.session = .active → ∀ c, s.prevC2 = some c →
                  c.toNat < 2 * s.nextIndex ∧ (s.det.inPulse = true → c.toNat < 2 * s.det.pStart.toNat)
  /-- The time of the block in progress is that of a byte already assembled (R422). -/
  blockTime   : s.session = .active → s.blk.fr ≠ .hunt → ∃ c, s.prevC2 = some c ∧ s.blk.blkTime ≤ c
  /-- The assembler (R390). -/
  assembler   : s.asm.ok
  /-- The framer (R55, R444). -/
  framer      : s.blk.ok s.par.crc

/-- The events that stand in `t` after those of `s`. -/
def newEvents (s t : State) : List Event := t.output.drop s.output.length

/-- A FAULT event. -/
def isFault : Event → Bool
  | .fault _ _ => true
  | _ => false

/-- A PULSE event. -/
def isPulse : Event → Bool
  | .pulse _ _ _ _ => true
  | _ => false

/-- An event the assembler may emit right after a PULSE other than a BYTE: an assembler fault. -/
def isAssemblerFault : Event → Bool
  | .fault (.invalidPulse _) _ => true
  | .fault .framingFault _ => true
  | _ => false

/-- An event the framer may emit: a BLOCK or a framer fault. -/
def isFramerEvent : Event → Bool
  | .block _ => true
  | .fault (.blockLengthFault _) _ => true
  | .fault (.headerCrcFault _ _) _ => true
  | .fault (.payloadCrcFault _ _) _ => true
  | _ => false

/-- An EXHAUSTED event. -/
def isExhausted : Event → Bool
  | .exhausted _ => true
  | _ => false

/-- A REJECT event. -/
def isReject : Event → Bool
  | .reject _ _ => true
  | _ => false

/-- A BYTE event. -/
def isByte : Event → Bool
  | .byte _ _ => true
  | _ => false

/-- A list of at most one event, of the given kind. -/
def atMostOne (p : Event → Bool) (es : List Event) : Prop := es = [] ∨ ∃ e, p e = true ∧ es = [e]

/-- The events of the pipeline for one sample, in the order of R620: PULSE, then an assembler fault or a BYTE, then
after a BYTE a framer event. -/
def pipelineOrder (es : List Event) : Prop :=
  es = [] ∨ ∃ p, isPulse p = true ∧
    (es = [p] ∨ (∃ f, isAssemblerFault f = true ∧ es = [p, f]) ∨
      ∃ b r, isByte b = true ∧ atMostOne isFramerEvent r ∧ es = p :: b :: r)

/-- A run ends well when the state it reaches is DONE with REFUSED = none (R245). -/
def endsWell (s : State) : Prop := s.session = .done ∧ s.refused = none

/-- The commands `ws` from the reset state with parameters `p` are a run that ends well (R245). -/
def runEndsWell (p : Params) (ws : List CmdWord) : Prop := ∃ t, run p ws = .next t ∧ endsWell t

/-- The bytes of PBUF that the block in progress has written (R56): FR_CNT of them in DATA, all in PCRC. -/
def written (f : Framer) : Nat :=
  match f.fr with
  | .data => f.frCnt.toNat
  | .pcrc => f.len.toNat
  | _ => 0

/-- Two states, with PBUF in canonical form, that differ at most in bytes of PBUF that the block in progress has not
written. -/
def SameButUnwritten (s t : State) : Prop :=
  t = { s with pbuf := t.pbuf } ∧ Memory.wf s.pbuf = true ∧ Memory.wf t.pbuf = true ∧
    ∀ a, a < written s.blk → Memory.lookup s.pbuf a = Memory.lookup t.pbuf a

/-- Two outcomes that agree but for unwritten bytes of PBUF. -/
def SameOutcome : Host.Outcome State Fault Refusal → Host.Outcome State Fault Refusal → Prop
  | .next s, .next t => SameButUnwritten s t
  | .fault f, .fault g => f = g
  | .refused r, .refused q => r = q
  | _, _ => False

/-- Every element of `st` but REFUSED and PBUF at the value of R701. -/
def ResetElements (s : State) : Prop :=
  s.session = .idle ∧ s.n = 0#32 ∧ s.blockCount = 0#32 ∧ s.faultCount = 0#32 ∧
    (s.fe.spkQ = [] ∧ s.fe.spkA = none ∧ s.fe.msum = 0 ∧ s.fe.mcnt = 0#32 ∧ s.fe.v1 = 0 ∧ s.fe.v2 = 0) ∧
    (s.det.inPulse = false ∧ s.det.pStart = 0#32 ∧ s.det.pPeak = 0 ∧ s.det.zRun = 0#32 ∧ s.det.zStart = 0#32) ∧
    s.prevC2 = none ∧
    (s.asm.asm = .waiting ∧ s.asm.acc = 0#8 ∧ s.asm.shift = 0#4 ∧ s.asm.cycle = 0#2) ∧
    (s.blk.name = [] ∧ s.blk.load = 0#32 ∧ s.blk.exec = 0#32 ∧ s.blk.seq = 0#16 ∧ s.blk.len = 0#16 ∧
      s.blk.flag = 0#8 ∧ s.blk.next = 0#32 ∧ s.blk.hcrcRx = 0#16 ∧ s.blk.pcrcRx = 0#16 ∧ s.blk.blkTime = 0#33) ∧
    (s.blk.hcrc = s.par.crc.init ∧ s.blk.pcrc = s.par.crc.init) ∧
    (s.blk.fr = .hunt ∧ s.blk.frCnt = 0#9) ∧
    readReg 0xA#4 s = 0#32

/-- SAMPLE reaches normalisation: the session is not DONE (R217), CTRL.ADAPT_EN = 0 (R212), the stop check does not
fire (R213), and CTRL.FMT is not the reserved 11 (R134). -/
def Sampling (s : State) : Prop :=
  s.session ≠ .done ∧ s.cfg.ctrl.getLsbD 2 = false ∧ ¬ (s.cfg.ctrl.getLsbD 7 = true ∧ s.cfg.stopIdx ≤ s.n) ∧
    s.cfg.ctrl.extractLsb' 5 2 ≠ 3#2

/-- The tones of the pulses of one byte, in order (R390): the start pulse, the bits from the least significant, and the
two High pulses that lead back to Ready. -/
def byteTones (b : Byte) : List Tone :=
  .low :: ((List.range 8).flatMap fun i => if b.getLsbD i then [.high, .high] else [.low]) ++ [.high, .high]

/-- The widths R390 asks of a pulse of a tone. -/
def toneFits (c : RegFile) (tone : Tone) (w : Word) : Prop :=
  match tone with
  | .low => c.thrLow ≤ w
  | .high => c.thrHigh ≤ w ∧ w < c.thrLow
  | .none => False

/-- Accepted pulses, each with its width and its doubled centre, given to `classify` one after another. -/
def classifyAll : List (Word × Time) → State → Except Fault State
  | [], s => .ok s
  | (w, c2) :: rest, s =>
    match classify w c2 s with
    | .error f => .error f
    | .ok t => classifyAll rest t

/-- The running payload CRC is the CRC register over the bytes of PBUF that the block in progress has written (R444). -/
def PayloadInv (s : State) : Prop :=
  Memory.wf s.pbuf = true ∧
    s.blk.pcrc = crcFold s.par.crc s.par.crc.init ((List.range (written s.blk)).map (Memory.lookup s.pbuf))

/-- The time field of an event that has one (R171). -/
def eventTime : Event → Option Time
  | .byte _ c2 => some c2
  | .fault _ c2 => some c2
  | .block b => some b.time
  | _ => none

/-- A BLOCK event. -/
def isBlock : Event → Bool
  | .block _ => true
  | _ => false

/-- The terminator bytes that may follow a name on the wire (R430, R431): a 0x00 after a short name; after ten bytes
none, or with CTRL.NAME_TERM10 = 1 one byte of any value. -/
def nameEnd (term10 : Bool) (name te : List Byte) : Prop :=
  if name.length < Config.nameMax then te = [0#8] else if term10 then te.length = 1 else te = []

end Sys2Proof.Safety
end

