-- ==== Sys2Proof/Certificates/Slice0/Obligations.lean ====
section
/-! DEFINITION. The statements for the provers. Each docstring names the rule of spec/ a statement formalises, or says
that it rests on a choice of the model. -/

open Sys2Proof Sys2Proof.Machine Sys2Proof.Safety

/-! Encoding -/

/-- The words that R180 writes out decode to their commands, and an opcode without a row does not decode (R132). -/
def Obligations.WrittenWordsDecode : Prop :=
  decode 0#2 0x000000000000#48 = .ok .nop ∧
    decode 0#2 0x100000004000#48 = .ok (.sample 0x4000#32) ∧
    decode 0#2 0x10000000FFFF#48 = .ok (.sample 0xFFFF#32) ∧
    decode 0#2 0x200000000000#48 = .ok .endStream ∧
    decode 0#2 0x350000000004#48 = .ok (.cfgWrite 0x5#4 4#32) ∧
    decode 0#2 0x4A0000000000#48 = .ok (.cfgRead 0xA#4) ∧
    decode 0#2 0x500000000000#48 = .ok .sessionReset ∧
    decode 0#2 0x600000000000#48 = .error .reservedOpcode

/-- Encoding and then decoding gives every well-formed command back (R130 to R134). -/
def Obligations.DecodeOfEncode : Prop :=
  ∀ (fmt : BitVec 2) (i : Instr), i.wellFormed fmt = true → decode fmt (encode i) = .ok i

/-- Every word that decodes is the encoding of its command, and that command is well-formed: each command has one word. -/
def Obligations.EncodeOfDecode : Prop :=
  ∀ (fmt : BitVec 2) (w : CmdWord) (i : Instr),
    decode fmt w = .ok i → encode i = w ∧ i.wellFormed fmt = true

/-- R134: which words are well-formed, and that CTRL.FMT is never 11. -/
def Obligations.DecoderAcceptsWellFormed : Prop :=
  ∀ (w : CmdWord) (s : State),
    ((∃ i, decodeHere w s = .ok i) ↔
      w.extractLsb' 32 8 = 0#8 ∧
        (((w.extractLsb' 44 4 = 0x0#4 ∨ w.extractLsb' 44 4 = 0x2#4 ∨ w.extractLsb' 44 4 = 0x5#4) ∧
            w.extractLsb' 40 4 = 0#4 ∧ w.extractLsb' 0 32 = 0#32) ∨
          (w.extractLsb' 44 4 = 0x1#4 ∧ w.extractLsb' 40 4 = 0#4 ∧
            if s.cfg.ctrl.extractLsb' 5 2 = 0#2 then w.extractLsb' 16 16 = 0#16 else w.extractLsb' 8 24 = 0#24) ∨
          w.extractLsb' 44 4 = 0x3#4 ∨
          (w.extractLsb' 44 4 = 0x4#4 ∧ w.extractLsb' 0 32 = 0#32))) ∧
    (Inv s → s.cfg.ctrl.extractLsb' 5 2 ≠ 3#2)

/-- The numeric codes of R160 and of the tables of R171 to R173. -/
def Obligations.EnumerationCodes : Prop :=
  (AsmState.waiting.code = 0#2 ∧ AsmState.ready.code = 1#2 ∧ AsmState.data.code = 2#2 ∧ AsmState.after.code = 3#2) ∧
    (FrState.hunt.code = 0#4 ∧ FrState.name.code = 1#4 ∧ FrState.nameTerm.code = 2#4 ∧ FrState.load.code = 3#4 ∧
      FrState.exec.code = 4#4 ∧ FrState.seq.code = 5#4 ∧ FrState.len.code = 6#4 ∧ FrState.flag.code = 7#4 ∧
      FrState.next.code = 8#4 ∧ FrState.hcrc.code = 9#4 ∧ FrState.data.code = 10#4 ∧ FrState.pcrc.code = 11#4) ∧
    (Session.idle.code = 0#2 ∧ Session.active.code = 1#2 ∧ Session.done.code = 2#2) ∧
    (∀ t : Tone, t = .none ∨ t = .low ∨ t = .high) ∧
    (∀ w l r c, (FaultKind.invalidPulse w).code = 1#4 ∧ FaultKind.framingFault.code = 2#4 ∧
      (FaultKind.blockLengthFault l).code = 3#4 ∧ (FaultKind.headerCrcFault r c).code = 4#4 ∧
      (FaultKind.payloadCrcFault r c).code = 5#4) ∧
    (Cause.endCommand.code = 0#2 ∧ Cause.stopIndex.code = 1#2 ∧ Cause.indexExhausted.code = 2#2) ∧
    (Reason.malformed.code = 1#4 ∧ Reason.sessionActive.code = 2#4 ∧ Reason.badWrite.code = 3#4 ∧
      Reason.sessionDone.code = 4#4) ∧
    (∀ start stop peak acc v c2 b k c a d r op, (Event.pulse start stop peak acc).code = 1 ∧ (Event.byte v c2).code = 2 ∧
      (Event.block b).code = 3 ∧ (Event.fault k c2).code = 4 ∧ (Event.exhausted c).code = 5 ∧
      (Event.cfgData a d).code = 6 ∧ (Event.reject r op).code = 7)

/-! The step -/

/-- A step runs the decoded command (R200): the command at the head of the input port, and the word that
`State.withFetchWord` puts there. -/
def Obligations.StepRunsDecodedCommand : Prop :=
  (∀ (s : State) (w : CmdWord) (rest : List PortItem) (i : Instr), s.refused = none → s.input = .command w :: rest →
      decode (s.cfg.ctrl.extractLsb' 5 2) w = .ok i → step s = exec i { s with input := rest }) ∧
    (∀ (s : State) (w : Nat) (i : Instr), s.refused = none →
      decode (s.cfg.ctrl.extractLsb' 5 2) (BitVec.ofNat 48 w) = .ok i → step (s.withFetchWord 48 w) = exec i s)

/-- R201: a malformed word is answered with REJECT(1, op), and nothing else changes. -/
def Obligations.MalformedWordRejected : Prop :=
  ∀ (s : State) (w : CmdWord) (rest : List PortItem), s.refused = none → s.input = .command w :: rest →
    (∀ i, decodeHere w s ≠ .ok i) →
    step s = .next { s with input := rest, output := s.output ++ [.reject .malformed (w.extractLsb' 44 4)] } ∧
      Reason.malformed.code = 1#4

/-- R36: REFUSED has one reason, starts at none, is never cleared by a command or a reset, and stops every step. -/
def Obligations.RefusedStateIsFinal : Prop :=
  State.reset.refused = none ∧
    (∀ r : RefusedReason, r = .adaptiveTrackingUnmodelled) ∧
    (∀ s : State, s.refused ≠ none → step s = .refused .adaptiveTrackingUnmodelled) ∧
    (∀ (i : Instr) (s t : State), s.refused ≠ none → exec i s = .next t → t.refused = s.refused) ∧
    (∀ s : State, (hardwareResetState s).refused = s.refused)

/-- A hardware reset gives the reset state and has the effect of SESSION_RESET on `st` (R700, R705). That it arrives on
the input port, that the output port keeps its events and that PBUF reads as unwritten are the model's choices: log
entries 8, 7 and 1. -/
def Obligations.HardwareResetStep : Prop :=
  ∀ (s : State) (rest : List PortItem), s.refused = none → s.input = .hardwareReset :: rest →
    step s = .next { State.init s.par with input := rest, output := s.output, freeUse := s.freeUse } ∧
      ∃ u, exec .sessionReset { s with input := rest } = .next u ∧ step s = .next { u with cfg := s.par.cfgReset }

/-- R701 and R240: the elements of `st` after SESSION_RESET and after a hardware reset, and what SESSION_RESET keeps. -/
def Obligations.ResetElementsOfSt : Prop :=
  (∀ s : State, ∃ t, exec .sessionReset s = .next t ∧ ResetElements t ∧ t.refused = s.refused ∧ t.cfg = s.cfg ∧
      t.par = s.par ∧ t.input = s.input ∧ t.output = s.output) ∧
    (∀ (s : State) (rest : List PortItem), s.refused = none → s.input = .hardwareReset :: rest →
      ∃ t, step s = .next t ∧ ResetElements t ∧ t.cfg = s.par.cfgReset ∧ t.output = s.output) ∧
    ResetElements State.reset ∧ State.reset.refused = none

/-- The sixteen registers at reset, at P_RATE = 44100 (the table of R37). -/
def Obligations.RegistersAtReset : Prop :=
  (List.range 16).map (fun a => readReg (BitVec.ofNat 4 a) State.reset) =
    [0x00000100#32, 0x00002BC5#32, 0x00002BC5#32, 0x00010000#32, 0x0000199A#32, 0x0000000E#32, 0x00000007#32,
      0x00000007#32, 0x00000000#32, 0xFFFFFFFF#32, 0x00000000#32, 0x00000000#32, 0x00000000#32, 0x00000000#32,
      0x55454631#32, 0x00000000#32]

/-- The reset values of R58 as functions of P_RATE. K1 and K2, 65536 · 2π · 1200 / P_RATE rounded (R39), are stated for
the usual audio rates: the stored value is within one half of the exact real number. -/
def Obligations.DefaultsFollowSampleRate : Prop :=
  (∀ p : Nat, 0 < p → p < 2 ^ 32 →
      (RegFile.defaults p).ctrl = 0x00000100#32 ∧ (RegFile.defaults p).gain = 0x00010000#32 ∧
        (RegFile.defaults p).floor = 0x0000199A#32 ∧ (RegFile.defaults p).startIdx = 0#32 ∧
        (RegFile.defaults p).stopIdx = 0xFFFFFFFF#32 ∧
        ((RegFile.defaults p).thrLow.toNat : ℤ) = ⌈(p : ℚ) / 3200⌉ ∧
        ((RegFile.defaults p).thrHigh.toNat : ℤ) = ⌈(p : ℚ) / 7000⌉ ∧
        ((RegFile.defaults p).zeroCount.toNat : ℤ) = max 1 ⌊(p : ℚ) / 6200⌋) ∧
    ∀ p ∈ [8000, 11025, 16000, 22050, 32000, 44100, 48000, 96000],
      |((RegFile.defaults p).k1.toNat : ℝ) - 65536 * (2 * Real.pi) * 1200 / (p : ℝ)| < 1 / 2 ∧
        (RegFile.defaults p).k2 = (RegFile.defaults p).k1

/-! The commands without a sample -/

/-- R205: NOP changes nothing, and with OP = 0x0 only the all-zero word decodes. -/
def Obligations.NopDoesNothing : Prop :=
  (∀ s : State, exec .nop s = .next s) ∧
    ∀ (fmt : BitVec 2) (w : CmdWord), w.extractLsb' 44 4 = 0x0#4 →
      (w = 0#48 → decode fmt w = .ok .nop) ∧ (w ≠ 0#48 → ∀ i, decode fmt w ≠ .ok i)

/-- R220: END emits EXHAUSTED(0) and ends the session and changes nothing else; in DONE it is rejected; with OP = 0x2
only one word decodes. -/
def Obligations.EndEndsTheStream : Prop :=
  (∀ s : State, s.session ≠ .done →
      exec .endStream s = .next { s with output := s.output ++ [.exhausted .endCommand], session := .done }) ∧
    (∀ s : State, s.session = .done →
      exec .endStream s = .next { s with output := s.output ++ [.reject .sessionDone 0x2#4] }) ∧
    (∀ (fmt : BitVec 2) (w : CmdWord), w.extractLsb' 44 4 = 0x2#4 →
      ((∃ i, decode fmt w = .ok i) ↔ w = 0x200000000000#48)) ∧
    (∀ fmt : BitVec 2, decode fmt 0x200000000000#48 = .ok .endStream) ∧
    Cause.endCommand.code = 0#2 ∧ Reason.sessionDone.code = 4#4

/-- R217: SAMPLE and END in DONE are rejected and change nothing, and only a reset leaves DONE. -/
def Obligations.DoneSessionRejects : Prop :=
  (∀ (s : State) (d : Word), s.session = .done →
      exec (.sample d) s = .next { s with output := s.output ++ [.reject .sessionDone 0x1#4] }) ∧
    (∀ s : State, s.session = .done →
      exec .endStream s = .next { s with output := s.output ++ [.reject .sessionDone 0x2#4] }) ∧
    (∀ (i : Instr) (s t : State), s.session = .done → exec i s = .next t → t.session ≠ .done → i = .sessionReset) ∧
    Reason.sessionDone.code = 4#4

/-- R230: what CFG_READ emits for each address; nothing else changes; which words are a CFG_READ. -/
def Obligations.ConfigReadReturns : Prop :=
  (∀ (s : State) (a : RegAddr),
      exec (.cfgRead a) s = .next { s with output := s.output ++ [.cfgData a
        ([s.cfg.ctrl, s.cfg.k1, s.cfg.k2, s.cfg.gain, s.cfg.floor, s.cfg.thrLow, s.cfg.thrHigh, s.cfg.zeroCount,
          s.cfg.startIdx, s.cfg.stopIdx, statusWord s, s.n, s.blockCount, s.faultCount, 0x55454631#32, 0#32].getD
          a.toNat 0#32)] }) ∧
    ∀ (fmt : BitVec 2) (w : CmdWord) (a : RegAddr),
      decode fmt w = .ok (.cfgRead a) ↔
        w.extractLsb' 44 4 = 0x4#4 ∧ w.extractLsb' 40 4 = a ∧ w.extractLsb' 32 8 = 0#8 ∧ w.extractLsb' 0 32 = 0#32

/-- R50: the fields of STATUS, and its reset value. -/
def Obligations.StatusFields : Prop :=
  (∀ s : State,
      (readReg 0xA#4 s).extractLsb' 0 2 = s.asm.asm.code ∧
        (readReg 0xA#4 s).extractLsb' 2 4 = s.asm.shift ∧
        (readReg 0xA#4 s).extractLsb' 6 2 = s.asm.cycle ∧
        (readReg 0xA#4 s).extractLsb' 8 8 = s.asm.acc ∧
        (readReg 0xA#4 s).extractLsb' 16 4 = s.blk.fr.code ∧
        (readReg 0xA#4 s).getLsbD 20 = false ∧
        (readReg 0xA#4 s).getLsbD 21 = s.det.inPulse ∧
        (readReg 0xA#4 s).extractLsb' 22 2 = s.session.code ∧
        (readReg 0xA#4 s).extractLsb' 24 8 = 0#8) ∧
    (AsmState.waiting.code = 0#2 ∧ AsmState.ready.code = 1#2 ∧ AsmState.data.code = 2#2 ∧ AsmState.after.code = 3#2) ∧
    readReg 0xA#4 State.reset = 0x00000000#32

/-- R235 and R236: when CFG_WRITE stores, that the stored value reads back and every other register and all other state
is unchanged, when it is rejected with reason 3, and which words are a CFG_WRITE. -/
def Obligations.ConfigWriteStoresOrRejects : Prop :=
  (∀ (s : State) (a : RegAddr) (d : Word), s.session ≠ .active → a.toNat < 0xA →
      (a = 0x0#4 → d.extractLsb' 11 21 = 0#21 ∧ d.extractLsb' 5 2 ≠ 3#2) → (a = 0x7#4 → d ≠ 0#32) →
      ∃ c : RegFile, exec (.cfgWrite a d) s = .next { s with cfg := c } ∧
        ∀ b : RegAddr, b.toNat < 0xA → readReg b { s with cfg := c } = if b = a then d else readReg b s) ∧
    (∀ (s : State) (a : RegAddr) (d : Word), s.session ≠ .active →
      (0xA ≤ a.toNat ∨ (a = 0x0#4 ∧ (d.extractLsb' 11 21 ≠ 0#21 ∨ d.extractLsb' 5 2 = 3#2)) ∨ (a = 0x7#4 ∧ d = 0#32)) →
      exec (.cfgWrite a d) s = .next { s with output := s.output ++ [.reject .badWrite 0x3#4] }) ∧
    (∀ (s : State) (a : RegAddr) (d : Word), s.session = .active →
      exec (.cfgWrite a d) s = .next { s with output := s.output ++ [.reject .sessionActive 0x3#4] }) ∧
    (∀ (fmt : BitVec 2) (w : CmdWord) (a : RegAddr) (d : Word),
      decode fmt w = .ok (.cfgWrite a d) ↔
        w.extractLsb' 44 4 = 0x3#4 ∧ w.extractLsb' 40 4 = a ∧ w.extractLsb' 32 8 = 0#8 ∧ w.extractLsb' 0 32 = d) ∧
    Reason.badWrite.code = 3#4 ∧ Reason.sessionActive.code = 2#4

/-- R237: a CFG_WRITE in ACTIVE is rejected with reason 2 whatever it writes, and no command changes `cfg` while the
session is active. -/
def Obligations.ActiveSessionLocksConfig : Prop :=
  (∀ (s : State) (a : RegAddr) (d : Word), s.session = .active →
      exec (.cfgWrite a d) s = .next { s with output := s.output ++ [.reject .sessionActive 0x3#4] }) ∧
    (∀ (i : Instr) (s t : State), s.session = .active → exec i s = .next t → t.cfg = s.cfg) ∧
    Reason.sessionActive.code = 2#4

/-! SAMPLE -/

/-- SAMPLE with CTRL.ADAPT_EN = 1 sets REFUSED and does nothing else, and no step follows (R200, R210, R212). That this
SAMPLE itself answers a next state, which has only REFUSED changed, is the model's reading: log entry 10, DEDUCED. -/
def Obligations.AdaptiveSampleRefused : Prop :=
  (∀ (s : State) (d : Word), s.session ≠ .done → s.cfg.ctrl.getLsbD 2 = true →
      exec (.sample d) s = .next { s with refused := some .adaptiveTrackingUnmodelled }) ∧
    ∀ (s t : State) (d : Word), s.session ≠ .done → s.cfg.ctrl.getLsbD 2 = true → exec (.sample d) s = .next t →
      step t = .refused .adaptiveTrackingUnmodelled

/-- R213: SAMPLE at or past STOP_IDX with CTRL.STOP_EN = 1 ends the stream and is not processed. -/
def Obligations.StopIndexEndsStream : Prop :=
  (∀ (s : State) (d : Word), s.session ≠ .done → s.cfg.ctrl.getLsbD 2 = false → s.cfg.ctrl.getLsbD 7 = true →
      s.cfg.stopIdx ≤ s.n →
      exec (.sample d) s = .next { s with session := .done, output := s.output ++ [.exhausted .stopIndex] }) ∧
    Cause.stopIndex.code = 1#2

/-- R211: SAMPLE below START_IDX is counted, reaches no unit and emits nothing. -/
def Obligations.SkippedSampleIsCounted : Prop :=
  ∀ (s : State) (d : Word), Sampling s → s.n < s.cfg.startIdx →
    exec (.sample d) s = .next { s with session := .active, n := s.n + 1 }

/-- R210 and R216: SAMPLE at an index from START_IDX on, not the last one, goes through the front end and is counted. -/
def Obligations.SampleThroughFrontEnd : Prop :=
  ∀ (s : State) (d : Word), Sampling s → s.blk.ok s.par.crc → s.cfg.startIdx ≤ s.n → s.n ≠ 0xFFFFFFFF#32 →
    ∃ x u, normalise (s.cfg.ctrl.extractLsb' 5 2) d = some x ∧
      (if s.cfg.ctrl.getLsbD 4 then detect (clamp x 0 1) s.n { s with session := .active }
        else if s.cfg.ctrl.getLsbD 1 then spike x s.n { s with session := .active }
        else afe x s.n { s with session := .active }) = .ok u ∧
      exec (.sample d) s = .next { u with n := s.n + 1 } ∧ u.session = .active

/-- R214: the sample at index 0xFFFFFFFF is processed and ends the stream, and N never wraps. -/
def Obligations.LastIndexEndsStream : Prop :=
  (∀ (s : State) (d : Word), Sampling s → s.blk.ok s.par.crc → s.n = 0xFFFFFFFF#32 →
      ∃ x u, normalise (s.cfg.ctrl.extractLsb' 5 2) d = some x ∧
        frontEnd x s.n { s with session := .active } = .ok u ∧ u.n = 0xFFFFFFFF#32 ∧
        exec (.sample d) s = .next { u with output := u.output ++ [.exhausted .indexExhausted], session := .done }) ∧
    (∀ (i : Instr) (s t : State), i ≠ .sessionReset → exec i s = .next t → s.n ≤ t.n) ∧
    Cause.indexExhausted.code = 2#2

/-- What SAMPLE leaves unchanged: the configuration, the parameters, the input port, REFUSED (with CTRL.ADAPT_EN = 0),
the events already emitted, and every byte of PBUF but the one at index FR_CNT when the framer is in DATA (R100, R444);
and how it counts (R31). -/
def Obligations.SampleFrame : Prop :=
  ∀ (s t : State) (d : Word), s.session ≠ .done → s.cfg.ctrl.getLsbD 2 = false → exec (.sample d) s = .next t →
    t.cfg = s.cfg ∧ t.par = s.par ∧ t.input = s.input ∧ t.refused = s.refused ∧ s.output <+: t.output ∧
      ((t.session = .active ∧ t.n = s.n + 1) ∨ (t.session = .done ∧ t.n = s.n)) ∧
      (Memory.wf s.pbuf = true → ∀ a, ¬ (s.blk.fr = .data ∧ a = s.blk.frCnt.toNat) → memRead t.pbuf a = memRead s.pbuf a)

/-- R215: the normalised sample for each format, and its range. -/
def Obligations.NormalisedSample : Prop :=
  ∀ d : Word,
    normalise 0#2 d = some (((d.extractLsb' 0 16).toInt : ℚ) / 32768) ∧
      normalise 1#2 d = some (((d.extractLsb' 0 8).toInt : ℚ) / 128) ∧
      normalise 2#2 d = some ((((d.extractLsb' 0 8).toNat : ℚ) - 128) / 128) ∧
      (∀ x, normalise 0#2 d = some x → -1 ≤ x ∧ x ≤ 1 - 1 / 32768) ∧
      (∀ x, normalise 1#2 d = some x → -1 ≤ x ∧ x ≤ 127 / 128) ∧
      (∀ x, normalise 2#2 d = some x → -1 ≤ x ∧ x ≤ 127 / 128)

/-- R285: with CTRL.BYPASS = 1 the clamped sample is the envelope, and the state of the analog units does not change. -/
def Obligations.BypassFeedsDetector : Prop :=
  ∀ (s : State) (n : Word) (x : ℚ), s.cfg.ctrl.getLsbD 4 = true →
    frontEnd x n s = detect (max 0 (min x 1)) n s ∧
      ∀ t, frontEnd x n s = .ok t → t.fe = s.fe ∧ t.freeUse = s.freeUse

/-! The analog front end -/

/-- R270: a stage's voltage stays in [−1, 1], and for 0 ≤ k ≤ 1 the value before the clamp lies between V and `in`.
R281: the envelope laws. -/
def Obligations.StageAndEnvelopeLaws : Prop :=
  (∀ v input k : ℚ,
      stageUpdate v input k = max (-1) (min (v + (input - v) * k) 1) ∧
        -1 ≤ stageUpdate v input k ∧ stageUpdate v input k ≤ 1 ∧
        (0 ≤ k → k ≤ 1 → min v input ≤ v + (input - v) * k ∧ v + (input - v) * k ≤ max v input)) ∧
    ∀ u v2 : ℚ,
      0 ≤ envelope u v2 ∧ envelope u v2 ≤ 1 ∧ (envelope u v2 = 0 ↔ u ≤ v2) ∧ (envelope u v2 > 0 ↔ u > v2) ∧
        (u - v2 ≥ 1 → envelope u v2 = 1)

/-- R250 with R265, R266, R271, R272 and R280, written out: with the running mean off; with it on; and with it on at
the 2^32-th sample, where only what MCNT becomes is open (log entry 5). -/
def Obligations.AnalogPathWrittenOut : Prop :=
  ∀ (x m u : ℚ) (n : Word) (s : State),
    m = (if s.cfg.ctrl.getLsbD 0 then (s.fe.msum + x) / ((s.fe.mcnt.toNat : ℚ) + 1) else 0) →
    u = clamp (s.fe.v1 + ((s.cfg.gain.toNat : ℚ) / 65536 * (x - m) - s.fe.v1) * ((s.cfg.k1.toNat : ℚ) / 65536)) (-1) 1 →
    (s.cfg.ctrl.getLsbD 0 = false →
      afe x n s = detect (clamp (u - s.fe.v2) 0 1) n
        { s with fe := { s.fe with v1 := u, v2 := clamp (s.fe.v2 + (u - s.fe.v2) * ((s.cfg.k2.toNat : ℚ) / 65536)) (-1) 1 } }) ∧
    (s.cfg.ctrl.getLsbD 0 = true → s.fe.mcnt ≠ 0xFFFFFFFF#32 →
      afe x n s = detect (clamp (u - s.fe.v2) 0 1) n
        { s with fe := { s.fe with
          msum := s.fe.msum + x, mcnt := s.fe.mcnt + 1, v1 := u
          v2 := clamp (s.fe.v2 + (u - s.fe.v2) * ((s.cfg.k2.toNat : ℚ) / 65536)) (-1) 1 } }) ∧
    (s.cfg.ctrl.getLsbD 0 = true → s.fe.mcnt = 0xFFFFFFFF#32 →
      ∃ (count : Word) (used : Nat), afe x n s = detect (clamp (u - s.fe.v2) 0 1) n
        { s with
          freeUse := used
          fe := { s.fe with
            msum := s.fe.msum + x, mcnt := count, v1 := u
            v2 := clamp (s.fe.v2 + (u - s.fe.v2) * ((s.cfg.k2.toNat : ℚ) / 65536)) (-1) 1 } })

/-- R260 and R263: the spike filter's window, its spike test, and the class of a replaced value. -/
def Obligations.SpikeFilterWindow : Prop :=
  (∀ (d : ℚ) (n : Word) (s : State), s.fe.spkQ.length < 2 →
      spike d n s = .ok { s with fe := { s.fe with spkQ := s.fe.spkQ ++ [(d, n)] } }) ∧
    (∀ (d b c : ℚ) (n nb nc : Word) (s : State), s.fe.spkQ = [(b, nb), (c, nc)] → s.fe.spkA = none →
      spike d n s = afe b nb { s with fe := { s.fe with spkA := some b, spkQ := [(c, nc), (d, n)] } }) ∧
    (∀ (d a b c v : ℚ) (n nb nc : Word) (s : State), s.fe.spkQ = [(b, nb), (c, nc)] → s.fe.spkA = some a →
      v = (if (0 ≤ a ∧ 0 ≤ c ∧ 0 ≤ d ∧ b < 0) ∨ (a < 0 ∧ c < 0 ∧ d < 0 ∧ 0 ≤ b) then (a + c) / 2 else b) →
      spike d n s = afe v nb { s with fe := { s.fe with spkA := some v, spkQ := [(c, nc), (d, n)] } }) ∧
    (∀ a c : ℚ, (0 ≤ a → 0 ≤ c → 0 ≤ (a + c) / 2) ∧ (a < 0 → c < 0 → (a + c) / 2 < 0))

/-! The pulse detector -/

/-- R300: every case of `detect`. -/
def Obligations.DetectorCases : Prop :=
  (∀ (s : State) (y : ℚ) (n : Word), s.det.inPulse = false → y > 0 →
      detect y n s = .ok { s with det := { s.det with inPulse := true, pStart := n, pPeak := y, zRun := 0#32 } }) ∧
    (∀ (s : State) (y : ℚ) (n : Word), s.det.inPulse = false → ¬ y > 0 → detect y n s = .ok s) ∧
    (∀ (s : State) (y : ℚ) (n : Word), s.det.inPulse = true → y > 0 →
      detect y n s = .ok { s with det := { s.det with zRun := 0#32, pPeak := max s.det.pPeak y } }) ∧
    (∀ (s : State) (y : ℚ) (n z : Word), s.det.inPulse = true → ¬ y > 0 →
      z = (if s.det.zRun = 0#32 then n else s.det.zStart) → s.det.zRun.toNat + 1 < s.cfg.zeroCount.toNat →
      detect y n s = .ok { s with det := { s.det with zStart := z, zRun := s.det.zRun + 1 } }) ∧
    (∀ (s : State) (y : ℚ) (n z : Word), s.det.inPulse = true → ¬ y > 0 →
      z = (if s.det.zRun = 0#32 then n else s.det.zStart) → s.cfg.zeroCount.toNat ≤ s.det.zRun.toNat + 1 →
      detect y n s =
        if s.det.pPeak > (s.cfg.floor.toNat : ℚ) / 65536 then
          classify (z - s.det.pStart) (s.det.pStart.setWidth 33 + z.setWidth 33)
            { s with
              det := { s.det with inPulse := false, zRun := 0#32, zStart := z }
              output := s.output ++ [.pulse s.det.pStart z s.det.pPeak true] }
        else
          .ok { s with
            det := { s.det with inPulse := false, zRun := 0#32, zStart := z }
            output := s.output ++ [.pulse s.det.pStart z s.det.pPeak false] })

/-- The laws of R317 for a PULSE of a step: its width is at least 1, it ends at or before the sample in hand, its peak
lies in (0, 1], it is accepted exactly above the floor (R315), and afterwards no pulse is open. -/
def Obligations.PulseLaws : Prop :=
  ∀ (s t : State) (d start stop : Word) (peak : ℚ) (acc : Bool), Inv s → exec (.sample d) s = .next t →
    .pulse start stop peak acc ∈ newEvents s t →
    start < stop ∧ stop ≤ s.n ∧ 0 < peak ∧ peak ≤ 1 ∧
      (acc = true ↔ peak > (s.cfg.floor.toNat : ℚ) / 65536) ∧ t.det.inPulse = false

/-- R315: when a SAMPLE completes no accepted pulse, nothing after the detector changes. -/
def Obligations.NoAcceptedPulseNoChange : Prop :=
  ∀ (s t : State) (d : Word), exec (.sample d) s = .next t →
    (∀ start stop peak, .pulse start stop peak true ∉ newEvents s t) →
    t.prevC2 = s.prevC2 ∧ t.asm = s.asm ∧ t.blk = s.blk ∧ t.pbuf = s.pbuf ∧ t.blockCount = s.blockCount ∧
      t.faultCount = s.faultCount

/-! The classifier and the assembler -/

/-- R350: the tone of an accepted pulse and the update of PREV_C2, for every HIGH_TIMING; with the default HIGH_TIMING
the timing rule never fires (R352). -/
def Obligations.ClassifyByWidth : Prop :=
  (∀ (s : State) (w : Word) (c2 : Time), s.cfg.thrLow ≤ w →
      classify w c2 s = assemble .low w c2 { s with prevC2 := some c2 }) ∧
    (∀ (s : State) (w : Word) (c2 : Time), w < s.cfg.thrLow →
      (s.cfg.thrHigh ≤ w ∨ (s.cfg.ctrl.getLsbD 3 = true ∧ highTiming s.par s.prevC2 c2 w = true)) →
      classify w c2 s = assemble .high w c2 { s with prevC2 := some c2 }) ∧
    (∀ (s : State) (w : Word) (c2 : Time), w < s.cfg.thrLow → w < s.cfg.thrHigh →
      ¬ (s.cfg.ctrl.getLsbD 3 = true ∧ highTiming s.par s.prevC2 c2 w = true) →
      classify w c2 s = assemble .none w c2 { s with prevC2 := some c2 }) ∧
    (∀ (prev : Option Time) (c2 : Time) (w : Word), highTiming Config.params prev c2 w = false)

/-- R355: every cell of `assemble` (R360 to R385) and `pushBit` (R372, R373). What `raise` does is in
AssemblerFaultsTaken. -/
def Obligations.AssemblerCells : Prop :=
  ∀ (s : State) (w : Word) (c2 : Time),
    (s.asm.asm = .waiting → assemble .low w c2 s = .ok s ∧
      assemble .high w c2 s = .ok { s with asm := { s.asm with asm := .ready } }) ∧
    (s.asm.asm = .ready → assemble .low w c2 s = .ok { s with asm := ⟨.data, 0#8, 0#4, 0#2⟩ } ∧
      assemble .high w c2 s = .ok s) ∧
    (s.asm.asm = .data → s.asm.shift < 7#4 →
      assemble .low w c2 s = .ok { s with asm := ⟨.data, s.asm.acc >>> 1, s.asm.shift + 1, 0#2⟩ } ∧
      (s.asm.cycle = 0#2 → assemble .high w c2 s = .ok { s with asm := { s.asm with cycle := 1#2 } }) ∧
      (s.asm.cycle = 1#2 →
        assemble .high w c2 s = .ok { s with asm := ⟨.data, (s.asm.acc >>> 1) ||| 0x80#8, s.asm.shift + 1, 0#2⟩ })) ∧
    (s.asm.asm = .after →
      (s.asm.cycle = 0#2 → assemble .high w c2 s = .ok { s with asm := { s.asm with cycle := 1#2 } }) ∧
      (s.asm.cycle = 1#2 → assemble .high w c2 s = .ok { s with asm := { s.asm with asm := .ready, cycle := 0#2 } })) ∧
    (s.asm.asm = .data → s.asm.shift = 7#4 →
      assemble .low w c2 s = frame (s.asm.acc >>> 1) c2
        { s with asm := ⟨.after, s.asm.acc >>> 1, 0#4, 0#2⟩, output := s.output ++ [.byte (s.asm.acc >>> 1) c2] } ∧
      (s.asm.cycle = 0#2 → assemble .high w c2 s = .ok { s with asm := { s.asm with cycle := 1#2 } }) ∧
      (s.asm.cycle = 1#2 → assemble .high w c2 s = frame ((s.asm.acc >>> 1) ||| 0x80#8) c2
        { s with
          asm := ⟨.after, (s.asm.acc >>> 1) ||| 0x80#8, 0#4, 0#2⟩
          output := s.output ++ [.byte ((s.asm.acc >>> 1) ||| 0x80#8) c2] })) ∧
    (s.asm.asm = .after → assemble .low w c2 s = .ok (raiseFault .framingFault c2 s)) ∧
    assemble .none w c2 s = .ok (raiseFault (.invalidPulse w) c2 s)

/-- The round-trip law of R390 for one byte: from Ready, the pulses of a byte emit that byte, at the time of the pulse
that completes its eighth bit, and nothing else but at most one framer event, and lead back to Ready. -/
def Obligations.ByteRoundTrip : Prop :=
  ∀ (s : State) (b : Byte) (ps : List (Word × Time)), s.asm.asm = .ready → s.blk.ok s.par.crc →
    List.Forall₂ (fun tone p => toneFits s.cfg tone p.1) (byteTones b) ps →
    ∃ t c2 r, classifyAll ps s = .ok t ∧ (ps.map Prod.snd)[ps.length - 3]? = some c2 ∧
      t.asm = ⟨.ready, b, 0#4, 0#2⟩ ∧ atMostOne isFramerEvent r ∧ t.output = s.output ++ .byte b c2 :: r

/-! Taking a fault -/

/-- R601 and R602: taking InvalidPulse, from any assembler state, and FramingFault. After FramingFault the framer's
registers hold their reset values, which R701 writes out. -/
def Obligations.AssemblerFaultsTaken : Prop :=
  (∀ (s : State) (w : Word) (c2 : Time), w < s.cfg.thrLow → w < s.cfg.thrHigh →
      ¬ (s.cfg.ctrl.getLsbD 3 = true ∧ highTiming s.par s.prevC2 c2 w = true) →
      classify w c2 s = .ok { s with
        prevC2 := some c2
        output := s.output ++ [.fault (.invalidPulse w) c2]
        faultCount := s.faultCount + 1
        asm := ⟨.waiting, 0#8, 0#4, 0#2⟩ } ∧
      (FaultKind.invalidPulse w).code = 1#4) ∧
    ∀ (s : State) (w : Word) (c2 : Time), s.cfg.thrLow ≤ w → s.asm.asm = .after →
      classify w c2 s = .ok { s with
        prevC2 := some c2
        output := s.output ++ [.fault .framingFault c2]
        faultCount := s.faultCount + 1
        asm := ⟨.waiting, 0#8, 0#4, 0#2⟩
        blk := .reset s.par.crc } ∧
      FaultKind.framingFault.code = 2#4

/-- R435 and R603: the payload length, and taking BlockLengthFault at its second byte. -/
def Obligations.LengthFieldChecked : Prop :=
  (∀ (s : State) (b : Byte) (c2 : Time), s.blk.fr = .len → s.blk.frCnt = 0#9 →
      frame b c2 s = .ok { s with blk := { s.blk with
        len := s.blk.len ||| b.setWidth 16, frCnt := 1#9, hcrc := crcUpdate s.par.crc s.blk.hcrc b } }) ∧
    (∀ (s : State) (b : Byte) (c2 : Time) (l : Half), s.blk.fr = .len → s.blk.frCnt = 1#9 →
      l = s.blk.len ||| (b.setWidth 16 <<< 8) → l.toNat ≤ 256 →
      frame b c2 s = .ok { s with blk := { s.blk with
        len := l, fr := .flag, frCnt := 0#9, hcrc := crcUpdate s.par.crc s.blk.hcrc b } }) ∧
    (∀ (s : State) (b : Byte) (c2 : Time) (l : Half), s.blk.fr = .len → s.blk.frCnt = 1#9 →
      l = s.blk.len ||| (b.setWidth 16 <<< 8) → 256 < l.toNat →
      frame b c2 s = .ok { s with
        output := s.output ++ [.fault (.blockLengthFault l) c2]
        faultCount := s.faultCount + 1
        blk := .reset s.par.crc }) ∧
    ∀ l : Half, (FaultKind.blockLengthFault l).code = 3#4

/-- R441, R446 and R604: the header CRC trailer in both byte orders, and taking HeaderCRCFault at its second byte. -/
def Obligations.HeaderCrcChecked : Prop :=
  (∀ (s : State) (b : Byte) (c2 : Time), s.blk.fr = .hcrc → s.blk.frCnt = 0#9 →
      frame b c2 s = .ok { s with blk := { s.blk with
        hcrcRx := s.blk.hcrcRx ||| (b.setWidth 16 <<< if s.cfg.ctrl.getLsbD 9 then 8 else 0), frCnt := 1#9 } }) ∧
    (∀ (s : State) (b : Byte) (c2 : Time) (r : Half), s.blk.fr = .hcrc → s.blk.frCnt = 1#9 →
      r = s.blk.hcrcRx ||| (b.setWidth 16 <<< if s.cfg.ctrl.getLsbD 9 then 0 else 8) →
      r = crcFinish s.par.crc s.blk.hcrc →
      frame b c2 s = .ok { s with blk := { s.blk with
        hcrcRx := r, fr := if s.blk.len.toNat > 0 then .data else .pcrc, frCnt := 0#9 } }) ∧
    (∀ (s : State) (b : Byte) (c2 : Time) (r : Half), s.blk.fr = .hcrc → s.blk.frCnt = 1#9 →
      r = s.blk.hcrcRx ||| (b.setWidth 16 <<< if s.cfg.ctrl.getLsbD 9 then 0 else 8) →
      r ≠ crcFinish s.par.crc s.blk.hcrc →
      frame b c2 s = .ok { s with
        output := s.output ++ [.fault (.headerCrcFault r (crcFinish s.par.crc s.blk.hcrc)) c2]
        faultCount := s.faultCount + 1
        blk := .reset s.par.crc }) ∧
    ∀ r c : Half, (FaultKind.headerCrcFault r c).code = 4#4

/-- R445, R605 and R447: the payload CRC trailer, taking PayloadCRCFault at its second byte, and the BLOCK event. -/
def Obligations.PayloadCrcChecked : Prop :=
  (∀ (s : State) (b : Byte) (c2 : Time), s.blk.fr = .pcrc → s.blk.frCnt = 0#9 →
      frame b c2 s = .ok { s with blk := { s.blk with
        pcrcRx := s.blk.pcrcRx ||| (b.setWidth 16 <<< if s.cfg.ctrl.getLsbD 9 then 8 else 0), frCnt := 1#9 } }) ∧
    (∀ (s : State) (b : Byte) (c2 : Time) (r : Half), s.blk.fr = .pcrc → s.blk.frCnt = 1#9 →
      r = s.blk.pcrcRx ||| (b.setWidth 16 <<< if s.cfg.ctrl.getLsbD 9 then 0 else 8) →
      r ≠ crcFinish s.par.crc s.blk.pcrc →
      frame b c2 s = .ok { s with
        output := s.output ++ [.fault (.payloadCrcFault r (crcFinish s.par.crc s.blk.pcrc)) c2]
        faultCount := s.faultCount + 1
        blk := .reset s.par.crc }) ∧
    (∀ (s : State) (b : Byte) (c2 : Time) (r : Half), s.blk.fr = .pcrc → s.blk.frCnt = 1#9 →
      r = s.blk.pcrcRx ||| (b.setWidth 16 <<< if s.cfg.ctrl.getLsbD 9 then 0 else 8) →
      r = crcFinish s.par.crc s.blk.pcrc → s.blk.len.toNat ≤ 256 →
      ∃ payload : List Byte, payload.length = s.blk.len.toNat ∧
        (∀ i, i < s.blk.len.toNat → memRead s.pbuf i = payload[i]?) ∧
        frame b c2 s = .ok { s with
          output := s.output ++ [.block {
            name := s.blk.name, load := s.blk.load, exec := s.blk.exec, seq := s.blk.seq, length := s.blk.len
            flag := s.blk.flag, next := s.blk.next, hcrc := s.blk.hcrcRx, payload := payload, pcrc := r
            time := s.blk.blkTime }]
          blockCount := s.blockCount + 1
          blk := .reset s.par.crc }) ∧
    ∀ r c : Half, (FaultKind.payloadCrcFault r c).code = 5#4

/-! The framer -/

/-- R422: HUNT drops every byte but 0x2A, which starts a block at its own time. -/
def Obligations.HuntForSync : Prop :=
  (∀ (s : State) (b : Byte) (c2 : Time), s.blk.fr = .hunt → b ≠ 0x2A#8 → frame b c2 s = .ok s) ∧
    (∀ (s : State) (c2 : Time), s.blk.fr = .hunt →
      frame 0x2A#8 c2 s = .ok { s with blk := { Framer.reset s.par.crc with
        fr := .name
        blkTime := c2
        hcrc := if s.cfg.ctrl.getLsbD 8 then crcUpdate s.par.crc s.par.crc.init 0x2A#8 else s.par.crc.init } })

/-- R430 and R431: the name field and its end. -/
def Obligations.NameField : Prop :=
  (∀ (s : State) (c2 : Time), s.blk.fr = .name →
      frame 0x00#8 c2 s = .ok { s with blk := { s.blk with
        fr := .load, frCnt := 0#9, hcrc := crcUpdate s.par.crc s.blk.hcrc 0x00#8 } }) ∧
    (∀ (s : State) (b : Byte) (c2 : Time), s.blk.fr = .name → b ≠ 0x00#8 → s.blk.name.length + 1 ≠ 10 →
      frame b c2 s = .ok { s with blk := { s.blk with
        name := s.blk.name ++ [b], hcrc := crcUpdate s.par.crc s.blk.hcrc b } }) ∧
    (∀ (s : State) (b : Byte) (c2 : Time), s.blk.fr = .name → b ≠ 0x00#8 → s.blk.name.length + 1 = 10 →
      frame b c2 s = .ok { s with blk := { s.blk with
        name := s.blk.name ++ [b], fr := if s.cfg.ctrl.getLsbD 10 then .nameTerm else .load, frCnt := 0#9
        hcrc := crcUpdate s.par.crc s.blk.hcrc b } }) ∧
    (∀ (s : State) (b : Byte) (c2 : Time), s.blk.fr = .nameTerm →
      frame b c2 s = .ok { s with blk := { s.blk with
        fr := .load, frCnt := 0#9, hcrc := crcUpdate s.par.crc s.blk.hcrc b } })

/-- R103 with R432 to R437 (a length above 256 is LengthFieldChecked's): a header field of k bytes b0 … b(k−1) holds
Σ b_i · 2^(8i), the next state follows, every byte enters the header CRC (R440), and nothing else changes. -/
def Obligations.HeaderFieldsLittleEndian : Prop :=
  (∀ (s : State) (b0 b1 b2 b3 : Byte) (c0 c1 c2 c3 : Time), s.blk.fr = .load → s.blk.frCnt = 0#9 → s.blk.load = 0#32 →
      ∃ v : Word, v.toNat = b0.toNat + 2 ^ 8 * b1.toNat + 2 ^ 16 * b2.toNat + 2 ^ 24 * b3.toNat ∧
        frameAll [(b0, c0), (b1, c1), (b2, c2), (b3, c3)] s = .ok { s with blk := { s.blk with
          load := v, fr := .exec, hcrc := crcFold s.par.crc s.blk.hcrc [b0, b1, b2, b3] } }) ∧
    (∀ (s : State) (b0 b1 b2 b3 : Byte) (c0 c1 c2 c3 : Time), s.blk.fr = .exec → s.blk.frCnt = 0#9 → s.blk.exec = 0#32 →
      ∃ v : Word, v.toNat = b0.toNat + 2 ^ 8 * b1.toNat + 2 ^ 16 * b2.toNat + 2 ^ 24 * b3.toNat ∧
        frameAll [(b0, c0), (b1, c1), (b2, c2), (b3, c3)] s = .ok { s with blk := { s.blk with
          exec := v, fr := .seq, hcrc := crcFold s.par.crc s.blk.hcrc [b0, b1, b2, b3] } }) ∧
    (∀ (s : State) (b0 b1 : Byte) (c0 c1 : Time), s.blk.fr = .seq → s.blk.frCnt = 0#9 → s.blk.seq = 0#16 →
      ∃ v : Half, v.toNat = b0.toNat + 2 ^ 8 * b1.toNat ∧
        frameAll [(b0, c0), (b1, c1)] s = .ok { s with blk := { s.blk with
          seq := v, fr := .len, hcrc := crcFold s.par.crc s.blk.hcrc [b0, b1] } }) ∧
    (∀ (s : State) (b0 b1 : Byte) (c0 c1 : Time), s.blk.fr = .len → s.blk.frCnt = 0#9 → s.blk.len = 0#16 →
      b0.toNat + 2 ^ 8 * b1.toNat ≤ 256 →
      ∃ v : Half, v.toNat = b0.toNat + 2 ^ 8 * b1.toNat ∧
        frameAll [(b0, c0), (b1, c1)] s = .ok { s with blk := { s.blk with
          len := v, fr := .flag, hcrc := crcFold s.par.crc s.blk.hcrc [b0, b1] } }) ∧
    (∀ (s : State) (b : Byte) (c2 : Time), s.blk.fr = .flag →
      frame b c2 s = .ok { s with blk := { s.blk with
        flag := b, fr := .next, frCnt := 0#9, hcrc := crcUpdate s.par.crc s.blk.hcrc b } }) ∧
    (∀ (s : State) (b0 b1 b2 b3 : Byte) (c0 c1 c2 c3 : Time), s.blk.fr = .next → s.blk.frCnt = 0#9 → s.blk.next = 0#32 →
      ∃ v : Word, v.toNat = b0.toNat + 2 ^ 8 * b1.toNat + 2 ^ 16 * b2.toNat + 2 ^ 24 * b3.toNat ∧
        frameAll [(b0, c0), (b1, c1), (b2, c2), (b3, c3)] s = .ok { s with blk := { s.blk with
          next := v, fr := .hcrc, hcrc := crcFold s.par.crc s.blk.hcrc [b0, b1, b2, b3] } })

/-- R444: a payload byte goes to PBUF at FR_CNT and into the payload CRC; every other byte of PBUF is unchanged. -/
def Obligations.PayloadByteStored : Prop :=
  ∀ (s : State) (b : Byte) (c2 : Time), Memory.wf s.pbuf = true → s.blk.fr = .data →
    s.blk.frCnt.toNat < s.blk.len.toNat → s.blk.len.toNat ≤ 256 →
    ∃ m : Memory, memRead m s.blk.frCnt.toNat = some b ∧
      (∀ a, a ≠ s.blk.frCnt.toNat → memRead m a = memRead s.pbuf a) ∧
      frame b c2 s = .ok { s with
        pbuf := m
        blk := { s.blk with
          pcrc := crcUpdate s.par.crc s.blk.pcrc b
          fr := if s.blk.frCnt.toNat + 1 = s.blk.len.toNat then .pcrc else .data
          frCnt := if s.blk.frCnt.toNat + 1 = s.blk.len.toNat then 0#9 else s.blk.frCnt + 1 } }

/-- The round trip of R456: in HUNT the wire bytes of a valid block (R455) yield exactly that block, with the time of its
sync byte, for every CRC16 and every setting of CTRL. -/
def Obligations.BlockRoundTrip : Prop :=
  ∀ (s : State) (b : Block) (c2 : Time) (times : List Time), s.blk.fr = .hunt → Memory.wf s.pbuf = true →
    b.valid s.par.crc s.cfg → times.length + 1 = (serialise s.cfg b).length →
    ∃ t, frameAll ((serialise s.cfg b).zip (c2 :: times)) s = .ok t ∧
      t.output = s.output ++ [.block { b with time := c2 }] ∧ t.blk = .reset s.par.crc ∧
      t.blockCount = s.blockCount + 1 ∧ t.faultCount = s.faultCount

/-- The invariants of R456: a BLOCK that the framer emits has at most 256 payload bytes, the CRC of its header and the
CRC of its payload, and its fields are the bytes that came in since its sync byte. -/
def Obligations.EmittedBlockIsValid : Prop :=
  ∀ (s u t : State) (c2 c2' : Time) (bs : List (Byte × Time)) (last : Byte) (b : Block),
    s.blk.fr = .hunt → Memory.wf s.pbuf = true →
    frameAll ((0x2A#8, c2) :: bs) s = .ok u → u.output = s.output → frame last c2' u = .ok t →
    t.output = s.output ++ [.block b] →
    b.time = c2 ∧ b.length.toNat ≤ 256 ∧ b.payload.length = b.length.toNat ∧ b.pcrc = crcOf s.par.crc b.payload ∧
      ∃ te header : List Byte, nameEnd (s.cfg.ctrl.getLsbD 10) b.name te ∧
        header = b.name ++ te ++ leBytes b.load 4 ++ leBytes b.exec 4 ++ leBytes b.seq 2 ++ leBytes b.length 2
          ++ [b.flag] ++ leBytes b.next 4 ∧
        b.hcrc = crcOf s.par.crc ((if s.cfg.ctrl.getLsbD 8 then [0x2A#8] else []) ++ header) ∧
        bs.map Prod.fst ++ [last] =
          header ++ crcBytes (s.cfg.ctrl.getLsbD 9) b.hcrc ++ b.payload ++ crcBytes (s.cfg.ctrl.getLsbD 9) b.pcrc

/-- One payload byte of a valid block changed: the framer raises exactly PayloadCRCFault and emits no BLOCK, for every
CRC16 whose polynomial has a non-zero x^0 term (R605, R426). -/
def Obligations.CorruptPayloadCaught : Prop :=
  ∀ (s : State) (b : Block) (k : Nat) (v : Byte) (c2 : Time) (times : List Time), s.blk.fr = .hunt →
    Memory.wf s.pbuf = true → s.par.crc.poly.getLsbD 0 = true → b.valid s.par.crc s.cfg → k < b.payload.length →
    b.payload[k]? ≠ some v → times.length + 1 = (serialise s.cfg b).length →
    ∃ t, frameAll ((serialise s.cfg { b with payload := b.payload.set k v }).zip (c2 :: times)) s = .ok t ∧
      t.output = s.output ++ [.fault (.payloadCrcFault b.pcrc (crcOf s.par.crc (b.payload.set k v)))
        ((c2 :: times).getLastD c2)] ∧
      t.blk = .reset s.par.crc ∧ t.blockCount = s.blockCount ∧ t.faultCount = s.faultCount + 1

/-- A change of one byte of the input changes the CRC, for every CRC16 whose polynomial has a non-zero x^0 term (the
condition R426's note gives). -/
def Obligations.CrcSeesByteChange : Prop :=
  ∀ (p : Crc16) (front back : List Byte) (b b' : Byte), p.poly.getLsbD 0 = true → b ≠ b' →
    crcOf p (front ++ b :: back) ≠ crcOf p (front ++ b' :: back)

/-! Rules about every step -/

/-- R620: the events of one command and their order. -/
def Obligations.EventOrder : Prop :=
  (∀ (s t : State) (d : Word), exec (.sample d) s = .next t →
      (∃ es fin, pipelineOrder es ∧ atMostOne isExhausted fin ∧ t.output = s.output ++ es ++ fin) ∨
        (∃ r, t.output = s.output ++ [.reject r 0x1#4])) ∧
    (∀ (s t : State) (d : Word), exec (.sample d) s = .next t → .exhausted .stopIndex ∈ newEvents s t →
      newEvents s t = [.exhausted .stopIndex]) ∧
    (∀ (i : Instr) (s t : State), (∀ d, i ≠ .sample d) → exec i s = .next t →
      t.output = s.output ∨ (∃ r, t.output = s.output ++ [.reject r i.opcode]) ∨
        (i = .endStream ∧ t.output = s.output ++ [.exhausted .endCommand]) ∨
        (∃ a v, i = .cfgRead a ∧ t.output = s.output ++ [.cfgData a v]))

/-- R621: a step emits at most one FAULT; and R724: at most four events. -/
def Obligations.AtMostOneFaultPerStep : Prop :=
  ∀ s t : State, step s = .next t →
    s.output <+: t.output ∧ (newEvents s t).countP isFault ≤ 1 ∧ (newEvents s t).length ≤ 4

/-- R202: a REJECT comes alone, and the command that gets it changes no state. -/
def Obligations.RejectComesAlone : Prop :=
  ∀ (s t : State) (r : Reason) (op : BitVec 4), step s = .next t → .reject r op ∈ newEvents s t →
    t = { s with input := s.input.tail, output := s.output ++ [.reject r op] }

/-- R35: BLOCK_COUNT counts BLOCK events and FAULT_COUNT counts FAULT events of every code, modulo 2^32, from 0. -/
def Obligations.CountersCountEvents : Prop :=
  (∀ (i : Instr) (s t : State), i ≠ .sessionReset → exec i s = .next t →
      t.blockCount = s.blockCount + BitVec.ofNat 32 ((newEvents s t).countP isBlock) ∧
        t.faultCount = s.faultCount + BitVec.ofNat 32 ((newEvents s t).countP isFault)) ∧
    (∀ s : State, ∃ t, exec .sessionReset s = .next t ∧ t.blockCount = 0#32 ∧ t.faultCount = 0#32) ∧
    State.reset.blockCount = 0#32 ∧ State.reset.faultCount = 0#32

/-- R33 and R606: a session ends exactly when EXHAUSTED is emitted, ACTIVE comes only from SAMPLE, and IDLE only from a
reset. -/
def Obligations.SessionTransitions : Prop :=
  ∀ (i : Instr) (s t : State), exec i s = .next t →
    ((s.session ≠ .done ∧ t.session = .done) ↔ ∃ c, .exhausted c ∈ newEvents s t) ∧
      (s.session ≠ .active → t.session = .active → ∃ d, i = .sample d) ∧
      (s.session ≠ .idle → t.session = .idle → i = .sessionReset)

/-- The invariant holds at reset, for every parameter set whose CFG_RESET holds legal register values. That it asks this
of CFG_RESET is the model's choice: log entry 19. -/
def Obligations.InvariantAtReset : Prop :=
  Inv State.reset ∧ ∀ p : Params, p.cfgReset.legal = true → Inv (State.init p)

/-- Every step keeps the invariant: legal registers, PBUF in canonical form, the filter voltages in [−1, 1] (R47), the
laws of R390 for the assembler, FR_CNT inside its field (R55), the spike window (R264), the detector (R48) and the
centres of the pulses (R317). That the invariant asks a legal CFG_RESET, which a hardware reset loads unchecked, is the
model's choice: log entry 19. What PBUF holds in IDLE, which log entry 1 settles, is no part of the invariant. -/
def Obligations.StepKeepsInvariant : Prop :=
  ∀ s t : State, Inv s → step s = .next t → Inv t

/-- Under the invariant no step stops in a fault, and only a refused state refuses. The faults it rules out are the
model's marks of states the spec says are never reached (log entry 11), and the legal CFG_RESET that the invariant asks
is the model's choice (log entry 19). -/
def Obligations.InvariantRulesOutStops : Prop :=
  ∀ s : State, Inv s → s.refused = none → ∃ t, step s = .next t

/-- The running payload CRC is the CRC of the written bytes of PBUF: it holds at reset and every step keeps it (R444). -/
def Obligations.PayloadInvariantKept : Prop :=
  PayloadInv State.reset ∧ ∀ s t : State, PayloadInv s → step s = .next t → PayloadInv t

/-- Every BLOCK a step emits has a payload of its declared length, at most 256, whose CRC is its pcrc (R456). -/
def Obligations.BlockEventPayloadChecked : Prop :=
  ∀ (s t : State) (b : Block), PayloadInv s → step s = .next t → .block b ∈ newEvents s t →
    b.payload.length = b.length.toNat ∧ b.length.toNat ≤ 256 ∧ b.pcrc = crcOf s.par.crc b.payload

/-- The bytes of PBUF that the block in progress has not written are never observed: two states that differ in them
alone take steps with the same events to states that differ in such bytes alone (R56, R448). -/
def Obligations.UnwrittenPayloadUnobserved : Prop :=
  ∀ s t : State, SameButUnwritten s t → SameOutcome (step s) (step t)

/-- The times of BYTE and FAULT events strictly increase (R456): each is the centre of the pulse just classified, which
lies after every centre classified before; and a BLOCK has the time of its own sync byte, which came before. -/
def Obligations.EventTimesIncrease : Prop :=
  ∀ (s t : State) (d : Word) (e : Event), Inv s → exec (.sample d) s = .next t → e ∈ newEvents s t →
    (isByte e = true ∨ isFault e = true →
      ∃ c, eventTime e = some c ∧ t.prevC2 = some c ∧ ∀ c', s.prevC2 = some c' → c' < c) ∧
    (∀ b, e = .block b → b.time = s.blk.blkTime ∧ ∃ c', s.prevC2 = some c' ∧ b.time ≤ c')
end

