-- ==== Sys2Proof/Laws/Decode.lean ====
section
/-! SUPPORT. The fields of a packed word, and a word from its fields (R130, R133). -/

namespace Sys2Proof

theorem opField_packWord (op addr : BitVec 4) (data : Word) : opField (packWord op addr data) = op := by
  ext i hi
  simp only [opField, packWord, BitVec.getElem_extractLsb', BitVec.getLsbD_append]
  rw [if_neg (by omega), if_neg (by omega), if_neg (by omega), BitVec.getLsbD_eq_getElem (by omega)]
  simp only [show 44 + i - 32 - 8 - 4 = i by omega]

theorem addrField_packWord (op addr : BitVec 4) (data : Word) : addrField (packWord op addr data) = addr := by
  ext i hi
  simp only [addrField, packWord, BitVec.getElem_extractLsb', BitVec.getLsbD_append]
  rw [if_neg (by omega), if_neg (by omega), if_pos (by omega), BitVec.getLsbD_eq_getElem (by omega)]
  simp only [show 40 + i - 32 - 8 = i by omega]

theorem rsvdField_packWord (op addr : BitVec 4) (data : Word) : rsvdField (packWord op addr data) = 0#8 := by
  ext i hi
  simp only [rsvdField, packWord, BitVec.getElem_extractLsb', BitVec.getLsbD_append]
  rw [if_neg (by omega), if_pos (by omega)]
  simp

theorem dataField_packWord (op addr : BitVec 4) (data : Word) : dataField (packWord op addr data) = data := by
  ext i hi
  simp only [dataField, packWord, BitVec.getElem_extractLsb', BitVec.getLsbD_append]
  rw [if_pos (by omega), BitVec.getLsbD_eq_getElem (by omega)]
  simp only [Nat.zero_add]

/-- A word with RSVD = 0 is packed from its other fields. -/
theorem packWord_fields {w : CmdWord} (h : rsvdField w = 0#8) : packWord (opField w) (addrField w) (dataField w) = w := by
  ext i hi
  simp only [packWord, opField, addrField, dataField]
  rw [← BitVec.getLsbD_eq_getElem hi]
  simp only [BitVec.getLsbD_append, BitVec.getLsbD_extractLsb']
  split_ifs with h1 h2 h3
  · simp [h1, BitVec.getLsbD_eq_getElem hi]
  · have hb : (rsvdField w).getLsbD (i - 32) = w.getLsbD i := by
      simp only [rsvdField, BitVec.getLsbD_extractLsb', show 32 + (i - 32) = i by omega, h2, decide_true, Bool.true_and]
    rw [h] at hb
    rw [← BitVec.getLsbD_eq_getElem hi, ← hb]
  · rw [show 40 + (i - 32 - 8) = i by omega, ← BitVec.getLsbD_eq_getElem hi]; simp [h3]
  · rw [show 44 + (i - 32 - 8 - 4) = i by omega, ← BitVec.getLsbD_eq_getElem hi]
    simp [show i - 32 - 8 - 4 < 4 by omega]

end Sys2Proof
end

