-- ==== Sys2Proof/Laws/Memory.lean ====
section
/-! SUPPORT. The laws of PBUF: every operation keeps the canonical form, a read after a write gives the byte written, and
a write leaves every other byte alone. -/

namespace Sys2Proof.Machine

theorem Memory.wfFrom_mono {lo lo' : Nat} (h : lo' ≤ lo) :
    ∀ {m : Memory}, Memory.wfFrom lo m = true → Memory.wfFrom lo' m = true
  | [], _ => rfl
  | c :: m, hm => by
    simp only [Memory.wfFrom, Bool.and_eq_true, decide_eq_true_eq] at hm ⊢
    exact ⟨⟨⟨le_trans h hm.1.1.1, hm.1.1.2⟩, hm.1.2⟩, hm.2⟩

/-- An address below every listed one reads as unlisted. -/
theorem Memory.lookup_below {lo a : Nat} (h : a < lo) :
    ∀ {m : Memory}, Memory.wfFrom lo m = true → Memory.lookup m a = Config.pbufUnlisted
  | [], _ => rfl
  | c :: m, hm => by
    simp only [Memory.wfFrom, Bool.and_eq_true, decide_eq_true_eq] at hm
    have hne : c.1 ≠ a := by omega
    rw [Memory.lookup, if_neg hne]
    exact Memory.lookup_below (lo := c.1 + 1) (by omega) hm.2

theorem Memory.wfFrom_set {a : Nat} (v : Byte) (ha : a < pbufSize) :
    ∀ {lo : Nat} {m : Memory}, lo ≤ a → Memory.wfFrom lo m = true → Memory.wfFrom lo (Memory.set m a v) = true
  | lo, [], hlo, _ => by
    unfold Memory.set
    split
    · rfl
    · simp_all [Memory.wfFrom]
  | lo, c :: m, hlo, hm => by
    have hm' := hm
    simp only [Memory.wfFrom, Bool.and_eq_true, decide_eq_true_eq] at hm
    unfold Memory.set
    split
    · rename_i hlt
      split
      · exact hm'
      · rename_i hv
        simp only [Memory.wfFrom, Bool.and_eq_true, decide_eq_true_eq, bne_iff_ne, ne_eq]
        exact ⟨⟨⟨hlo, ha⟩, hv⟩, ⟨⟨⟨hlt, hm.1.1.2⟩, by simpa using hm.1.2⟩, hm.2⟩⟩
    · rename_i hge
      split
      · rename_i heq
        split
        · exact Memory.wfFrom_mono (by omega) hm.2
        · rename_i hv
          simp only [Memory.wfFrom, Bool.and_eq_true, decide_eq_true_eq, bne_iff_ne, ne_eq]
          exact ⟨⟨⟨hlo, ha⟩, hv⟩, by rw [heq]; exact hm.2⟩
      · rename_i hne
        simp only [Memory.wfFrom, Bool.and_eq_true, decide_eq_true_eq]
        exact ⟨⟨⟨hm.1.1.1, hm.1.1.2⟩, hm.1.2⟩, Memory.wfFrom_set v ha (by omega) hm.2⟩

/-- Setting a byte of PBUF keeps the canonical form. -/
theorem Memory.wf_set {m : Memory} {a : Nat} (v : Byte) (ha : a < pbufSize) (hm : Memory.wf m = true) :
    Memory.wf (Memory.set m a v) = true := Memory.wfFrom_set v ha (Nat.zero_le a) hm

theorem Memory.lookup_set_from (v : Byte) (a b : Nat) :
    ∀ {lo : Nat} {m : Memory}, Memory.wfFrom lo m = true →
      Memory.lookup (Memory.set m a v) b = if b = a then v else Memory.lookup m b
  | lo, [], _ => by
    unfold Memory.set
    by_cases hv : v = Config.pbufUnlisted <;> by_cases hb : b = a <;> simp [Memory.lookup, hv, hb, eq_comm]
    intro h; exact absurd h.symm hb
  | lo, c :: m, hm => by
    have hm' := hm
    simp only [Memory.wfFrom, Bool.and_eq_true, decide_eq_true_eq] at hm
    unfold Memory.set
    split
    · rename_i hlt
      have hbelow : Memory.lookup (c :: m) a = Config.pbufUnlisted := by
        rw [Memory.lookup, if_neg (by omega)]
        exact Memory.lookup_below (lo := c.1 + 1) (by omega) hm.2
      split
      · rename_i hv
        by_cases hb : b = a
        · rw [hb, if_pos rfl, hbelow, hv]
        · rw [if_neg hb]
      · by_cases hb : b = a
        · rw [hb, if_pos rfl, Memory.lookup, if_pos rfl]
        · rw [if_neg hb, Memory.lookup, if_neg (fun h => hb h.symm)]
    · split
      · rename_i heq
        have hbelow : Memory.lookup m a = Config.pbufUnlisted :=
          Memory.lookup_below (lo := c.1 + 1) (by omega) hm.2
        split
        · rename_i hv
          by_cases hb : b = a
          · rw [hb, if_pos rfl, hbelow, hv]
          · rw [if_neg hb, Memory.lookup, if_neg (by omega)]
        · by_cases hb : b = a
          · rw [hb, if_pos rfl, Memory.lookup, if_pos rfl]
          · rw [if_neg hb, Memory.lookup, Memory.lookup, if_neg (fun h => hb h.symm), if_neg (by omega)]
      · rename_i hne
        rw [Memory.lookup, Memory.lookup]
        by_cases hc : c.1 = b
        · rw [if_pos hc, if_pos hc, if_neg (by omega)]
        · rw [if_neg hc, if_neg hc]
          exact Memory.lookup_set_from v a b hm.2

/-- A byte after a set: the byte set at that address, the old byte elsewhere. -/
theorem Memory.lookup_set {m : Memory} (hm : Memory.wf m = true) (a b : Nat) (v : Byte) :
    Memory.lookup (Memory.set m a v) b = if b = a then v else Memory.lookup m b :=
  Memory.lookup_set_from v a b hm

@[simp] theorem Memory.wf_nil : Memory.wf [] = true := rfl
@[simp] theorem Memory.lookup_nil (a : Nat) : Memory.lookup [] a = Config.pbufUnlisted := rfl

/-- MemWrite answers exactly inside PBUF, with the byte set (R100). -/
theorem memWrite_eq_some {m m' : Memory} {a : Nat} {v : Byte} :
    memWrite m a v = some m' ↔ a < pbufSize ∧ m' = Memory.set m a v := by
  unfold memWrite
  split <;> simp_all [eq_comm]

/-- MemWrite keeps the canonical form. -/
theorem memWrite_wf {m m' : Memory} {a : Nat} {v : Byte} (hm : Memory.wf m = true) (h : memWrite m a v = some m') :
    Memory.wf m' = true := by
  obtain ⟨ha, rfl⟩ := memWrite_eq_some.mp h
  exact Memory.wf_set v ha hm

/-- MemRead after MemWrite (R100). -/
theorem memRead_memWrite {m m' : Memory} {a b : Nat} {v : Byte} (hm : Memory.wf m = true)
    (h : memWrite m a v = some m') : memRead m' b = if b = a then some v else memRead m b := by
  obtain ⟨ha, rfl⟩ := memWrite_eq_some.mp h
  unfold memRead
  rw [Memory.lookup_set hm]
  split <;> split <;> simp_all

/-- Reading the first bytes answers exactly up to the size of PBUF. -/
theorem memReadFirst_eq_some {m : Memory} {k : Nat} {bs : List Byte} :
    memReadFirst m k = some bs ↔ k ≤ pbufSize ∧ bs = (List.range k).map (Memory.lookup m) := by
  unfold memReadFirst
  split <;> simp_all [eq_comm]

end Sys2Proof.Machine
end

