-- ==== Sys2Proof/Laws/State.lean ====
section
/-! SUPPORT. One lemma per field per named update of the state, and the fields of the reset states, each true by rfl. -/

namespace Sys2Proof.Machine

/-! setFe -/

@[simp] theorem setFe_par (f : FrontEnd) (s : State) : (setFe f s).par = s.par := rfl
@[simp] theorem setFe_cfg (f : FrontEnd) (s : State) : (setFe f s).cfg = s.cfg := rfl
@[simp] theorem setFe_session (f : FrontEnd) (s : State) : (setFe f s).session = s.session := rfl
@[simp] theorem setFe_n (f : FrontEnd) (s : State) : (setFe f s).n = s.n := rfl
@[simp] theorem setFe_blockCount (f : FrontEnd) (s : State) : (setFe f s).blockCount = s.blockCount := rfl
@[simp] theorem setFe_faultCount (f : FrontEnd) (s : State) : (setFe f s).faultCount = s.faultCount := rfl
@[simp] theorem setFe_refused (f : FrontEnd) (s : State) : (setFe f s).refused = s.refused := rfl
@[simp] theorem setFe_fe (f : FrontEnd) (s : State) : (setFe f s).fe = f := rfl
@[simp] theorem setFe_det (f : FrontEnd) (s : State) : (setFe f s).det = s.det := rfl
@[simp] theorem setFe_prevC2 (f : FrontEnd) (s : State) : (setFe f s).prevC2 = s.prevC2 := rfl
@[simp] theorem setFe_asm (f : FrontEnd) (s : State) : (setFe f s).asm = s.asm := rfl
@[simp] theorem setFe_blk (f : FrontEnd) (s : State) : (setFe f s).blk = s.blk := rfl
@[simp] theorem setFe_pbuf (f : FrontEnd) (s : State) : (setFe f s).pbuf = s.pbuf := rfl
@[simp] theorem setFe_input (f : FrontEnd) (s : State) : (setFe f s).input = s.input := rfl
@[simp] theorem setFe_output (f : FrontEnd) (s : State) : (setFe f s).output = s.output := rfl
@[simp] theorem setFe_freeUse (f : FrontEnd) (s : State) : (setFe f s).freeUse = s.freeUse := rfl

/-! setDet -/

@[simp] theorem setDet_par (d : Detector) (s : State) : (setDet d s).par = s.par := rfl
@[simp] theorem setDet_cfg (d : Detector) (s : State) : (setDet d s).cfg = s.cfg := rfl
@[simp] theorem setDet_session (d : Detector) (s : State) : (setDet d s).session = s.session := rfl
@[simp] theorem setDet_n (d : Detector) (s : State) : (setDet d s).n = s.n := rfl
@[simp] theorem setDet_blockCount (d : Detector) (s : State) : (setDet d s).blockCount = s.blockCount := rfl
@[simp] theorem setDet_faultCount (d : Detector) (s : State) : (setDet d s).faultCount = s.faultCount := rfl
@[simp] theorem setDet_refused (d : Detector) (s : State) : (setDet d s).refused = s.refused := rfl
@[simp] theorem setDet_fe (d : Detector) (s : State) : (setDet d s).fe = s.fe := rfl
@[simp] theorem setDet_det (d : Detector) (s : State) : (setDet d s).det = d := rfl
@[simp] theorem setDet_prevC2 (d : Detector) (s : State) : (setDet d s).prevC2 = s.prevC2 := rfl
@[simp] theorem setDet_asm (d : Detector) (s : State) : (setDet d s).asm = s.asm := rfl
@[simp] theorem setDet_blk (d : Detector) (s : State) : (setDet d s).blk = s.blk := rfl
@[simp] theorem setDet_pbuf (d : Detector) (s : State) : (setDet d s).pbuf = s.pbuf := rfl
@[simp] theorem setDet_input (d : Detector) (s : State) : (setDet d s).input = s.input := rfl
@[simp] theorem setDet_output (d : Detector) (s : State) : (setDet d s).output = s.output := rfl
@[simp] theorem setDet_freeUse (d : Detector) (s : State) : (setDet d s).freeUse = s.freeUse := rfl

/-! setAsm -/

@[simp] theorem setAsm_par (a : BitAsm) (s : State) : (setAsm a s).par = s.par := rfl
@[simp] theorem setAsm_cfg (a : BitAsm) (s : State) : (setAsm a s).cfg = s.cfg := rfl
@[simp] theorem setAsm_session (a : BitAsm) (s : State) : (setAsm a s).session = s.session := rfl
@[simp] theorem setAsm_n (a : BitAsm) (s : State) : (setAsm a s).n = s.n := rfl
@[simp] theorem setAsm_blockCount (a : BitAsm) (s : State) : (setAsm a s).blockCount = s.blockCount := rfl
@[simp] theorem setAsm_faultCount (a : BitAsm) (s : State) : (setAsm a s).faultCount = s.faultCount := rfl
@[simp] theorem setAsm_refused (a : BitAsm) (s : State) : (setAsm a s).refused = s.refused := rfl
@[simp] theorem setAsm_fe (a : BitAsm) (s : State) : (setAsm a s).fe = s.fe := rfl
@[simp] theorem setAsm_det (a : BitAsm) (s : State) : (setAsm a s).det = s.det := rfl
@[simp] theorem setAsm_prevC2 (a : BitAsm) (s : State) : (setAsm a s).prevC2 = s.prevC2 := rfl
@[simp] theorem setAsm_asm (a : BitAsm) (s : State) : (setAsm a s).asm = a := rfl
@[simp] theorem setAsm_blk (a : BitAsm) (s : State) : (setAsm a s).blk = s.blk := rfl
@[simp] theorem setAsm_pbuf (a : BitAsm) (s : State) : (setAsm a s).pbuf = s.pbuf := rfl
@[simp] theorem setAsm_input (a : BitAsm) (s : State) : (setAsm a s).input = s.input := rfl
@[simp] theorem setAsm_output (a : BitAsm) (s : State) : (setAsm a s).output = s.output := rfl
@[simp] theorem setAsm_freeUse (a : BitAsm) (s : State) : (setAsm a s).freeUse = s.freeUse := rfl

/-! setBlk -/

@[simp] theorem setBlk_par (f : Framer) (s : State) : (setBlk f s).par = s.par := rfl
@[simp] theorem setBlk_cfg (f : Framer) (s : State) : (setBlk f s).cfg = s.cfg := rfl
@[simp] theorem setBlk_session (f : Framer) (s : State) : (setBlk f s).session = s.session := rfl
@[simp] theorem setBlk_n (f : Framer) (s : State) : (setBlk f s).n = s.n := rfl
@[simp] theorem setBlk_blockCount (f : Framer) (s : State) : (setBlk f s).blockCount = s.blockCount := rfl
@[simp] theorem setBlk_faultCount (f : Framer) (s : State) : (setBlk f s).faultCount = s.faultCount := rfl
@[simp] theorem setBlk_refused (f : Framer) (s : State) : (setBlk f s).refused = s.refused := rfl
@[simp] theorem setBlk_fe (f : Framer) (s : State) : (setBlk f s).fe = s.fe := rfl
@[simp] theorem setBlk_det (f : Framer) (s : State) : (setBlk f s).det = s.det := rfl
@[simp] theorem setBlk_prevC2 (f : Framer) (s : State) : (setBlk f s).prevC2 = s.prevC2 := rfl
@[simp] theorem setBlk_asm (f : Framer) (s : State) : (setBlk f s).asm = s.asm := rfl
@[simp] theorem setBlk_blk (f : Framer) (s : State) : (setBlk f s).blk = f := rfl
@[simp] theorem setBlk_pbuf (f : Framer) (s : State) : (setBlk f s).pbuf = s.pbuf := rfl
@[simp] theorem setBlk_input (f : Framer) (s : State) : (setBlk f s).input = s.input := rfl
@[simp] theorem setBlk_output (f : Framer) (s : State) : (setBlk f s).output = s.output := rfl
@[simp] theorem setBlk_freeUse (f : Framer) (s : State) : (setBlk f s).freeUse = s.freeUse := rfl

/-! emit -/

@[simp] theorem emit_par (e : Event) (s : State) : (emit e s).par = s.par := rfl
@[simp] theorem emit_cfg (e : Event) (s : State) : (emit e s).cfg = s.cfg := rfl
@[simp] theorem emit_session (e : Event) (s : State) : (emit e s).session = s.session := rfl
@[simp] theorem emit_n (e : Event) (s : State) : (emit e s).n = s.n := rfl
@[simp] theorem emit_blockCount (e : Event) (s : State) : (emit e s).blockCount = s.blockCount := rfl
@[simp] theorem emit_faultCount (e : Event) (s : State) : (emit e s).faultCount = s.faultCount := rfl
@[simp] theorem emit_refused (e : Event) (s : State) : (emit e s).refused = s.refused := rfl
@[simp] theorem emit_fe (e : Event) (s : State) : (emit e s).fe = s.fe := rfl
@[simp] theorem emit_det (e : Event) (s : State) : (emit e s).det = s.det := rfl
@[simp] theorem emit_prevC2 (e : Event) (s : State) : (emit e s).prevC2 = s.prevC2 := rfl
@[simp] theorem emit_asm (e : Event) (s : State) : (emit e s).asm = s.asm := rfl
@[simp] theorem emit_blk (e : Event) (s : State) : (emit e s).blk = s.blk := rfl
@[simp] theorem emit_pbuf (e : Event) (s : State) : (emit e s).pbuf = s.pbuf := rfl
@[simp] theorem emit_input (e : Event) (s : State) : (emit e s).input = s.input := rfl
@[simp] theorem emit_output (e : Event) (s : State) : (emit e s).output = s.output ++ [e] := rfl
@[simp] theorem emit_freeUse (e : Event) (s : State) : (emit e s).freeUse = s.freeUse := rfl

/-! rejectCmd -/

@[simp] theorem rejectCmd_par (r : Reason) (op : BitVec 4) (s : State) : (rejectCmd r op s).par = s.par := rfl
@[simp] theorem rejectCmd_cfg (r : Reason) (op : BitVec 4) (s : State) : (rejectCmd r op s).cfg = s.cfg := rfl
@[simp] theorem rejectCmd_session (r : Reason) (op : BitVec 4) (s : State) : (rejectCmd r op s).session = s.session := rfl
@[simp] theorem rejectCmd_n (r : Reason) (op : BitVec 4) (s : State) : (rejectCmd r op s).n = s.n := rfl
@[simp] theorem rejectCmd_blockCount (r : Reason) (op : BitVec 4) (s : State) : (rejectCmd r op s).blockCount = s.blockCount := rfl
@[simp] theorem rejectCmd_faultCount (r : Reason) (op : BitVec 4) (s : State) : (rejectCmd r op s).faultCount = s.faultCount := rfl
@[simp] theorem rejectCmd_refused (r : Reason) (op : BitVec 4) (s : State) : (rejectCmd r op s).refused = s.refused := rfl
@[simp] theorem rejectCmd_fe (r : Reason) (op : BitVec 4) (s : State) : (rejectCmd r op s).fe = s.fe := rfl
@[simp] theorem rejectCmd_det (r : Reason) (op : BitVec 4) (s : State) : (rejectCmd r op s).det = s.det := rfl
@[simp] theorem rejectCmd_prevC2 (r : Reason) (op : BitVec 4) (s : State) : (rejectCmd r op s).prevC2 = s.prevC2 := rfl
@[simp] theorem rejectCmd_asm (r : Reason) (op : BitVec 4) (s : State) : (rejectCmd r op s).asm = s.asm := rfl
@[simp] theorem rejectCmd_blk (r : Reason) (op : BitVec 4) (s : State) : (rejectCmd r op s).blk = s.blk := rfl
@[simp] theorem rejectCmd_pbuf (r : Reason) (op : BitVec 4) (s : State) : (rejectCmd r op s).pbuf = s.pbuf := rfl
@[simp] theorem rejectCmd_input (r : Reason) (op : BitVec 4) (s : State) : (rejectCmd r op s).input = s.input := rfl
@[simp] theorem rejectCmd_output (r : Reason) (op : BitVec 4) (s : State) : (rejectCmd r op s).output = s.output ++ [.reject r op] := rfl
@[simp] theorem rejectCmd_freeUse (r : Reason) (op : BitVec 4) (s : State) : (rejectCmd r op s).freeUse = s.freeUse := rfl

/-! clearBlock -/

@[simp] theorem clearBlock_par (s : State) : (clearBlock s).par = s.par := rfl
@[simp] theorem clearBlock_cfg (s : State) : (clearBlock s).cfg = s.cfg := rfl
@[simp] theorem clearBlock_session (s : State) : (clearBlock s).session = s.session := rfl
@[simp] theorem clearBlock_n (s : State) : (clearBlock s).n = s.n := rfl
@[simp] theorem clearBlock_blockCount (s : State) : (clearBlock s).blockCount = s.blockCount := rfl
@[simp] theorem clearBlock_faultCount (s : State) : (clearBlock s).faultCount = s.faultCount := rfl
@[simp] theorem clearBlock_refused (s : State) : (clearBlock s).refused = s.refused := rfl
@[simp] theorem clearBlock_fe (s : State) : (clearBlock s).fe = s.fe := rfl
@[simp] theorem clearBlock_det (s : State) : (clearBlock s).det = s.det := rfl
@[simp] theorem clearBlock_prevC2 (s : State) : (clearBlock s).prevC2 = s.prevC2 := rfl
@[simp] theorem clearBlock_asm (s : State) : (clearBlock s).asm = s.asm := rfl
@[simp] theorem clearBlock_blk (s : State) : (clearBlock s).blk = { Framer.reset s.par.crc with fr := s.blk.fr } := rfl
@[simp] theorem clearBlock_pbuf (s : State) : (clearBlock s).pbuf = s.pbuf := rfl
@[simp] theorem clearBlock_input (s : State) : (clearBlock s).input = s.input := rfl
@[simp] theorem clearBlock_output (s : State) : (clearBlock s).output = s.output := rfl
@[simp] theorem clearBlock_freeUse (s : State) : (clearBlock s).freeUse = s.freeUse := rfl

/-! abandonBlock -/

@[simp] theorem abandonBlock_par (s : State) : (abandonBlock s).par = s.par := rfl
@[simp] theorem abandonBlock_cfg (s : State) : (abandonBlock s).cfg = s.cfg := rfl
@[simp] theorem abandonBlock_session (s : State) : (abandonBlock s).session = s.session := rfl
@[simp] theorem abandonBlock_n (s : State) : (abandonBlock s).n = s.n := rfl
@[simp] theorem abandonBlock_blockCount (s : State) : (abandonBlock s).blockCount = s.blockCount := rfl
@[simp] theorem abandonBlock_faultCount (s : State) : (abandonBlock s).faultCount = s.faultCount := rfl
@[simp] theorem abandonBlock_refused (s : State) : (abandonBlock s).refused = s.refused := rfl
@[simp] theorem abandonBlock_fe (s : State) : (abandonBlock s).fe = s.fe := rfl
@[simp] theorem abandonBlock_det (s : State) : (abandonBlock s).det = s.det := rfl
@[simp] theorem abandonBlock_prevC2 (s : State) : (abandonBlock s).prevC2 = s.prevC2 := rfl
@[simp] theorem abandonBlock_asm (s : State) : (abandonBlock s).asm = s.asm := rfl
@[simp] theorem abandonBlock_blk (s : State) : (abandonBlock s).blk = Framer.reset s.par.crc := rfl
@[simp] theorem abandonBlock_pbuf (s : State) : (abandonBlock s).pbuf = s.pbuf := rfl
@[simp] theorem abandonBlock_input (s : State) : (abandonBlock s).input = s.input := rfl
@[simp] theorem abandonBlock_output (s : State) : (abandonBlock s).output = s.output := rfl
@[simp] theorem abandonBlock_freeUse (s : State) : (abandonBlock s).freeUse = s.freeUse := rfl

/-! endOfStream -/

@[simp] theorem endOfStream_par (c : Cause) (s : State) : (endOfStream c s).par = s.par := rfl
@[simp] theorem endOfStream_cfg (c : Cause) (s : State) : (endOfStream c s).cfg = s.cfg := rfl
@[simp] theorem endOfStream_session (c : Cause) (s : State) : (endOfStream c s).session = .done := rfl
@[simp] theorem endOfStream_n (c : Cause) (s : State) : (endOfStream c s).n = s.n := rfl
@[simp] theorem endOfStream_blockCount (c : Cause) (s : State) : (endOfStream c s).blockCount = s.blockCount := rfl
@[simp] theorem endOfStream_faultCount (c : Cause) (s : State) : (endOfStream c s).faultCount = s.faultCount := rfl
@[simp] theorem endOfStream_refused (c : Cause) (s : State) : (endOfStream c s).refused = s.refused := rfl
@[simp] theorem endOfStream_fe (c : Cause) (s : State) : (endOfStream c s).fe = s.fe := rfl
@[simp] theorem endOfStream_det (c : Cause) (s : State) : (endOfStream c s).det = s.det := rfl
@[simp] theorem endOfStream_prevC2 (c : Cause) (s : State) : (endOfStream c s).prevC2 = s.prevC2 := rfl
@[simp] theorem endOfStream_asm (c : Cause) (s : State) : (endOfStream c s).asm = s.asm := rfl
@[simp] theorem endOfStream_blk (c : Cause) (s : State) : (endOfStream c s).blk = s.blk := rfl
@[simp] theorem endOfStream_pbuf (c : Cause) (s : State) : (endOfStream c s).pbuf = s.pbuf := rfl
@[simp] theorem endOfStream_input (c : Cause) (s : State) : (endOfStream c s).input = s.input := rfl
@[simp] theorem endOfStream_output (c : Cause) (s : State) : (endOfStream c s).output = s.output ++ [.exhausted c] := rfl
@[simp] theorem endOfStream_freeUse (c : Cause) (s : State) : (endOfStream c s).freeUse = s.freeUse := rfl

/-! sessionResetState -/

@[simp] theorem sessionResetState_par (s : State) : (sessionResetState s).par = s.par := rfl
@[simp] theorem sessionResetState_cfg (s : State) : (sessionResetState s).cfg = s.cfg := rfl
@[simp] theorem sessionResetState_session (s : State) : (sessionResetState s).session = .idle := rfl
@[simp] theorem sessionResetState_n (s : State) : (sessionResetState s).n = 0#32 := rfl
@[simp] theorem sessionResetState_blockCount (s : State) : (sessionResetState s).blockCount = 0#32 := rfl
@[simp] theorem sessionResetState_faultCount (s : State) : (sessionResetState s).faultCount = 0#32 := rfl
@[simp] theorem sessionResetState_refused (s : State) : (sessionResetState s).refused = s.refused := rfl
@[simp] theorem sessionResetState_fe (s : State) : (sessionResetState s).fe = .reset := rfl
@[simp] theorem sessionResetState_det (s : State) : (sessionResetState s).det = .reset := rfl
@[simp] theorem sessionResetState_prevC2 (s : State) : (sessionResetState s).prevC2 = none := rfl
@[simp] theorem sessionResetState_asm (s : State) : (sessionResetState s).asm = .reset := rfl
@[simp] theorem sessionResetState_blk (s : State) : (sessionResetState s).blk = .reset s.par.crc := rfl
@[simp] theorem sessionResetState_pbuf (s : State) : (sessionResetState s).pbuf = [] := rfl
@[simp] theorem sessionResetState_input (s : State) : (sessionResetState s).input = s.input := rfl
@[simp] theorem sessionResetState_output (s : State) : (sessionResetState s).output = s.output := rfl
@[simp] theorem sessionResetState_freeUse (s : State) : (sessionResetState s).freeUse = s.freeUse := rfl

/-! hardwareResetState -/

@[simp] theorem hardwareResetState_par (s : State) : (hardwareResetState s).par = s.par := rfl
@[simp] theorem hardwareResetState_cfg (s : State) : (hardwareResetState s).cfg = s.par.cfgReset := rfl
@[simp] theorem hardwareResetState_session (s : State) : (hardwareResetState s).session = .idle := rfl
@[simp] theorem hardwareResetState_n (s : State) : (hardwareResetState s).n = 0#32 := rfl
@[simp] theorem hardwareResetState_blockCount (s : State) : (hardwareResetState s).blockCount = 0#32 := rfl
@[simp] theorem hardwareResetState_faultCount (s : State) : (hardwareResetState s).faultCount = 0#32 := rfl
@[simp] theorem hardwareResetState_refused (s : State) : (hardwareResetState s).refused = s.refused := rfl
@[simp] theorem hardwareResetState_fe (s : State) : (hardwareResetState s).fe = .reset := rfl
@[simp] theorem hardwareResetState_det (s : State) : (hardwareResetState s).det = .reset := rfl
@[simp] theorem hardwareResetState_prevC2 (s : State) : (hardwareResetState s).prevC2 = none := rfl
@[simp] theorem hardwareResetState_asm (s : State) : (hardwareResetState s).asm = .reset := rfl
@[simp] theorem hardwareResetState_blk (s : State) : (hardwareResetState s).blk = .reset s.par.crc := rfl
@[simp] theorem hardwareResetState_pbuf (s : State) : (hardwareResetState s).pbuf = [] := rfl
@[simp] theorem hardwareResetState_input (s : State) : (hardwareResetState s).input = s.input := rfl
@[simp] theorem hardwareResetState_output (s : State) : (hardwareResetState s).output = s.output := rfl
@[simp] theorem hardwareResetState_freeUse (s : State) : (hardwareResetState s).freeUse = s.freeUse := rfl

/-! rejectMalformed -/

@[simp] theorem rejectMalformed_par (w : CmdWord) (s : State) : (rejectMalformed w s).par = s.par := rfl
@[simp] theorem rejectMalformed_cfg (w : CmdWord) (s : State) : (rejectMalformed w s).cfg = s.cfg := rfl
@[simp] theorem rejectMalformed_session (w : CmdWord) (s : State) : (rejectMalformed w s).session = s.session := rfl
@[simp] theorem rejectMalformed_n (w : CmdWord) (s : State) : (rejectMalformed w s).n = s.n := rfl
@[simp] theorem rejectMalformed_blockCount (w : CmdWord) (s : State) : (rejectMalformed w s).blockCount = s.blockCount := rfl
@[simp] theorem rejectMalformed_faultCount (w : CmdWord) (s : State) : (rejectMalformed w s).faultCount = s.faultCount := rfl
@[simp] theorem rejectMalformed_refused (w : CmdWord) (s : State) : (rejectMalformed w s).refused = s.refused := rfl
@[simp] theorem rejectMalformed_fe (w : CmdWord) (s : State) : (rejectMalformed w s).fe = s.fe := rfl
@[simp] theorem rejectMalformed_det (w : CmdWord) (s : State) : (rejectMalformed w s).det = s.det := rfl
@[simp] theorem rejectMalformed_prevC2 (w : CmdWord) (s : State) : (rejectMalformed w s).prevC2 = s.prevC2 := rfl
@[simp] theorem rejectMalformed_asm (w : CmdWord) (s : State) : (rejectMalformed w s).asm = s.asm := rfl
@[simp] theorem rejectMalformed_blk (w : CmdWord) (s : State) : (rejectMalformed w s).blk = s.blk := rfl
@[simp] theorem rejectMalformed_pbuf (w : CmdWord) (s : State) : (rejectMalformed w s).pbuf = s.pbuf := rfl
@[simp] theorem rejectMalformed_input (w : CmdWord) (s : State) : (rejectMalformed w s).input = s.input := rfl
@[simp] theorem rejectMalformed_output (w : CmdWord) (s : State) : (rejectMalformed w s).output = s.output ++ [.reject .malformed (opField w)] := rfl
@[simp] theorem rejectMalformed_freeUse (w : CmdWord) (s : State) : (rejectMalformed w s).freeUse = s.freeUse := rfl

/-! pushCommand -/

@[simp] theorem pushCommand_par (w : CmdWord) (s : State) : (pushCommand w s).par = s.par := rfl
@[simp] theorem pushCommand_cfg (w : CmdWord) (s : State) : (pushCommand w s).cfg = s.cfg := rfl
@[simp] theorem pushCommand_session (w : CmdWord) (s : State) : (pushCommand w s).session = s.session := rfl
@[simp] theorem pushCommand_n (w : CmdWord) (s : State) : (pushCommand w s).n = s.n := rfl
@[simp] theorem pushCommand_blockCount (w : CmdWord) (s : State) : (pushCommand w s).blockCount = s.blockCount := rfl
@[simp] theorem pushCommand_faultCount (w : CmdWord) (s : State) : (pushCommand w s).faultCount = s.faultCount := rfl
@[simp] theorem pushCommand_refused (w : CmdWord) (s : State) : (pushCommand w s).refused = s.refused := rfl
@[simp] theorem pushCommand_fe (w : CmdWord) (s : State) : (pushCommand w s).fe = s.fe := rfl
@[simp] theorem pushCommand_det (w : CmdWord) (s : State) : (pushCommand w s).det = s.det := rfl
@[simp] theorem pushCommand_prevC2 (w : CmdWord) (s : State) : (pushCommand w s).prevC2 = s.prevC2 := rfl
@[simp] theorem pushCommand_asm (w : CmdWord) (s : State) : (pushCommand w s).asm = s.asm := rfl
@[simp] theorem pushCommand_blk (w : CmdWord) (s : State) : (pushCommand w s).blk = s.blk := rfl
@[simp] theorem pushCommand_pbuf (w : CmdWord) (s : State) : (pushCommand w s).pbuf = s.pbuf := rfl
@[simp] theorem pushCommand_input (w : CmdWord) (s : State) : (pushCommand w s).input = .command w :: s.input := rfl
@[simp] theorem pushCommand_output (w : CmdWord) (s : State) : (pushCommand w s).output = s.output := rfl
@[simp] theorem pushCommand_freeUse (w : CmdWord) (s : State) : (pushCommand w s).freeUse = s.freeUse := rfl

/-! raiseFault -/

@[simp] theorem raiseFault_par (k : FaultKind) (c2 : Time) (s : State) : (raiseFault k c2 s).par = s.par := by
  cases k <;> rfl
@[simp] theorem raiseFault_cfg (k : FaultKind) (c2 : Time) (s : State) : (raiseFault k c2 s).cfg = s.cfg := by
  cases k <;> rfl
@[simp] theorem raiseFault_session (k : FaultKind) (c2 : Time) (s : State) : (raiseFault k c2 s).session = s.session := by
  cases k <;> rfl
@[simp] theorem raiseFault_n (k : FaultKind) (c2 : Time) (s : State) : (raiseFault k c2 s).n = s.n := by
  cases k <;> rfl
@[simp] theorem raiseFault_blockCount (k : FaultKind) (c2 : Time) (s : State) : (raiseFault k c2 s).blockCount = s.blockCount := by
  cases k <;> rfl
@[simp] theorem raiseFault_faultCount (k : FaultKind) (c2 : Time) (s : State) : (raiseFault k c2 s).faultCount = s.faultCount + 1 := by
  cases k <;> rfl
@[simp] theorem raiseFault_refused (k : FaultKind) (c2 : Time) (s : State) : (raiseFault k c2 s).refused = s.refused := by
  cases k <;> rfl
@[simp] theorem raiseFault_fe (k : FaultKind) (c2 : Time) (s : State) : (raiseFault k c2 s).fe = s.fe := by
  cases k <;> rfl
@[simp] theorem raiseFault_det (k : FaultKind) (c2 : Time) (s : State) : (raiseFault k c2 s).det = s.det := by
  cases k <;> rfl
@[simp] theorem raiseFault_prevC2 (k : FaultKind) (c2 : Time) (s : State) : (raiseFault k c2 s).prevC2 = s.prevC2 := by
  cases k <;> rfl
@[simp] theorem raiseFault_pbuf (k : FaultKind) (c2 : Time) (s : State) : (raiseFault k c2 s).pbuf = s.pbuf := by
  cases k <;> rfl
@[simp] theorem raiseFault_input (k : FaultKind) (c2 : Time) (s : State) : (raiseFault k c2 s).input = s.input := by
  cases k <;> rfl
@[simp] theorem raiseFault_output (k : FaultKind) (c2 : Time) (s : State) : (raiseFault k c2 s).output = s.output ++ [.fault k c2] := by
  cases k <;> rfl
@[simp] theorem raiseFault_freeUse (k : FaultKind) (c2 : Time) (s : State) : (raiseFault k c2 s).freeUse = s.freeUse := by
  cases k <;> rfl
@[simp] theorem raiseFault_invalidPulse_asm (w : Word) (c2 : Time) (s : State) :
    (raiseFault (.invalidPulse w) c2 s).asm = .reset := rfl
@[simp] theorem raiseFault_invalidPulse_blk (w : Word) (c2 : Time) (s : State) :
    (raiseFault (.invalidPulse w) c2 s).blk = s.blk := rfl
@[simp] theorem raiseFault_framingFault_asm (c2 : Time) (s : State) : (raiseFault .framingFault c2 s).asm = .reset := rfl
@[simp] theorem raiseFault_framingFault_blk (c2 : Time) (s : State) :
    (raiseFault .framingFault c2 s).blk = .reset s.par.crc := rfl
@[simp] theorem raiseFault_blockLengthFault_asm (l : Half) (c2 : Time) (s : State) :
    (raiseFault (.blockLengthFault l) c2 s).asm = s.asm := rfl
@[simp] theorem raiseFault_blockLengthFault_blk (l : Half) (c2 : Time) (s : State) :
    (raiseFault (.blockLengthFault l) c2 s).blk = .reset s.par.crc := rfl
@[simp] theorem raiseFault_headerCrcFault_asm (r c : Half) (c2 : Time) (s : State) :
    (raiseFault (.headerCrcFault r c) c2 s).asm = s.asm := rfl
@[simp] theorem raiseFault_headerCrcFault_blk (r c : Half) (c2 : Time) (s : State) :
    (raiseFault (.headerCrcFault r c) c2 s).blk = .reset s.par.crc := rfl
@[simp] theorem raiseFault_payloadCrcFault_asm (r c : Half) (c2 : Time) (s : State) :
    (raiseFault (.payloadCrcFault r c) c2 s).asm = s.asm := rfl
@[simp] theorem raiseFault_payloadCrcFault_blk (r c : Half) (c2 : Time) (s : State) :
    (raiseFault (.payloadCrcFault r c) c2 s).blk = .reset s.par.crc := rfl

/-! The state after reset -/

@[simp] theorem init_par (p : Params) : (State.init p).par = p := rfl
@[simp] theorem init_cfg (p : Params) : (State.init p).cfg = p.cfgReset := rfl
@[simp] theorem init_session (p : Params) : (State.init p).session = .idle := rfl
@[simp] theorem init_n (p : Params) : (State.init p).n = 0#32 := rfl
@[simp] theorem init_blockCount (p : Params) : (State.init p).blockCount = 0#32 := rfl
@[simp] theorem init_faultCount (p : Params) : (State.init p).faultCount = 0#32 := rfl
@[simp] theorem init_refused (p : Params) : (State.init p).refused = none := rfl
@[simp] theorem init_fe (p : Params) : (State.init p).fe = .reset := rfl
@[simp] theorem init_det (p : Params) : (State.init p).det = .reset := rfl
@[simp] theorem init_prevC2 (p : Params) : (State.init p).prevC2 = none := rfl
@[simp] theorem init_asm (p : Params) : (State.init p).asm = .reset := rfl
@[simp] theorem init_blk (p : Params) : (State.init p).blk = .reset p.crc := rfl
@[simp] theorem init_pbuf (p : Params) : (State.init p).pbuf = [] := rfl
@[simp] theorem init_input (p : Params) : (State.init p).input = [] := rfl
@[simp] theorem init_output (p : Params) : (State.init p).output = [] := rfl
@[simp] theorem init_freeUse (p : Params) : (State.init p).freeUse = 0 := rfl

end Sys2Proof.Machine
end

