-- ==== Sys2Proof/Laws/Framer.lean ====
section
/-! SUPPORT. What `frame` can do: what it leaves unchanged, what it emits, when it answers, and that it keeps the
framer's law. Later proofs cite these and do not unfold `frame`. -/

namespace Sys2Proof.Machine

open Sys2Proof.Safety

theorem atMostOne_nil {p : Event → Bool} : atMostOne p [] := Or.inl rfl

theorem atMostOne_single {p : Event → Bool} {e : Event} (h : p e = true) : atMostOne p [e] := Or.inr ⟨e, h, rfl⟩

/-! What the framer may change -/

/-- `t` is `s` but for the framer, PBUF, the output port and the two event counters. -/
def FramerOnly (s t : State) : Prop :=
  t = { s with blk := t.blk, pbuf := t.pbuf, output := t.output, blockCount := t.blockCount, faultCount := t.faultCount }

theorem FramerOnly.refl (s : State) : FramerOnly s s := rfl

theorem FramerOnly.trans {s t u : State} (h : FramerOnly s t) (h' : FramerOnly t u) : FramerOnly s u := by
  unfold FramerOnly at *
  rw [h'] ; rw [h]

theorem coverHeader_framerOnly (b : Byte) (s : State) : FramerOnly s (coverHeader b s) := by
  unfold coverHeader; split <;> rfl

theorem huntByte_framerOnly (b : Byte) (c2 : Time) (s : State) : FramerOnly s (huntByte b c2 s) := by
  unfold huntByte; split <;> rfl

theorem lenByte_framerOnly (b : Byte) (c2 : Time) (s : State) : FramerOnly s (lenByte b c2 s) := by
  simp only [lenByte]; split_ifs <;> rfl

theorem hcrcByte_framerOnly (b : Byte) (c2 : Time) (s : State) : FramerOnly s (hcrcByte b c2 s) := by
  unfold hcrcByte; dsimp only; split
  · split <;> rfl
  · rfl

theorem dataByte_framerOnly {b : Byte} {s t : State} (h : dataByte b s = .ok t) : FramerOnly s t := by
  unfold dataByte at h; dsimp only at h
  split at h
  · cases h
  · split at h <;> cases h <;> rfl

theorem emitBlock_framerOnly {s t : State} (h : emitBlock s = .ok t) : FramerOnly s t := by
  unfold emitBlock at h
  split at h <;> cases h
  rfl

theorem pcrcByte_framerOnly {b : Byte} {c2 : Time} {s t : State} (h : pcrcByte b c2 s = .ok t) : FramerOnly s t := by
  unfold pcrcByte at h; dsimp only at h
  split at h
  · split at h
    · cases h; rfl
    · refine FramerOnly.trans ?_ (emitBlock_framerOnly h); rfl
  · cases h; rfl

theorem frameByState_framerOnly {b : Byte} {c2 : Time} {s t : State} (h : frameByState b c2 s = .ok t) :
    FramerOnly s t := by
  unfold frameByState at h
  split at h
  case h_1 => cases h; exact huntByte_framerOnly b c2 s
  case h_7 => cases h; exact lenByte_framerOnly b c2 s
  case h_10 => cases h; exact hcrcByte_framerOnly b c2 s
  case h_11 => exact dataByte_framerOnly h
  case h_12 => exact pcrcByte_framerOnly h
  all_goals cases h; rfl

/-- `frame` changes the framer, PBUF, the output and the two counters, and nothing else. -/
theorem frame_framerOnly {b : Byte} {c2 : Time} {s t : State} (h : frame b c2 s = .ok t) : FramerOnly s t :=
  (coverHeader_framerOnly b s).trans (frameByState_framerOnly h)

/-! What the framer may emit -/

/-- `t` has emitted at most one event after `s`, a BLOCK or a framer fault. -/
def EmitsFramer (s t : State) : Prop := ∃ r, atMostOne isFramerEvent r ∧ t.output = s.output ++ r

theorem EmitsFramer.of_eq {s t : State} (h : t.output = s.output) : EmitsFramer s t := ⟨[], atMostOne_nil, by simp [h]⟩

theorem EmitsFramer.of_one {s t : State} {e : Event} (he : isFramerEvent e = true) (h : t.output = s.output ++ [e]) :
    EmitsFramer s t := ⟨[e], atMostOne_single he, h⟩

theorem coverHeader_output (b : Byte) (s : State) : (coverHeader b s).output = s.output := by
  unfold coverHeader; split <;> rfl

theorem lenByte_emits (b : Byte) (c2 : Time) (s : State) : EmitsFramer s (lenByte b c2 s) := by
  simp only [lenByte]; split_ifs
  · exact .of_one rfl (raiseFault_output _ _ _)
  · exact .of_eq rfl
  · exact .of_eq rfl

theorem hcrcByte_emits (b : Byte) (c2 : Time) (s : State) : EmitsFramer s (hcrcByte b c2 s) := by
  unfold hcrcByte; dsimp only; split
  · split
    · exact .of_one rfl (raiseFault_output _ _ _)
    · exact .of_eq rfl
  · exact .of_eq rfl

theorem dataByte_output {b : Byte} {s t : State} (h : dataByte b s = .ok t) : t.output = s.output := by
  unfold dataByte at h; dsimp only at h
  split at h
  · cases h
  · split at h <;> cases h <;> rfl

theorem emitBlock_emits {s t : State} (h : emitBlock s = .ok t) : EmitsFramer s t := by
  unfold emitBlock at h
  split at h <;> cases h
  exact .of_one rfl rfl

theorem pcrcByte_emits {b : Byte} {c2 : Time} {s t : State} (h : pcrcByte b c2 s = .ok t) : EmitsFramer s t := by
  unfold pcrcByte at h; dsimp only at h
  split at h
  · split at h
    · cases h; exact .of_one rfl (raiseFault_output _ _ _)
    · obtain ⟨r, hr, ho⟩ := emitBlock_emits h; exact ⟨r, hr, ho⟩
  · cases h; exact .of_eq rfl

/-- `frame` emits at most one event: a BLOCK or a framer fault (R456). -/
theorem frame_emits {b : Byte} {c2 : Time} {s t : State} (h : frame b c2 s = .ok t) : EmitsFramer s t := by
  have key : EmitsFramer (coverHeader b s) t := by
    unfold frame frameByState at h
    split at h
    case h_1 => cases h; unfold huntByte; split <;> exact .of_eq rfl
    case h_7 => cases h; exact lenByte_emits b c2 _
    case h_10 => cases h; exact hcrcByte_emits b c2 _
    case h_11 => exact .of_eq (dataByte_output h)
    case h_12 => exact pcrcByte_emits h
    all_goals cases h; exact .of_eq rfl
  obtain ⟨r, hr, ho⟩ := key
  exact ⟨r, hr, by rw [ho, coverHeader_output]⟩

/-! The framer's law -/

theorem Framer.ok_reset (crc : Crc16) : (Framer.reset crc).ok crc := by
  simp [Framer.ok, Framer.reset, Config.nameMax]

theorem bitVec9_succ {x : BitVec 9} {k : Nat} (h : x.toNat < k) (hk : k ≤ 256) :
    (x + 1).toNat = x.toNat + 1 := by
  rw [BitVec.toNat_add]; simp; omega

/-- A field's count after one byte that does not end the field stays inside the field. -/
theorem count_lt {k : Nat} {x : BitVec 9} (hk : k ≤ 256) (h : x.toNat < k) (hne : ¬ x + 1 = BitVec.ofNat 9 k) :
    (x + 1).toNat < k := by
  have := bitVec9_succ h hk
  by_cases hx : x.toNat + 1 = k
  · exact absurd (BitVec.eq_of_toNat_eq (by simp; omega)) hne
  · omega

theorem coverHeader_ok {crc : Crc16} {b : Byte} {s : State} (h : s.blk.ok crc) : (coverHeader b s).blk.ok crc := by
  unfold coverHeader
  split
  · obtain ⟨h1, h2, h3⟩ := h
    refine ⟨h1, h2, ?_⟩
    rename_i hin
    cases hfr : s.blk.fr <;> simp_all [FrState.inHeader]
  · exact h

theorem huntByte_ok {crc : Crc16} {b : Byte} {c2 : Time} {s : State} (h : s.blk.ok crc) : (huntByte b c2 s).blk.ok crc := by
  unfold huntByte
  split
  · exact h
  · simp [Framer.ok, Framer.reset, clearBlock, Config.nameMax]

theorem nameByte_ok {crc : Crc16} {term10 : Bool} {b : Byte} {f : Framer} (h : f.ok crc) (hfr : f.fr = .name) :
    (f.nameByte term10 b).ok crc := by
  obtain ⟨h1, h2, h3⟩ := h
  simp only [hfr, Config.nameMax] at h1 h3
  unfold Framer.nameByte
  split
  · exact ⟨h1, h2, by simp⟩
  · rename_i hb
    have hz : 0#8 ∉ f.name ++ [b] := by simpa [h2] using fun h => hb h.symm
    split
    · rename_i hl
      refine ⟨hl.le, hz, ?_⟩
      cases term10 <;> simp
      simpa using hl
    · rename_i hl
      simp only [Config.nameMax, List.length_append, List.length_singleton] at hl
      refine ⟨by simp [Config.nameMax]; omega, hz, ?_⟩
      simp [hfr, h3.1, Config.nameMax]; omega

theorem loadByte_ok {crc : Crc16} {b : Byte} {f : Framer} (h : f.ok crc) (hfr : f.fr = .load) : (f.loadByte b).ok crc := by
  obtain ⟨h1, h2, h3⟩ := h
  simp only [hfr] at h3
  unfold Framer.loadByte Framer.advance
  split
  · exact ⟨h1, h2, by simp⟩
  · exact ⟨h1, h2, by simpa [hfr] using count_lt (by omega) h3 ‹_›⟩

theorem execByte_ok {crc : Crc16} {b : Byte} {f : Framer} (h : f.ok crc) (hfr : f.fr = .exec) : (f.execByte b).ok crc := by
  obtain ⟨h1, h2, h3⟩ := h
  simp only [hfr] at h3
  unfold Framer.execByte Framer.advance
  split
  · exact ⟨h1, h2, by simp⟩
  · exact ⟨h1, h2, by simpa [hfr] using count_lt (by omega) h3 ‹_›⟩

theorem seqByte_ok {crc : Crc16} {b : Byte} {f : Framer} (h : f.ok crc) (hfr : f.fr = .seq) : (f.seqByte b).ok crc := by
  obtain ⟨h1, h2, h3⟩ := h
  simp only [hfr] at h3
  unfold Framer.seqByte Framer.advance
  split
  · exact ⟨h1, h2, by simp⟩
  · exact ⟨h1, h2, by simpa [hfr] using count_lt (by omega) h3 ‹_›⟩

theorem nextByte_ok {crc : Crc16} {b : Byte} {f : Framer} (h : f.ok crc) (hfr : f.fr = .next) : (f.nextByte b).ok crc := by
  obtain ⟨h1, h2, h3⟩ := h
  simp only [hfr] at h3
  unfold Framer.nextByte Framer.advance
  split
  · exact ⟨h1, h2, by simpa using h3.2⟩
  · exact ⟨h1, h2, by simpa [hfr] using ⟨count_lt (by omega) h3.1 ‹_›, h3.2⟩⟩

theorem lenByte_ok {b : Byte} {c2 : Time} {s : State} (h : s.blk.ok s.par.crc) (hfr : s.blk.fr = .len) :
    (lenByte b c2 s).blk.ok s.par.crc := by
  obtain ⟨h1, h2, h3⟩ := h
  simp only [hfr] at h3
  simp only [lenByte]
  split_ifs with hc hl
  · exact Framer.ok_reset _
  · exact ⟨h1, h2, by simpa using hl⟩
  · exact ⟨h1, h2, by simpa [hfr] using count_lt (by omega) h3 hc⟩

theorem hcrcByte_ok {b : Byte} {c2 : Time} {s : State} (h : s.blk.ok s.par.crc) (hfr : s.blk.fr = .hcrc) :
    (hcrcByte b c2 s).blk.ok s.par.crc := by
  obtain ⟨h1, h2, h3⟩ := h
  simp only [hfr] at h3
  unfold hcrcByte; dsimp only
  split
  · split
    · exact Framer.ok_reset _
    · refine ⟨h1, h2, ?_⟩
      by_cases hz : s.blk.len.toNat > 0 <;> simp [hz, h3.2]
  · refine ⟨h1, h2, ?_⟩
    simp only [hfr]
    exact ⟨count_lt (by omega) h3.1 ‹_›, h3.2⟩

theorem dataByte_ok {b : Byte} {s t : State} (h : s.blk.ok s.par.crc) (hfr : s.blk.fr = .data)
    (ht : dataByte b s = .ok t) : t.blk.ok s.par.crc := by
  obtain ⟨h1, h2, h3⟩ := h
  simp only [hfr] at h3
  unfold dataByte at ht; dsimp only at ht
  split at ht
  · cases ht
  · split at ht <;> cases ht
    · exact ⟨h1, h2, by simpa using h3.2⟩
    · have := bitVec9_succ h3.1 h3.2
      refine ⟨h1, h2, ?_⟩
      simp only [setBlk_blk, hfr]
      exact ⟨by omega, h3.2⟩

theorem pcrcByte_ok {b : Byte} {c2 : Time} {s t : State} (h : s.blk.ok s.par.crc) (hfr : s.blk.fr = .pcrc)
    (ht : pcrcByte b c2 s = .ok t) : t.blk.ok s.par.crc := by
  obtain ⟨h1, h2, h3⟩ := h
  simp only [hfr] at h3
  unfold pcrcByte emitBlock at ht; dsimp only at ht
  split at ht
  · split at ht
    · cases ht; exact Framer.ok_reset _
    · split at ht <;> cases ht
      exact Framer.ok_reset _
  · cases ht
    refine ⟨h1, h2, ?_⟩
    simp only [hfr]
    exact ⟨count_lt (by omega) h3.1 ‹_›, h3.2⟩

/-- `frame` keeps the framer's law. -/
theorem frame_keeps_ok {b : Byte} {c2 : Time} {s t : State} (hs : s.blk.ok s.par.crc) (h : frame b c2 s = .ok t) :
    t.blk.ok s.par.crc := by
  have hp : (coverHeader b s).par = s.par := by rw [coverHeader_framerOnly b s]
  have hs' : (coverHeader b s).blk.ok (coverHeader b s).par.crc := by rw [hp]; exact coverHeader_ok hs
  rw [← hp]
  unfold frame frameByState at h
  split at h <;> rename_i hfr
  case h_1 => cases h; exact huntByte_ok hs'
  case h_2 => cases h; exact nameByte_ok hs' hfr
  case h_3 => cases h; exact ⟨hs'.1, hs'.2.1, by simp [Framer.nameTermByte]⟩
  case h_4 => cases h; exact loadByte_ok hs' hfr
  case h_5 => cases h; exact execByte_ok hs' hfr
  case h_6 => cases h; exact seqByte_ok hs' hfr
  case h_7 => cases h; exact lenByte_ok hs' hfr
  case h_8 =>
    cases h
    obtain ⟨h1, h2, h3⟩ := hs'
    simp only [hfr] at h3
    exact ⟨h1, h2, by simpa [Framer.flagByte] using h3.2⟩
  case h_9 => cases h; exact nextByte_ok hs' hfr
  case h_10 => cases h; exact hcrcByte_ok hs' hfr
  case h_11 => exact dataByte_ok hs' hfr h
  case h_12 => exact pcrcByte_ok hs' hfr h

/-- `frame` answers in every state that meets the framer's law. -/
theorem frame_answers {b : Byte} {s : State} (c2 : Time) (hs : s.blk.ok s.par.crc) : ∃ t, frame b c2 s = .ok t := by
  obtain ⟨-, -, hcase⟩ := coverHeader_ok (b := b) hs
  unfold frame frameByState
  split <;> rename_i hfr <;> simp only [hfr, Config.maxPayload] at hcase
  case h_11 =>
    unfold dataByte
    rw [memWrite_eq_some.mpr ⟨by simp only [pbufSize]; omega, rfl⟩]
    dsimp only; split <;> exact ⟨_, rfl⟩
  case h_12 =>
    unfold pcrcByte emitBlock
    simp only [setBlk_pbuf, setBlk_blk]
    rw [memReadFirst_eq_some.mpr ⟨hcase.2, rfl⟩]
    dsimp only; split
    · split <;> exact ⟨_, rfl⟩
    · exact ⟨_, rfl⟩
  all_goals exact ⟨_, rfl⟩

/-! PBUF -/

theorem coverHeader_pbuf (b : Byte) (s : State) : (coverHeader b s).pbuf = s.pbuf := by
  unfold coverHeader; split <;> rfl

/-- What `frame` does to PBUF: outside DATA nothing, in DATA MemWrite of the byte at FR_CNT (R100, R444). -/
theorem frame_pbuf {b : Byte} {c2 : Time} {s t : State} (h : frame b c2 s = .ok t) :
    (s.blk.fr ≠ .data ∧ t.pbuf = s.pbuf) ∨
      (s.blk.fr = .data ∧ memWrite s.pbuf s.blk.frCnt.toNat b = some t.pbuf) := by
  have hf : (coverHeader b s).blk.fr = s.blk.fr := by unfold coverHeader; split <;> rfl
  have hn : (coverHeader b s).blk.frCnt = s.blk.frCnt := by unfold coverHeader; split <;> rfl
  rw [← hf, ← hn, ← coverHeader_pbuf b s]
  unfold frame frameByState at h
  split at h <;> rename_i hfr
  case h_1 => cases h; left; unfold huntByte; split <;> exact ⟨by simp [hfr], rfl⟩
  case h_7 => cases h; left; simp only [lenByte]; split_ifs <;> exact ⟨by simp [hfr], rfl⟩
  case h_10 =>
    cases h; left; unfold hcrcByte; dsimp only
    refine ⟨by simp [hfr], ?_⟩
    split
    · split <;> rfl
    · rfl
  case h_11 =>
    right
    unfold dataByte at h; dsimp only at h
    split at h
    · cases h
    · rename_i hw
      refine ⟨hfr, ?_⟩
      split at h <;> cases h <;> exact hw
  case h_12 =>
    left
    refine ⟨by simp [hfr], ?_⟩
    unfold pcrcByte emitBlock at h; dsimp only at h
    split at h
    · split at h
      · cases h; rfl
      · split at h <;> cases h
        rfl
    · cases h; rfl
  all_goals cases h; left; exact ⟨by simp [hfr], rfl⟩

/-- `frame` keeps PBUF in canonical form. -/
theorem frame_keeps_wf {b : Byte} {c2 : Time} {s t : State} (hm : Memory.wf s.pbuf = true) (h : frame b c2 s = .ok t) :
    Memory.wf t.pbuf = true := by
  rcases frame_pbuf h with ⟨-, e⟩ | ⟨-, e⟩
  · rw [e]; exact hm
  · exact memWrite_wf hm e

/-- `frame` writes PBUF only in DATA, and only the byte at FR_CNT (R100, R444). -/
theorem frame_memory {b : Byte} {c2 : Time} {s t : State} (hm : Memory.wf s.pbuf = true) (h : frame b c2 s = .ok t)
    (a : Nat) (ha : s.blk.fr ≠ .data ∨ a ≠ s.blk.frCnt.toNat) : memRead t.pbuf a = memRead s.pbuf a := by
  rcases frame_pbuf h with ⟨-, e⟩ | ⟨hd, e⟩
  · rw [e]
  · rw [memRead_memWrite hm e, if_neg (ha.resolve_left (fun h => h hd))]

end Sys2Proof.Machine
end

