-- ==== Sys2Proof/Laws/Pipeline.lean ====
section
/-! SUPPORT. What the assembler, the classifier, the detector and the front end can do: what each leaves unchanged, the
events it emits in order, when it answers, and the laws it keeps. -/

namespace Sys2Proof.Machine

open Sys2Proof.Safety

/-- `t` is `s` but for the pipeline units, PBUF, the output port, the event counters and the free-value counter: the
parameters, `cfg`, SESSION, N, REFUSED and the input port are those of `s`. -/
def PipelineOnly (s t : State) : Prop :=
  t = { s with
        fe := t.fe, det := t.det, prevC2 := t.prevC2, asm := t.asm, blk := t.blk, pbuf := t.pbuf, output := t.output,
        blockCount := t.blockCount, faultCount := t.faultCount, freeUse := t.freeUse }

theorem PipelineOnly.refl (s : State) : PipelineOnly s s := rfl

theorem PipelineOnly.trans {s t u : State} (h : PipelineOnly s t) (h' : PipelineOnly t u) : PipelineOnly s u := by
  unfold PipelineOnly at *
  rw [h']; rw [h]

theorem FramerOnly.toPipeline {s t : State} (h : FramerOnly s t) : PipelineOnly s t := by
  unfold FramerOnly PipelineOnly at *
  rw [h]

theorem PipelineOnly.par {s t : State} (h : PipelineOnly s t) : t.par = s.par := by rw [h]
theorem PipelineOnly.cfg {s t : State} (h : PipelineOnly s t) : t.cfg = s.cfg := by rw [h]
theorem PipelineOnly.session {s t : State} (h : PipelineOnly s t) : t.session = s.session := by rw [h]
theorem PipelineOnly.n {s t : State} (h : PipelineOnly s t) : t.n = s.n := by rw [h]
theorem PipelineOnly.refused {s t : State} (h : PipelineOnly s t) : t.refused = s.refused := by rw [h]
theorem PipelineOnly.input {s t : State} (h : PipelineOnly s t) : t.input = s.input := by rw [h]

/-- `t` differs from `s` at most in the assembler, the framer and what they write: not in the front end, the detector or
the free-value counter. -/
def AssemblerOnly (s t : State) : Prop :=
  t = { s with
        prevC2 := t.prevC2, asm := t.asm, blk := t.blk, pbuf := t.pbuf, output := t.output,
        blockCount := t.blockCount, faultCount := t.faultCount }

theorem AssemblerOnly.refl (s : State) : AssemblerOnly s s := rfl

theorem AssemblerOnly.trans {s t u : State} (h : AssemblerOnly s t) (h' : AssemblerOnly t u) : AssemblerOnly s u := by
  unfold AssemblerOnly at *
  rw [h']; rw [h]

theorem FramerOnly.toAssembler {s t : State} (h : FramerOnly s t) : AssemblerOnly s t := by
  unfold FramerOnly AssemblerOnly at *
  rw [h]

theorem AssemblerOnly.toPipeline {s t : State} (h : AssemblerOnly s t) : PipelineOnly s t := by
  unfold AssemblerOnly PipelineOnly at *
  rw [h]

theorem AssemblerOnly.fe {s t : State} (h : AssemblerOnly s t) : t.fe = s.fe := by rw [h]
theorem AssemblerOnly.det {s t : State} (h : AssemblerOnly s t) : t.det = s.det := by rw [h]
theorem AssemblerOnly.n {s t : State} (h : AssemblerOnly s t) : t.n = s.n := by rw [h]
theorem AssemblerOnly.cfg {s t : State} (h : AssemblerOnly s t) : t.cfg = s.cfg := by rw [h]
theorem AssemblerOnly.par {s t : State} (h : AssemblerOnly s t) : t.par = s.par := by rw [h]
theorem AssemblerOnly.session {s t : State} (h : AssemblerOnly s t) : t.session = s.session := by rw [h]
theorem AssemblerOnly.freeUse {s t : State} (h : AssemblerOnly s t) : t.freeUse = s.freeUse := by rw [h]

/-- What the units after the detector may emit for one pulse (R620): nothing, an assembler fault, or a BYTE and then at
most one framer event. -/
def tailOrder (es : List Event) : Prop :=
  es = [] ∨ (∃ f, isAssemblerFault f = true ∧ es = [f]) ∨
    ∃ b r, isByte b = true ∧ atMostOne isFramerEvent r ∧ es = b :: r

/-- What every unit from the assembler on keeps, and the events it adds. -/
structure AssemblerStep (s t : State) : Prop where
  only   : AssemblerOnly s t
  events : ∃ es, tailOrder es ∧ t.output = s.output ++ es
  asm    : s.asm.ok → t.asm.ok
  blk    : s.blk.ok s.par.crc → t.blk.ok s.par.crc
  wf     : Memory.wf s.pbuf = true → Memory.wf t.pbuf = true
  memory : Memory.wf s.pbuf = true → ∀ a, s.blk.fr ≠ .data ∨ a ≠ s.blk.frCnt.toNat → memRead t.pbuf a = memRead s.pbuf a

theorem BitAsm.ok_reset : BitAsm.reset.ok := by simp [BitAsm.ok, BitAsm.reset]

theorem invalidPulse_step (w : Word) (c2 : Time) (s : State) : AssemblerStep s (raiseFault (.invalidPulse w) c2 s) where
  only := rfl
  events := ⟨_, Or.inr (Or.inl ⟨_, rfl, rfl⟩), rfl⟩
  asm := fun _ => BitAsm.ok_reset
  blk := id
  wf := id
  memory := fun _ _ _ => rfl

theorem framingFault_step (c2 : Time) (s : State) : AssemblerStep s (raiseFault .framingFault c2 s) where
  only := rfl
  events := ⟨_, Or.inr (Or.inl ⟨_, rfl, rfl⟩), rfl⟩
  asm := fun _ => BitAsm.ok_reset
  blk := fun _ => Framer.ok_reset _
  wf := id
  memory := fun _ _ _ => rfl

/-- An update of the assembler's registers alone. -/
theorem setAsm_step {s : State} {a : BitAsm} (h : s.asm.ok → a.ok) : AssemblerStep s (setAsm a s) where
  only := rfl
  events := ⟨[], Or.inl rfl, by simp⟩
  asm := h
  blk := id
  wf := id
  memory := fun _ _ _ => rfl

theorem completeByte_only (acc : Byte) (c2 : Time) (s : State) : AssemblerOnly s (completeByte acc c2 s) := rfl

theorem completeByte_output (acc : Byte) (c2 : Time) (s : State) :
    (completeByte acc c2 s).output = s.output ++ [.byte acc c2] := rfl

theorem pushBit_only {bit : Bool} {c2 : Time} {s t : State} (h : pushBit bit c2 s = .ok t) : AssemblerOnly s t := by
  unfold pushBit at h
  split at h
  · exact (completeByte_only _ c2 s).trans (frame_framerOnly h).toAssembler
  · cases h; rfl

/-- `pushBit` from a state of Data (R372, R373). -/
theorem pushBit_step {bit : Bool} {c2 : Time} {s t : State} (hs : s.asm.asm = .data) (h : pushBit bit c2 s = .ok t) :
    AssemblerStep s t := by
  have honly := pushBit_only h
  unfold pushBit at h
  split at h
  · have hf := frame_framerOnly h
    obtain ⟨r, hr, ho⟩ := frame_emits h
    refine ⟨honly, ⟨.byte (shiftIn bit s.asm.acc) c2 :: r, .inr (.inr ⟨_, r, rfl, hr, rfl⟩), ?_⟩, ?_, fun hb => frame_keeps_ok (s := completeByte _ c2 s) hb h,
      fun hm => frame_keeps_wf (s := completeByte _ c2 s) hm h, fun hm a ha => frame_memory (s := completeByte _ c2 s) hm h a ha⟩
    · rw [ho, completeByte_output, List.append_assoc]; rfl
    · intro _; rw [hf]; simp [BitAsm.ok, completeByte]
  · cases h
    rename_i hne
    refine ⟨honly, ⟨[], Or.inl rfl, by simp⟩, ?_, id, id, fun _ _ _ => rfl⟩
    intro ha
    simp only [BitAsm.ok, hs, setAsm_asm] at ha ⊢
    refine ⟨?_, ha.2⟩
    have h8 : (s.asm.shift + 1).toNat = s.asm.shift.toNat + 1 := by rw [BitVec.toNat_add]; simp; omega
    have : s.asm.shift.toNat + 1 ≠ 8 := fun he => hne (BitVec.eq_of_toNat_eq (by rw [h8, he]; rfl))
    omega

theorem AssemblerStep.after_setAsm {s t : State} {a : BitAsm} (ha : s.asm.ok → a.ok)
    (h : AssemblerStep (setAsm a s) t) : AssemblerStep s t where
  only := AssemblerOnly.trans (t := setAsm a s) rfl h.only
  events := h.events
  asm := fun hs => h.asm (ha hs)
  blk := h.blk
  wf := h.wf
  memory := h.memory

/-- The cycle counter after one High half-cycle that does not complete a pair. -/
theorem cycle_next {c : BitVec 2} (h : c.toNat ≤ 1) (hne : ¬ c + 1 = 2#2) : (c + 1).toNat ≤ 1 := by
  revert c; decide

/-- `assemble` (R355 to R385). -/
theorem assemble_step {tone : Tone} {w : Word} {c2 : Time} {s t : State} (h : assemble tone w c2 s = .ok t) :
    AssemblerStep s t := by
  unfold assemble at h
  split at h
  case h_1 => cases h; exact invalidPulse_step w c2 s
  case h_2 => cases h; exact setAsm_step (s := s) (a := s.asm) id
  case h_3 hs =>
    cases h
    refine setAsm_step (fun ha => ?_)
    simp only [BitAsm.ok, hs] at ha
    simp [BitAsm.ok, ha, BitAsm.reset]
  case h_4 => cases h; exact setAsm_step (fun _ => by simp [BitAsm.ok])
  case h_5 => cases h; exact setAsm_step (s := s) (a := s.asm) id
  case h_6 hs =>
    refine AssemblerStep.after_setAsm (fun ha => ?_) (pushBit_step (s := setAsm { s.asm with cycle := 0#2 } s) hs h)
    simp only [BitAsm.ok, hs] at ha ⊢
    exact ⟨ha.1, by simp⟩
  case h_7 hs =>
    split at h
    · refine AssemblerStep.after_setAsm (fun ha => ?_) (pushBit_step (s := setAsm { s.asm with cycle := 0#2 } s) hs h)
      simp only [BitAsm.ok, hs] at ha ⊢
      exact ⟨ha.1, by simp⟩
    · cases h
      refine setAsm_step (fun ha => ?_)
      simp only [BitAsm.ok, hs] at ha ⊢
      refine ⟨ha.1, ?_⟩
      rename_i hc
      exact cycle_next ha.2 hc
  case h_8 => cases h; exact framingFault_step c2 s
  case h_9 hs =>
    split at h
    · cases h
      refine setAsm_step (fun ha => ?_)
      simp only [BitAsm.ok, hs] at ha ⊢
      exact ⟨ha.1, by simp⟩
    · cases h
      refine setAsm_step (fun ha => ?_)
      simp only [BitAsm.ok, hs] at ha ⊢
      refine ⟨ha.1, ?_⟩
      rename_i hc
      exact cycle_next ha.2 hc

theorem pushBit_answers {bit : Bool} {s : State} (c2 : Time) (hs : s.blk.ok s.par.crc) :
    ∃ t, pushBit bit c2 s = .ok t := by
  unfold pushBit
  split
  · exact frame_answers (s := completeByte _ c2 s) c2 hs
  · exact ⟨_, rfl⟩

/-- `assemble` answers in every state that meets the framer's law. -/
theorem assemble_answers {tone : Tone} {w : Word} {s : State} (c2 : Time) (hs : s.blk.ok s.par.crc) :
    ∃ t, assemble tone w c2 s = .ok t := by
  unfold assemble
  split
  case h_6 => exact pushBit_answers c2 hs
  case h_7 => split
              · exact pushBit_answers c2 hs
              · exact ⟨_, rfl⟩
  case h_9 => split <;> exact ⟨_, rfl⟩
  all_goals exact ⟨_, rfl⟩

theorem assemble_prevC2 {tone : Tone} {w : Word} {c2 : Time} {s t : State} (h : assemble tone w c2 s = .ok t) :
    t.prevC2 = s.prevC2 := by
  have push : ∀ {bit : Bool} {u : State}, pushBit bit c2 u = .ok t → t.prevC2 = u.prevC2 := by
    intro bit u h
    unfold pushBit at h
    split at h
    · rw [frame_framerOnly h]; rfl
    · cases h; rfl
  unfold assemble at h
  split at h
  case h_6 => exact push (u := setAsm { s.asm with cycle := 0#2 } s) h
  case h_7 =>
    split at h
    · exact push (u := setAsm { s.asm with cycle := 0#2 } s) h
    · cases h; rfl
  case h_9 => split at h <;> cases h <;> rfl
  all_goals cases h; rfl

/-- `classify` (R350). -/
theorem classify_step {w : Word} {c2 : Time} {s t : State} (h : classify w c2 s = .ok t) :
    AssemblerStep s t ∧ t.prevC2 = some c2 := by
  unfold classify at h
  have hs := assemble_step h
  refine ⟨⟨AssemblerOnly.trans (t := { s with prevC2 := some c2 }) rfl hs.only, hs.events, hs.asm, hs.blk, hs.wf,
    hs.memory⟩, assemble_prevC2 h⟩

theorem classify_answers {w : Word} {s : State} (c2 : Time) (hs : s.blk.ok s.par.crc) :
    ∃ t, classify w c2 s = .ok t := assemble_answers c2 hs

/-- A confirmed pulse (R300): a PULSE event, and classification exactly when it is accepted. -/
theorem completePulse_step {start stop : Word} {peak : Analog} {s t : State} (h : completePulse start stop peak s = .ok t) :
    AssemblerOnly s t ∧
      (∃ es, tailOrder es ∧ t.output = s.output ++ .pulse start stop peak (accepted s peak) :: es) ∧
      (s.asm.ok → t.asm.ok) ∧ (s.blk.ok s.par.crc → t.blk.ok s.par.crc) ∧
      (Memory.wf s.pbuf = true → Memory.wf t.pbuf = true) ∧
      (Memory.wf s.pbuf = true → ∀ a, s.blk.fr ≠ .data ∨ a ≠ s.blk.frCnt.toNat → memRead t.pbuf a = memRead s.pbuf a) ∧
      (t.prevC2 = s.prevC2 ∨ t.prevC2 = some (doubledCentre start stop)) := by
  unfold completePulse at h; dsimp only at h
  split at h
  · obtain ⟨hs, hp⟩ := classify_step h
    obtain ⟨es, he, ho⟩ := hs.events
    refine ⟨AssemblerOnly.trans ?_ hs.only, ⟨es, he, by rw [ho]; simp [emit]⟩, hs.asm, hs.blk, hs.wf, hs.memory, .inr hp⟩
    rfl
  · cases h
    exact ⟨rfl, ⟨[], Or.inl rfl, rfl⟩, id, id, id, fun _ _ _ => rfl, .inl rfl⟩

theorem completePulse_answers {start stop : Word} {peak : Analog} {s : State} (hs : s.blk.ok s.par.crc) :
    ∃ t, completePulse start stop peak s = .ok t := by
  unfold completePulse; dsimp only
  split
  · exact classify_answers (s := emit _ s) _ hs
  · exact ⟨_, rfl⟩

theorem pipelineOrder_nil : pipelineOrder [] := Or.inl rfl

theorem pipelineOrder_cons {p : Event} {es : List Event} (hp : isPulse p = true) (h : tailOrder es) :
    pipelineOrder (p :: es) := by
  refine Or.inr ⟨p, hp, ?_⟩
  rcases h with rfl | ⟨f, hf, rfl⟩ | ⟨b, r, hb, hr, rfl⟩
  · exact .inl rfl
  · exact .inr (.inl ⟨f, hf, rfl⟩)
  · exact .inr (.inr ⟨b, r, hb, hr, rfl⟩)

/-- What every unit of the pipeline keeps, and the order of the events it adds (R620). -/
structure PipelineStep (s t : State) : Prop where
  only   : PipelineOnly s t
  events : ∃ es, pipelineOrder es ∧ t.output = s.output ++ es
  asm    : s.asm.ok → t.asm.ok
  blk    : s.blk.ok s.par.crc → t.blk.ok s.par.crc
  wf     : Memory.wf s.pbuf = true → Memory.wf t.pbuf = true
  memory : Memory.wf s.pbuf = true → ∀ a, s.blk.fr ≠ .data ∨ a ≠ s.blk.frCnt.toNat → memRead t.pbuf a = memRead s.pbuf a

theorem PipelineStep.refl (s : State) : PipelineStep s s :=
  ⟨rfl, ⟨[], pipelineOrder_nil, by simp⟩, id, id, id, fun _ _ _ => rfl⟩

theorem PipelineStep.trans_setFe {f : FrontEnd} {s t : State} (h : PipelineStep (setFe f s) t) : PipelineStep s t where
  only := PipelineOnly.trans (t := setFe f s) rfl h.only
  events := h.events
  asm := h.asm
  blk := h.blk
  wf := h.wf
  memory := h.memory

theorem setDet_step (d : Detector) (s : State) : PipelineStep s (setDet d s) :=
  ⟨rfl, ⟨[], pipelineOrder_nil, by simp⟩, id, id, id, fun _ _ _ => rfl⟩

theorem setFe_step (f : FrontEnd) (s : State) : PipelineStep s (setFe f s) :=
  ⟨rfl, ⟨[], pipelineOrder_nil, by simp⟩, id, id, id, fun _ _ _ => rfl⟩

/-- A pipeline step after an update of the front end and of the free-value counter. -/
theorem PipelineStep.after_front {s t : State} {f : FrontEnd} {k : Nat}
    (h : PipelineStep { setFe f s with freeUse := k } t) : PipelineStep s t where
  only := PipelineOnly.trans (t := { setFe f s with freeUse := k }) rfl h.only
  events := h.events
  asm := h.asm
  blk := h.blk
  wf := h.wf
  memory := h.memory

/-- What `detect` can do (R300): one of five cases. -/
theorem detect_cases {y : Analog} {n : Word} {s t : State} (h : detect y n s = .ok t) :
    (s.det.inPulse = true ∧ y > 0 ∧ t = setDet { s.det with zRun := 0#32, pPeak := maxQ s.det.pPeak y } s) ∨
    (s.det.inPulse = true ∧ ¬ y > 0 ∧ s.cfg.zeroCount.toNat ≤ s.det.zRun.toNat + 1 ∧
      completePulse s.det.pStart (s.det.markZero n).zStart s.det.pPeak
        (setDet { s.det.markZero n with inPulse := false, zRun := 0#32 } s) = .ok t) ∨
    (s.det.inPulse = true ∧ ¬ y > 0 ∧ s.det.zRun.toNat + 1 < s.cfg.zeroCount.toNat ∧
      t = setDet { s.det.markZero n with zRun := s.det.zRun + 1 } s) ∨
    (s.det.inPulse = false ∧ y > 0 ∧
      t = setDet { s.det with inPulse := true, pStart := n, pPeak := y, zRun := 0#32 } s) ∨
    (s.det.inPulse = false ∧ ¬ y > 0 ∧ t = s) := by
  unfold detect at h
  split at h
  · rename_i hin
    split at h
    · cases h; exact .inl ⟨hin, ‹_›, rfl⟩
    · split at h
      · exact .inr (.inl ⟨hin, ‹_›, ‹_›, h⟩)
      · cases h; exact .inr (.inr (.inl ⟨hin, ‹_›, by omega, rfl⟩))
  · rename_i hin
    have hin : s.det.inPulse = false := by simpa using hin
    split at h
    · cases h; exact .inr (.inr (.inr (.inl ⟨hin, ‹_›, rfl⟩)))
    · cases h; exact .inr (.inr (.inr (.inr ⟨hin, ‹_›, rfl⟩)))

/-- `detect` (R300). -/
theorem detect_step {y : Analog} {n : Word} {s t : State} (h : detect y n s = .ok t) : PipelineStep s t := by
  rcases detect_cases h with ⟨-, -, rfl⟩ | ⟨-, -, -, hc⟩ | ⟨-, -, -, rfl⟩ | ⟨-, -, rfl⟩ | ⟨-, -, rfl⟩
  · exact setDet_step _ s
  · obtain ⟨ho, ⟨es, he, hout⟩, ha, hb, hw, hm, -⟩ := completePulse_step hc
    exact ⟨PipelineOnly.trans (t := setDet _ s) rfl ho.toPipeline, ⟨_, pipelineOrder_cons rfl he, hout⟩, ha, hb, hw, hm⟩
  · exact setDet_step _ s
  · exact setDet_step _ s
  · exact .refl _

theorem detect_answers {s : State} (y : Analog) (n : Word) (hs : s.blk.ok s.par.crc) : ∃ t, detect y n s = .ok t := by
  unfold detect
  split
  · split
    · exact ⟨_, rfl⟩
    · split
      · exact completePulse_answers (s := setDet _ s) hs
      · exact ⟨_, rfl⟩
  · split <;> exact ⟨_, rfl⟩

/-- `meanState` changes MSUM, MCNT and the free-value counter, and nothing else (R265). -/
theorem meanState_eq (x : Analog) (s : State) :
    meanState x s = { s with
      fe := { s.fe with msum := (meanState x s).fe.msum, mcnt := (meanState x s).fe.mcnt }
      freeUse := (meanState x s).freeUse } := by
  unfold meanState
  split
  · split <;> rfl
  · rfl

/-- The front end after `afe` has updated it (R250). -/
def afeFront (x : Analog) (s : State) : FrontEnd :=
  { (meanState x s).fe with
    v1 := stageUpdate s.fe.v1 (stageInput x s) (q16 s.cfg.k1)
    v2 := stageUpdate s.fe.v2 (stageUpdate s.fe.v1 (stageInput x s) (q16 s.cfg.k1)) (q16 s.cfg.k2) }

/-- `afe` is `detect` of the envelope after an update of the front end (R250). -/
theorem afe_eq (x : Analog) (n : Word) (s : State) :
    afe x n s =
      detect (envelope (stageUpdate s.fe.v1 (stageInput x s) (q16 s.cfg.k1)) s.fe.v2) n
        { setFe (afeFront x s) s with freeUse := (meanState x s).freeUse } := by
  unfold afe afeFront; dsimp only
  rw [meanState_eq]; rfl

theorem afe_step {x : Analog} {n : Word} {s t : State} (h : afe x n s = .ok t) : PipelineStep s t := by
  rw [afe_eq] at h
  exact (detect_step h).after_front

theorem afe_answers {s : State} (x : Analog) (n : Word) (hs : s.blk.ok s.par.crc) : ∃ t, afe x n s = .ok t := by
  rw [afe_eq]
  exact detect_answers _ _ hs

theorem spike_step {x : Analog} {n : Word} {s t : State} (h : spike x n s = .ok t) : PipelineStep s t := by
  unfold spike at h; dsimp only at h
  split at h
  · cases h; exact setFe_step _ s
  · cases h; exact setFe_step _ s
  · exact (afe_step h).trans_setFe

theorem spike_answers {s : State} (x : Analog) (n : Word) (hs : s.blk.ok s.par.crc) : ∃ t, spike x n s = .ok t := by
  unfold spike; dsimp only
  split
  · exact ⟨_, rfl⟩
  · exact ⟨_, rfl⟩
  · exact afe_answers (s := setFe _ s) _ _ hs

/-- `frontEnd` (R216). -/
theorem frontEnd_step {x : Analog} {n : Word} {s t : State} (h : frontEnd x n s = .ok t) : PipelineStep s t := by
  unfold frontEnd at h
  split at h
  · exact detect_step h
  · split at h
    · exact spike_step h
    · exact afe_step h

/-- `frontEnd` answers in every state that meets the framer's law. -/
theorem frontEnd_answers {s : State} (x : Analog) (n : Word) (hs : s.blk.ok s.par.crc) :
    ∃ t, frontEnd x n s = .ok t := by
  unfold frontEnd
  split
  · exact detect_answers _ _ hs
  · split
    · exact spike_answers _ _ hs
    · exact afe_answers _ _ hs

/-- What `takeSample` can do: skip below START_IDX (R211), or run the front end; then count (R210). -/
theorem takeSample_cases {x : Analog} {s t : State} (h : takeSample x s = .ok t) :
    (s.n < s.cfg.startIdx ∧ t = countSample s) ∨
      (s.cfg.startIdx ≤ s.n ∧ ∃ u, frontEnd x s.n s = .ok u ∧ t = countSample u) := by
  unfold takeSample at h
  split at h
  · rename_i hle
    split at h
    · cases h
    · rename_i u hu; cases h; exact .inr ⟨hle, u, hu, rfl⟩
  · rename_i hle; cases h; exact .inl ⟨BitVec.not_le.mp hle, rfl⟩

theorem takeSample_answers {s : State} (x : Analog) (hs : s.blk.ok s.par.crc) : ∃ t, takeSample x s = .ok t := by
  unfold takeSample
  split
  · obtain ⟨u, hu⟩ := frontEnd_answers x s.n hs
    rw [hu]; exact ⟨_, rfl⟩
  · exact ⟨_, rfl⟩

/-- A format that stands in CTRL has a normalised sample (R140). -/
theorem normalise_answers {fmt : BitVec 2} (data : Word) (h : fmt ≠ 3#2) : ∃ x, normalise fmt data = some x := by
  unfold normalise
  have : fmt.toNat = 0 ∨ fmt.toNat = 1 ∨ fmt.toNat = 2 := by
    have := fmt.isLt
    have : fmt.toNat ≠ 3 := fun h' => h (BitVec.eq_of_toNat_eq h')
    omega
  rcases this with h | h | h <;> rw [h] <;> exact ⟨_, rfl⟩

end Sys2Proof.Machine
end

