-- ==== Sys2Proof/Laws/Detector.lean ====
section
/-! SUPPORT. What the detector and the analog front end keep of the laws of R47, R48, R317 and R422. -/

namespace Sys2Proof.Machine

open Sys2Proof.Safety

/-- `clamp` lies in its bounds (R12). -/
theorem clamp_bounds (v : ℚ) {lo hi : ℚ} (h : lo ≤ hi) : lo ≤ clamp v lo hi ∧ clamp v lo hi ≤ hi := by
  unfold clamp; split_ifs <;> constructor <;> linarith

/-- The last classified centre lies before index `k` and before an open pulse (R317). -/
def CentreBefore (k : Nat) (s : State) : Prop :=
  ∀ c, s.prevC2 = some c → c.toNat < 2 * k ∧ (s.det.inPulse = true → c.toNat < 2 * s.det.pStart.toNat)

/-- The doubled centre does not wrap (R317). -/
theorem doubledCentre_toNat (a b : Word) : (doubledCentre a b).toNat = a.toNat + b.toNat := by
  unfold doubledCentre
  rw [BitVec.toNat_add, BitVec.toNat_setWidth, BitVec.toNat_setWidth]
  have := a.isLt; have := b.isLt
  omega

/-- A counter below its last value does not wrap. -/
theorem word_toNat_succ {x : Word} (h : x.toNat + 1 < 2 ^ 32) : (x + 1).toNat = x.toNat + 1 := by
  rw [BitVec.toNat_add]; simp; omega


/-- What the units after the classifier do to BLK_TIME at a byte or fault time `c2` (R422, R449). -/
def BlockTimeFrom (c2 : Time) (s t : State) : Prop :=
  t.blk.fr = .hunt ∨ t.blk.blkTime = c2 ∨ (s.blk.fr ≠ .hunt ∧ t.blk.blkTime = s.blk.blkTime)

theorem Framer.advance_blkTime (k : BitVec 9) (n : FrState) (f : Framer) : (f.advance k n).blkTime = f.blkTime := by
  unfold Framer.advance; split <;> rfl

theorem Framer.nameByte_blkTime (t10 : Bool) (b : Byte) (f : Framer) : (f.nameByte t10 b).blkTime = f.blkTime := by
  unfold Framer.nameByte; repeat' split
  all_goals rfl

theorem frame_blockTime {b : Byte} {c2 : Time} {s t : State} (h : frame b c2 s = .ok t) : BlockTimeFrom c2 s t := by
  have hc1 : (coverHeader b s).blk.fr = s.blk.fr := by unfold coverHeader; split <;> rfl
  have hc2 : (coverHeader b s).blk.blkTime = s.blk.blkTime := by unfold coverHeader; split <;> rfl
  unfold BlockTimeFrom
  rw [← hc1, ← hc2]
  unfold frame frameByState at h
  split at h <;> rename_i hfr <;> rw [hfr]
  case h_1 =>
    cases h
    unfold huntByte
    split
    · exact .inl hfr
    · right; left; rfl
  case h_2 => cases h; right; right; exact ⟨by decide, Framer.nameByte_blkTime _ _ _⟩
  case h_3 => cases h; right; right; exact ⟨by decide, rfl⟩
  case h_4 => cases h; right; right; exact ⟨by decide, Framer.advance_blkTime _ _ _⟩
  case h_5 => cases h; right; right; exact ⟨by decide, Framer.advance_blkTime _ _ _⟩
  case h_6 => cases h; right; right; exact ⟨by decide, Framer.advance_blkTime _ _ _⟩
  case h_7 =>
    cases h
    simp only [lenByte]
    split_ifs
    · left; rfl
    · right; right; exact ⟨by decide, rfl⟩
    · right; right; exact ⟨by decide, rfl⟩
  case h_8 => cases h; right; right; exact ⟨by decide, rfl⟩
  case h_9 => cases h; right; right; exact ⟨by decide, Framer.advance_blkTime _ _ _⟩
  case h_10 =>
    cases h
    unfold hcrcByte; dsimp only
    split
    · split
      · left; rfl
      · right; right; exact ⟨by decide, rfl⟩
    · right; right; exact ⟨by decide, rfl⟩
  case h_11 =>
    unfold dataByte at h; dsimp only at h
    split at h
    · cases h
    · split at h <;> cases h <;> right <;> right <;> exact ⟨by decide, rfl⟩
  case h_12 =>
    unfold pcrcByte emitBlock at h; dsimp only at h
    split at h
    · split at h
      · cases h; left; rfl
      · split at h <;> cases h
        left; rfl
    · cases h; right; right; exact ⟨by decide, rfl⟩

theorem BlockTimeFrom.refl (c2 : Time) (s : State) : BlockTimeFrom c2 s s := by
  by_cases h : s.blk.fr = .hunt
  · exact .inl h
  · exact .inr (.inr ⟨h, rfl⟩)

theorem pushBit_blockTime {bit : Bool} {c2 : Time} {s t : State} (h : pushBit bit c2 s = .ok t) : BlockTimeFrom c2 s t := by
  unfold pushBit at h
  split at h
  · exact frame_blockTime (s := completeByte _ c2 s) h
  · cases h; exact BlockTimeFrom.refl c2 s

theorem assemble_blockTime {tone : Tone} {w : Word} {c2 : Time} {s t : State} (h : assemble tone w c2 s = .ok t) : BlockTimeFrom c2 s t := by
  unfold assemble at h
  split at h
  case h_1 => cases h; exact BlockTimeFrom.refl c2 s
  case h_6 => exact pushBit_blockTime (s := setAsm { s.asm with cycle := 0#2 } s) h
  case h_7 =>
    split at h
    · exact pushBit_blockTime (s := setAsm { s.asm with cycle := 0#2 } s) h
    · cases h; exact BlockTimeFrom.refl c2 s
  case h_8 => cases h; left; rfl
  case h_9 => split at h <;> cases h <;> exact BlockTimeFrom.refl c2 s
  all_goals cases h; exact BlockTimeFrom.refl c2 s

/-- The block in progress began at a centre already classified (R422). -/
def BlockTimeKnown (s : State) : Prop := s.blk.fr ≠ .hunt → ∃ c, s.prevC2 = some c ∧ s.blk.blkTime ≤ c

theorem completePulse_blockTime {start stop : Word} {peak : Analog} {s t : State} (h : completePulse start stop peak s = .ok t)
    (hi : BlockTimeKnown s) (hlt : ∀ c, s.prevC2 = some c → c ≤ doubledCentre start stop) : BlockTimeKnown t := by
  unfold completePulse at h; dsimp only at h
  split at h
  · have hp := (classify_step h).2
    have hb := assemble_blockTime h
    intro hne
    refine ⟨_, hp, ?_⟩
    rcases hb with hb | hb | ⟨hb, hb'⟩
    · exact absurd hb hne
    · rw [hb]; exact BitVec.le_refl _
    · obtain ⟨c, hc, hle⟩ := hi hb
      rw [hb']
      exact BitVec.le_trans hle (hlt c hc)
  · cases h; exact hi

/-- What `detect` at index `n` keeps (R300 to R317). -/
theorem detect_law {y : ℚ} {n : Word} {s t : State} (hy : y ≤ 1) (hz0 : 0 < s.cfg.zeroCount.toNat)
    (hd : s.det.ok s.cfg.zeroCount.toNat n.toNat) (hc : CentreBefore n.toNat s) (hbt : BlockTimeKnown s) (h : detect y n s = .ok t) :
    t.det.ok s.cfg.zeroCount.toNat (n.toNat + 1) ∧ CentreBefore (n.toNat + 1) t ∧ t.fe = s.fe ∧ t.freeUse = s.freeUse ∧ BlockTimeKnown t := by
  rcases detect_cases h with ⟨hin, hy0, rfl⟩ | ⟨hin, hy0, hz, hcp⟩ | ⟨hin, hy0, hz, rfl⟩ | ⟨hin, hy0, rfl⟩ | ⟨hin, hy0, rfl⟩
  · obtain ⟨h1, h2, h3, h4, h5⟩ := hd hin
    refine ⟨fun _ => ⟨?_, ?_, ?_, ?_, ?_⟩, ?_, rfl, rfl, hbt⟩
    · simp; omega
    · simp only [setDet_det, maxQ]; split <;> assumption
    · simp only [setDet_det, maxQ]; split <;> assumption
    · simp; omega
    · simp
    · intro c hcc
      have := hc c hcc
      simp [hin] at *; omega
  · obtain ⟨h1, h2, h3, h4, h5⟩ := hd hin
    obtain ⟨ho, -, -, -, -, -, hp⟩ := completePulse_step hcp
    have hzs : (s.det.markZero n).zStart.toNat ≤ n.toNat := by
      unfold Detector.markZero; split
      · simp
      · rename_i hz; exact (h5 hz).2.le
    refine ⟨?_, ?_, by rw [ho.fe]; rfl, by rw [ho.freeUse]; rfl, completePulse_blockTime hcp hbt ?_⟩
    rotate_left 2
    · intro c hcc
      have := (hc c hcc).2 hin
      have hzt : s.det.pStart.toNat < (s.det.markZero n).zStart.toNat := by
        unfold Detector.markZero; split
        · exact h1
        · rename_i hz; exact (h5 hz).1
      rw [BitVec.le_def, doubledCentre_toNat]; omega
    · rw [ho.det]; intro hh; simp at hh
    · intro c hcc
      rw [ho.det]
      refine ⟨?_, by simp⟩
      rcases hp with hp | hp
      · rw [hp] at hcc; have := hc c hcc; omega
      · rw [hp] at hcc; cases hcc
        rw [doubledCentre_toNat]; omega
  · obtain ⟨h1, h2, h3, h4, h5⟩ := hd hin
    have hzc := s.cfg.zeroCount.isLt
    have hsucc := word_toNat_succ (x := s.det.zRun) (by omega)
    have e1 : (s.det.markZero n).pStart = s.det.pStart := by unfold Detector.markZero; split <;> rfl
    have e2 : (s.det.markZero n).pPeak = s.det.pPeak := by unfold Detector.markZero; split <;> rfl
    have e3 : (s.det.markZero n).inPulse = s.det.inPulse := by unfold Detector.markZero; split <;> rfl
    refine ⟨fun _ => ⟨?_, ?_, ?_, ?_, ?_⟩, ?_, rfl, rfl, hbt⟩
    · simp only [setDet_det, e1]; omega
    · simpa only [setDet_det, e2] using h2
    · simpa only [setDet_det, e2] using h3
    · simp only [setDet_det]; omega
    · intro _
      simp only [setDet_det, e1]
      unfold Detector.markZero; split
      · simp; omega
      · rename_i hz; have := h5 hz; omega
    · intro c hcc
      have := hc c hcc
      simp only [setDet_det, e1, e3]
      constructor
      · omega
      · exact this.2
  · refine ⟨fun _ => ⟨?_, ?_, ?_, ?_, ?_⟩, ?_, rfl, rfl, hbt⟩
    · simp
    · simpa using hy0
    · simpa using hy
    · simpa using hz0
    · simp
    · intro c hcc
      have := hc c hcc
      simp; omega
  · refine ⟨fun hh => ?_, ?_, rfl, rfl, hbt⟩
    · rw [hin] at hh; cases hh
    · intro c hcc
      have := hc c hcc
      exact ⟨by omega, this.2⟩

theorem Detector.ok_mono {zc k k' : Nat} {d : Detector} (h : k ≤ k') (hd : d.ok zc k) : d.ok zc k' := by
  intro hin
  obtain ⟨h1, h2, h3, h4, h5⟩ := hd hin
  exact ⟨by omega, h2, h3, h4, fun hz => ⟨(h5 hz).1, by have := (h5 hz).2; omega⟩⟩

theorem CentreBefore.mono {k k' : Nat} {s : State} (h : k ≤ k') (hc : CentreBefore k s) : CentreBefore k' s := by
  intro c hcc
  have := hc c hcc
  exact ⟨by omega, this.2⟩

theorem meanState_mcnt {x : ℚ} {s : State} (h : s.fe.mcnt.toNat ≤ s.n.toNat) :
    s.n = 0xFFFFFFFF#32 ∨ (meanState x s).fe.mcnt.toNat ≤ s.n.toNat + 1 := by
  unfold meanState
  split
  · split
    · rename_i hm
      left
      rw [hm] at h
      have := s.n.isLt
      exact BitVec.eq_of_toNat_eq (by simp at *; omega)
    · right
      simp only [setFe_fe]
      rename_i hm
      rw [word_toNat_succ]
      · omega
      · have := s.fe.mcnt.isLt
        have : s.fe.mcnt.toNat ≠ 0xFFFFFFFF := fun e => hm (BitVec.eq_of_toNat_eq (by simpa using e))
        omega
  · right; omega

theorem meanState_spkQ (x : ℚ) (s : State) : (meanState x s).fe.spkQ = s.fe.spkQ := by
  unfold meanState; split
  · split <;> rfl
  · rfl

/-- What `afe` at index `n` keeps. -/
theorem afe_law {x : ℚ} {n : Word} {s t : State} (hz0 : 0 < s.cfg.zeroCount.toNat)
    (hd : s.det.ok s.cfg.zeroCount.toNat n.toNat) (hc : CentreBefore n.toNat s) (hbt : BlockTimeKnown s) (h : afe x n s = .ok t) :
    t.det.ok s.cfg.zeroCount.toNat (n.toNat + 1) ∧ CentreBefore (n.toNat + 1) t ∧
    t.fe = afeFront x s ∧ BlockTimeKnown t := by
  rw [afe_eq] at h
  obtain ⟨h1, h2, h3, h4, h5⟩ := detect_law (clamp_bounds _ (by norm_num)).2 (by exact hz0) (by exact hd) (by exact hc) (by exact hbt) h
  exact ⟨h1, h2, h3, h5⟩

theorem afeFront_voltages (x : ℚ) (s : State) : (-1 ≤ (afeFront x s).v1 ∧ (afeFront x s).v1 ≤ 1) ∧ (-1 ≤ (afeFront x s).v2 ∧ (afeFront x s).v2 ≤ 1) :=
  ⟨clamp_bounds _ (by norm_num), clamp_bounds _ (by norm_num)⟩

end Sys2Proof.Machine
end

