-- ==== Sys2Proof/Laws/PerInstr.lean ====
section
/-! SUPPORT. Statements made once per command. -/

namespace Sys2Proof.Laws

/-- The match and mask of the command's row in spec/opcode_table.json. -/
def tableRow : Instr → CmdWord × CmdWord
  | .nop => (0x000000000000#48, 0xFFFFFFFFFFFF#48)
  | .sample _ => (0x100000000000#48, 0xFFFFFFFF0000#48)
  | .endStream => (0x200000000000#48, 0xFFFFFFFFFFFF#48)
  | .cfgWrite _ _ => (0x300000000000#48, 0xF0FF00000000#48)
  | .cfgRead _ => (0x400000000000#48, 0xF0FFFFFFFFFF#48)
  | .sessionReset => (0x500000000000#48, 0xFFFFFFFFFFFF#48)

/-- Under FMT 00, the word of a well-formed command matches its row: the masked bits are the row's. -/
def EncodeMatchesTable.Statement (i : Instr) : Prop :=
  i.wellFormed 0#2 = true → encode i &&& (tableRow i).2 = (tableRow i).1

theorem EncodeMatchesTable.nop : EncodeMatchesTable.Statement .nop := fun _ => by decide

theorem EncodeMatchesTable.sample (data : Word) : EncodeMatchesTable.Statement (.sample data) := by
  intro h
  have h : data.extractLsb' 16 16 = 0#16 := by simpa [Instr.wellFormed, sampleDataFits] using h
  have hd : ∀ j, j < 16 → data.getLsbD (16 + j) = false := by
    intro j hj
    have hb := congrArg (fun x : BitVec 16 => x.getLsbD j) h
    simpa [BitVec.getLsbD_extractLsb', hj] using hb
  show packWord 0x1#4 0#4 data &&& 0xFFFFFFFF0000#48 = 0x100000000000#48
  apply BitVec.eq_of_getLsbD_eq
  intro i hi
  rw [BitVec.getLsbD_and, packWord, BitVec.getLsbD_append, BitVec.getLsbD_append, BitVec.getLsbD_append]
  by_cases h16 : 16 ≤ i ∧ i < 32
  · have hz := hd (i - 16) (by omega)
    rw [show 16 + (i - 16) = i by omega] at hz
    rw [if_pos h16.2, hz]
    obtain ⟨h1, h2⟩ := h16
    interval_cases i <;> rfl
  · generalize data.getLsbD i = q
    interval_cases i <;> revert q <;> simp at h16 ⊢

theorem EncodeMatchesTable.endStream : EncodeMatchesTable.Statement .endStream := fun _ => by decide

theorem EncodeMatchesTable.cfgWrite (addr : RegAddr) (data : Word) :
    EncodeMatchesTable.Statement (.cfgWrite addr data) := by
  intro _
  show packWord 0x3#4 addr data &&& 0xF0FF00000000#48 = 0x300000000000#48
  apply BitVec.eq_of_getLsbD_eq
  intro i hi
  rw [BitVec.getLsbD_and, packWord, BitVec.getLsbD_append, BitVec.getLsbD_append, BitVec.getLsbD_append]
  generalize data.getLsbD i = q
  generalize addr.getLsbD (i - 32 - 8) = r
  interval_cases i <;> revert q r <;> decide

theorem EncodeMatchesTable.cfgRead (addr : RegAddr) : EncodeMatchesTable.Statement (.cfgRead addr) := by
  intro _
  show packWord 0x4#4 addr 0#32 &&& 0xF0FFFFFFFFFF#48 = 0x400000000000#48
  revert addr; decide

theorem EncodeMatchesTable.sessionReset : EncodeMatchesTable.Statement .sessionReset := fun _ => by decide

end Sys2Proof.Laws
end

