-- ==== Sys2Proof/Laws/Run.lean ====
section
/-! SUPPORT. What a run and its observation can be (40_commands.md R245). -/

namespace Sys2Proof.Machine

@[simp] theorem runFrom_nil (s : State) : runFrom [] s = .next s := rfl

theorem runFrom_cons_of_next {w : CmdWord} {ws : List CmdWord} {s t : State} (h : step (pushCommand w s) = .next t) :
    runFrom (w :: ws) s = runFrom ws t := by simp only [runFrom, h]

/-- A run goes on where its first part ended. -/
theorem runFrom_append_of_next {ws vs : List CmdWord} {s t : State} (h : runFrom ws s = .next t) :
    runFrom (ws ++ vs) s = runFrom vs t := by
  induction ws generalizing s with
  | nil => cases h; rfl
  | cons w ws ih =>
    simp only [runFrom, List.cons_append] at h ⊢
    split at h <;> first | exact ih h | cases h

/-- No command is taken in a refused state (R36, R200). -/
theorem runFrom_of_refused {w : CmdWord} {ws : List CmdWord} {s : State} (h : s.refused ≠ none) :
    runFrom (w :: ws) s = .refused .adaptiveTrackingUnmodelled := by
  have hs : step (pushCommand w s) = .refused .adaptiveTrackingUnmodelled := by
    rcases hr : s.refused with _ | ⟨⟨⟩⟩
    · exact absurd hr h
    · simp only [step, pushCommand, hr]
  simp only [runFrom, hs]

/-- Everything an observation can be: the output port at the end of a run that is not refused. -/
theorem observation_eq_some {p : Params} {ws : List CmdWord} {es : List Event} :
    observation p ws = some es ↔ ∃ t, run p ws = .next t ∧ t.refused = none ∧ t.output = es := by
  unfold observation
  split
  · rename_i t h
    simp [h]
  · rename_i h
    simp [h]
  · rename_i h
    simp [h]

/-- A run whose first part ends in a refused state has no observation, whatever follows (R245). -/
theorem observation_of_refused {p : Params} {ws vs : List CmdWord} {t : State} (h : run p ws = .next t)
    (hr : t.refused ≠ none) : observation p (ws ++ vs) = none := by
  have ha : run p (ws ++ vs) = runFrom vs t := runFrom_append_of_next h
  unfold observation
  rw [ha]
  cases vs with
  | nil => simp [hr]
  | cons v vs => rw [runFrom_of_refused hr]

end Sys2Proof.Machine
end

