-- ==== Sys2Proof/Machine/CommandSyntax.lean ====
section
/-! DEFINITION. The assembler syntax of the commands and the pseudo-instructions (30_encoding.md R180, R181): text to
lines, lines to commands, commands to words. A tool beside the machine: no step uses it. -/

namespace Sys2Proof.Machine

/-- One line of R180 that stands for one command. -/
inductive AsmCmd where
  | nop
  | sample (c : Int)
  | endStream
  | cfgw (reg : RegAddr) (v : Word)
  | cfgr (reg : RegAddr)
  | srst
  deriving DecidableEq, Repr

/-- The DATA field of `SAMPLE c` (R180): the low 16 or the low 8 bits of the two's-complement code, upper bits 0.
R180 has no row for FMT 11, which never stands in CTRL; here it is taken as an 8-bit format. DESIGN CHOICE: log
entry 20. -/
def sampleData (fmt : BitVec 2) (c : Int) : Word :=
  if fmt = 0#2 then (BitVec.ofInt 16 c).setWidth 32 else (BitVec.ofInt 8 c).setWidth 32

/-- The command of a line, under the sample format `fmt` (R180). Where `fmt` comes from is log entry 20. -/
def AsmCmd.instr (fmt : BitVec 2) : AsmCmd → Instr
  | .nop => .nop
  | .sample c => .sample (sampleData fmt c)
  | .endStream => .endStream
  | .cfgw reg v => .cfgWrite reg v
  | .cfgr reg => .cfgRead reg
  | .srst => .sessionReset

/-- The word of a line (R180). -/
def AsmCmd.word (fmt : BitVec 2) (c : AsmCmd) : CmdWord := encode (c.instr fmt)

/-- The constants of the directive `.tone WL, WH, ZC` (R181). -/
structure ToneConsts where
  wl : Nat
  wh : Nat
  zc : Nat
  deriving DecidableEq, Repr

/-- A line: a command, the directive, or a pseudo-instruction (R181). -/
inductive AsmLine where
  | cmd (c : AsmCmd)
  | tone (t : ToneConsts)
  | rep (x : Nat) (line : AsmLine)
  | pulse (w z : Nat)
  | lowp
  | highp
  | bit0
  | bit1
  | leader (x : Nat)
  | byte (b : Byte)
  | bytes (bs : List Byte)
  deriving Repr

/-- `x × I` (R181). -/
def timesCmds (x : Nat) (l : List AsmCmd) : List AsmCmd := (List.replicate x l).flatten

/-- `PULSE w, z` (R181). -/
def pulseCmds (w z : Nat) : List AsmCmd := List.replicate w (.sample 16384) ++ List.replicate z (.sample 0)

/-- `LOWP` and `BIT0` (R181). -/
def lowpCmds (t : ToneConsts) : List AsmCmd := pulseCmds t.wl t.zc

/-- `HIGHP` (R181). -/
def highpCmds (t : ToneConsts) : List AsmCmd := pulseCmds t.wh t.zc

/-- `BIT0` or `BIT1` (R181). -/
def bitCmds (t : ToneConsts) (bit : Bool) : List AsmCmd :=
  if bit then highpCmds t ++ highpCmds t else lowpCmds t

/-- `BYTE b` (R181): a start bit, the eight bits from the least significant, a stop bit. -/
def byteCmds (t : ToneConsts) (b : Byte) : List AsmCmd :=
  bitCmds t false ++ ((List.range 8).map fun i => bitCmds t (b.getLsbD i)).flatten ++ bitCmds t true

/-- What a line expands to (R181). A line that needs the tone constants has no expansion before a `.tone` (log
entry 9). R181 does not say whether the line I of `REP x, I` may be the directive `.tone`: here it may, and it emits
nothing and leaves the tone constants as they are. DESIGN CHOICE: log entry 21. -/
def AsmLine.expand (t : Option ToneConsts) : AsmLine → Option (List AsmCmd)
  | .cmd c => some [c]
  | .tone _ => some []
  | .rep x line => (line.expand t).map (timesCmds x)
  | .pulse w z => some (pulseCmds w z)
  | .lowp => t.map lowpCmds
  | .highp => t.map highpCmds
  | .bit0 => t.map fun t => bitCmds t false
  | .bit1 => t.map fun t => bitCmds t true
  | .leader x => t.map fun t => timesCmds x (highpCmds t)
  | .byte b => t.map fun t => byteCmds t b
  | .bytes bs => t.map fun t => (bs.map (byteCmds t)).flatten

/-- The commands of a program: its lines in order, each under the last `.tone` line before it (R181). A `.tone` inside
a `REP` is no such line: it sets nothing. DESIGN CHOICE: log entry 21. -/
def expandProgram : Option ToneConsts → List AsmLine → Option (List AsmCmd)
  | _, [] => some []
  | _, .tone t :: rest => expandProgram (some t) rest
  | t, line :: rest =>
    match line.expand t, expandProgram t rest with
    | some a, some b => some (a ++ b)
    | _, _ => none

/-- The words of a program (R180). R180 does not say where the assembler takes FMT from for `SAMPLE c`: `fmt` is an
argument, one for the whole program, and a `CFGW CTRL` in the program does not change it. DESIGN CHOICE: log
entry 20. -/
def assembleProgram (fmt : BitVec 2) (lines : List AsmLine) : Option (List CmdWord) :=
  (expandProgram none lines).map fun cs => cs.map (AsmCmd.word fmt)

/-- The register names of R180, with their addresses (R37). -/
def regNames : List (List Char × RegAddr) :=
  [(['C','T','R','L'], 0x0#4), (['K','1'], 0x1#4), (['K','2'], 0x2#4), (['G','A','I','N'], 0x3#4),
   (['F','L','O','O','R'], 0x4#4), (['T','H','R','_','L','O','W'], 0x5#4), (['T','H','R','_','H','I','G','H'], 0x6#4),
   (['Z','E','R','O','_','C','O','U','N','T'], 0x7#4), (['S','T','A','R','T','_','I','D','X'], 0x8#4),
   (['S','T','O','P','_','I','D','X'], 0x9#4), (['S','T','A','T','U','S'], 0xA#4),
   (['S','A','M','P','L','E','_','I','D','X'], 0xB#4), (['B','L','O','C','K','_','C','O','U','N','T'], 0xC#4),
   (['F','A','U','L','T','_','C','O','U','N','T'], 0xD#4), (['I','D'], 0xE#4)]

/-- The value of a digit in a base, letters of either case counting from ten. -/
def digitValue (base : Nat) (c : Char) : Option Nat :=
  let k := c.toNat
  let v := if 48 ≤ k ∧ k ≤ 57 then k - 48 else if 65 ≤ k ∧ k ≤ 90 then k - 55 else if 97 ≤ k ∧ k ≤ 122 then k - 87 else base
  if v < base then some v else none

/-- The value of a string of digits, from an accumulator. -/
def digitsValue (base : Nat) : Nat → List Char → Option Nat
  | acc, [] => some acc
  | acc, c :: cs =>
    match digitValue base c with
    | some d => digitsValue base (acc * base + d) cs
    | none => none

/-- A number of R180: decimal, or hexadecimal with `0x`. -/
def parseNat : List Char → Option Nat
  | [] => none
  | ['0', 'x'] => none
  | ['0', 'X'] => none
  | '0' :: 'x' :: cs => digitsValue 16 0 cs
  | '0' :: 'X' :: cs => digitsValue 16 0 cs
  | cs => digitsValue 10 0 cs

/-- A sample code: a number, perhaps with a minus sign. -/
def parseInt : List Char → Option Int
  | '-' :: cs => (parseNat cs).map fun k => -(k : Int)
  | cs => (parseNat cs).map fun k => (k : Int)

/-- A number below `bound`. -/
def parseBelow (bound : Nat) (cs : List Char) : Option Nat :=
  match parseNat cs with
  | some k => if k < bound then some k else none
  | none => none

/-- A character in capitals (R180: mnemonics and register names are case-insensitive). -/
def upperChar (c : Char) : Char := if 97 ≤ c.toNat ∧ c.toNat ≤ 122 then Char.ofNat (c.toNat - 32) else c

/-- A register operand: a name of R37 or a number from 0 to 15 (R180). -/
def parseReg (cs : List Char) : Option RegAddr :=
  match regNames.lookup (cs.map upperChar) with
  | some a => some a
  | none => (parseBelow 16 cs).map (BitVec.ofNat 4)

/-- The bytes of a `BYTES` operand list. -/
def parseBytes : List (List Char) → Option (List Byte)
  | [] => some []
  | t :: ts =>
    match parseBelow 256 t, parseBytes ts with
    | some b, some bs => some (BitVec.ofNat 8 b :: bs)
    | _, _ => none

/-- A line with a mnemonic (in capitals) and its operands, `REP` apart. -/
def parseOperation (m : List Char) (ops : List (List Char)) : Option AsmLine :=
  match m, ops with
  | ['N','O','P'], [] => some (.cmd .nop)
  | ['S','A','M','P','L','E'], [c] => (parseInt c).map fun c => .cmd (.sample c)
  | ['E','N','D'], [] => some (.cmd .endStream)
  | ['C','F','G','W'], [r, v] =>
    match parseReg r, parseBelow (2 ^ 32) v with
    | some r, some v => some (.cmd (.cfgw r (BitVec.ofNat 32 v)))
    | _, _ => none
  | ['C','F','G','R'], [r] => (parseReg r).map fun r => .cmd (.cfgr r)
  | ['S','R','S','T'], [] => some (.cmd .srst)
  | ['.','T','O','N','E'], [a, b, c] =>
    match parseNat a, parseNat b, parseNat c with
    | some a, some b, some c => some (.tone ⟨a, b, c⟩)
    | _, _, _ => none
  | ['P','U','L','S','E'], [w, z] =>
    match parseNat w, parseNat z with
    | some w, some z => some (.pulse w z)
    | _, _ => none
  | ['L','O','W','P'], [] => some .lowp
  | ['H','I','G','H','P'], [] => some .highp
  | ['B','I','T','0'], [] => some .bit0
  | ['B','I','T','1'], [] => some .bit1
  | ['L','E','A','D','E','R'], [x] => (parseNat x).map .leader
  | ['B','Y','T','E'], [b] => (parseBelow 256 b).map fun b => .byte (BitVec.ofNat 8 b)
  | ['B','Y','T','E','S'], bs => (parseBytes bs).map .bytes
  | _, _ => none

/-- The line a list of tokens stands for. -/
def parseTokens : List (List Char) → Option AsmLine
  | [] => none
  | [m] => parseOperation (m.map upperChar) []
  | m :: x :: rest =>
    if m.map upperChar = ['R','E','P'] then
      match parseNat x, parseTokens rest with
      | some k, some line => some (.rep k line)
      | _, _ => none
    else parseOperation (m.map upperChar) (x :: rest)

/-- Whether a character separates tokens. DEDUCED from the examples of R180: blanks and commas; log entry 9. -/
def isSeparator (c : Char) : Bool := c == ' ' || c == ',' || c == '\t' || c == '\r'

/-- The tokens of a line up to its comment, given the token being read (R180: `;` starts a comment). -/
def tokensFrom : List Char → List Char → List (List Char)
  | cur, [] => if cur = [] then [] else [cur]
  | cur, c :: cs =>
    if c = ';' then (if cur = [] then [] else [cur])
    else if isSeparator c then (if cur = [] then tokensFrom [] cs else cur :: tokensFrom [] cs)
    else tokensFrom (cur ++ [c]) cs

/-- One line of text: none when it is wrong, `some none` when it is blank. -/
def parseLine (cs : List Char) : Option (Option AsmLine) :=
  match tokensFrom [] cs with
  | [] => some none
  | ts => (parseTokens ts).map some

/-- The program of a list of text lines (R180: one command per line). -/
def parseProgram : List (List Char) → Option (List AsmLine)
  | [] => some []
  | l :: ls =>
    match parseLine l, parseProgram ls with
    | some (some line), some rest => some (line :: rest)
    | some none, some rest => some rest
    | _, _ => none

/-- The state with the words of a program waiting on its input port, in order. -/
def loadWords (ws : List CmdWord) (s : State) : State := { s with input := s.input ++ ws.map .command }

end Sys2Proof.Machine
end

