-- ==== Sys2Proof/Tests/Slice0.lean ====
section
/-! SUPPORT. Tests of the model against the spec's own examples, and for every obligation with hypotheses concrete
values that meet them. -/

namespace Sys2Proof.Tests

-- One theorem after the other: a hundred checking threads at once can pass the memory limit of a module build.
set_option Elab.async false

open Sys2Proof.Machine Sys2Proof.Safety

/-- The outcome is a next state with the property `p`. -/
def nextWith (o : Host.Outcome State Fault Refusal) (p : State → Bool) : Bool :=
  match o with
  | .next t => p t
  | _ => false

theorem nextWith_spec {o : Host.Outcome State Fault Refusal} {p : State → Bool} (h : nextWith o p = true) :
    ∃ t, o = .next t ∧ p t = true := by
  cases o with
  | next t => exact ⟨t, rfl, h⟩
  | fault _ => cases h
  | refused _ => cases h

/-- The call answers a state with the property `p`. -/
def okWith (r : Except Fault State) (p : State → Bool) : Bool :=
  match r with
  | .ok t => p t
  | .error _ => false

theorem okWith_spec {r : Except Fault State} {p : State → Bool} (h : okWith r p = true) : ∃ t, r = .ok t ∧ p t = true := by
  cases r with
  | ok t => exact ⟨t, rfl, h⟩
  | error _ => cases h

/-- A state with the register CTRL at `v`. -/
def withCtrl (v : Word) (s : State) : State := { s with cfg := { s.cfg with ctrl := v } }

/-! The spec's words: R180 gives the words of its examples, R132 the others. -/

theorem test_decode_nop : decode 0#2 0x000000000000#48 = .ok .nop := by decide
theorem test_decode_sample : decode 0#2 0x10000000FFFF#48 = .ok (.sample 0xFFFF#32) := by decide
theorem test_decode_end : decode 0#2 0x200000000000#48 = .ok .endStream := by decide
theorem test_decode_cfg_write : decode 0#2 0x350000000004#48 = .ok (.cfgWrite 0x5#4 4#32) := by decide
theorem test_decode_cfg_read : decode 0#2 0x4A0000000000#48 = .ok (.cfgRead 0xA#4) := by decide
theorem test_decode_session_reset : decode 0#2 0x500000000000#48 = .ok .sessionReset := by decide
theorem test_decode_reserved_opcodes :
    decode 0#2 0x600000000000#48 = .error .reservedOpcode ∧ decode 0#2 0xF00000000000#48 = .error .reservedOpcode := by
  decide
theorem test_decode_reserved_bits : decode 0#2 0x000100000000#48 = .error .reservedBits := by decide
theorem test_decode_nonzero_addr : decode 0#2 0x210000000000#48 = .error .addrNotZero := by decide
theorem test_decode_nonzero_data : decode 0#2 0x400000000001#48 = .error .dataNotZero := by decide
/-- R131, R134: the same word is well-formed in FMT 00 and malformed in FMT 01 and 10. -/
theorem test_decode_sample_width :
    decode 0#2 0x100000000100#48 = .ok (.sample 0x100#32) ∧ decode 1#2 0x100000000100#48 = .error .sampleTooWide ∧
      decode 2#2 0x100000000100#48 = .error .sampleTooWide ∧ decode 0#2 0x100000010000#48 = .error .sampleTooWide := by
  decide

theorem test_table_word : decodeTableWord 48 0x350000000004 = some (.cfgWrite 0x5#4 4#32) := by decide
theorem test_table_word_refused : decodeTableWord 48 0x600000000000 = none := by decide

/-! WellFormed: the one check, at its boundary for each code width. -/

theorem test_wellFormed_16_bit :
    (Instr.sample 0xFFFF#32).wellFormed 0#2 = true ∧ (Instr.sample 0x10000#32).wellFormed 0#2 = false := by decide
theorem test_wellFormed_8_bit :
    (Instr.sample 0xFF#32).wellFormed 1#2 = true ∧ (Instr.sample 0x100#32).wellFormed 1#2 = false ∧
      (Instr.sample 0x100#32).wellFormed 2#2 = false := by decide

/-! One step of each command. -/

/-- R205's example. -/
theorem test_nop : step (State.reset.withFetchWord 48 0x000000000000) = .next State.reset := by rfl

/-- R210's example: SAMPLE 0 at reset. -/
theorem test_sample_first :
    nextWith (step (State.reset.withFetchWord 48 0x100000000000))
      (fun t => t.session = .active && t.n = 1#32 && t.output = []) = true := by decide +kernel

/-- R282, row n = 0: K1 = K2 = 1/2 and s = 1/2 give V1 = 1/4 and V2 = 1/8, and the positive envelope opens a pulse with
peak 1/4. -/
theorem test_sample_stages :
    nextWith (exec (.sample 0x4000#32) { State.reset with cfg := { State.reset.cfg with k1 := 0x8000#32, k2 := 0x8000#32 } })
      (fun t => t.fe.v1 = 1 / 4 && t.fe.v2 = 1 / 8 && t.det = ⟨true, 0#32, 1 / 4, 0#32, 0#32⟩) = true := by decide +kernel

/-- R220: END in IDLE ends an empty stream. -/
theorem test_end : nextWith (step (State.reset.withFetchWord 48 0x200000000000))
    (fun t => t.session = .done && t.output = [.exhausted .endCommand]) = true := by decide +kernel

/-- R217: END in DONE is rejected. -/
theorem test_end_done : nextWith (exec .endStream { State.reset with session := .done })
    (fun t => t = { State.reset with session := .done, output := [.reject .sessionDone 0x2#4] }) = true := by decide +kernel

/-- R230's example: CFGR THR_LOW at reset. -/
theorem test_cfg_read : nextWith (step (State.reset.withFetchWord 48 0x450000000000))
    (fun t => t.output = [.cfgData 0x5#4 0x0000000E#32]) = true := by decide +kernel

/-- R235's example: CFGW THR_LOW, 4 in IDLE. -/
theorem test_cfg_write : nextWith (step (State.reset.withFetchWord 48 0x350000000004))
    (fun t => t.cfg = { State.reset.cfg with thrLow := 4#32 } && t.output = []) = true := by decide +kernel

/-- R236: ZERO_COUNT = 0 is rejected. -/
theorem test_cfg_write_rejected : nextWith (exec (.cfgWrite 0x7#4 0#32) State.reset)
    (fun t => t.cfg = State.reset.cfg && t.output = [.reject .badWrite 0x3#4]) = true := by decide +kernel

/-- R240: SESSION_RESET keeps `cfg` and emits nothing. -/
theorem test_session_reset :
    nextWith (exec .sessionReset { withCtrl 0x110#32 State.reset with session := .active, n := 9#32, faultCount := 2#32 })
      (fun t => t = withCtrl 0x110#32 State.reset) = true := by decide +kernel

/-! The units, against the spec's examples. -/

/-- R319 at n = 6: PULSE(1, 5, 1/2, accepted), ZERO_COUNT = 2. -/
theorem test_pulse_closes :
    okWith (detect 0 6#32 { State.reset with
        cfg := { State.reset.cfg with zeroCount := 2#32 }, det := ⟨true, 1#32, 1 / 2, 1#32, 5#32⟩ })
      (fun t => t.output.head? = some (.pulse 1#32 5#32 (1 / 2) true) && t.prevC2 = some 6#33) = true := by decide +kernel

/-- R601's example: in Data with SHIFT = 5, a pulse of width 1 with THR_HIGH = 2 at C2 = 61. -/
theorem test_invalid_pulse :
    okWith (classify 1#32 61#33 { State.reset with
        cfg := { State.reset.cfg with thrHigh := 2#32 }, asm := ⟨.data, 0x15#8, 5#4, 1#2⟩ })
      (fun t => t.output = [.fault (.invalidPulse 1#32) 61#33] && t.asm = ⟨.waiting, 0#8, 0#4, 0#2⟩) = true := by
  decide +kernel

/-- R263: a spike is replaced by the mean of its neighbours. -/
theorem test_despike : despike (some (1 / 2)) (-1 / 2) (1 / 4) 0 = 3 / 8 := by decide +kernel

/-- The block of R457, with the two CRC values that R457 gives. -/
def exampleBlock : Block :=
  ⟨[0x41#8], 0x00001900#32, 0x00008023#32, 0x0000#16, 1#16, 0x80#8, 0#32, 0x5764#16, [0x42#8], 0x6886#16, 0#33⟩

/-- R457: the CRC values, 25 wire bytes. -/
theorem test_example_block :
    crcOf Config.crcDefault (headerCovered State.reset.cfg exampleBlock) = 0x5764#16 ∧
      crcOf Config.crcDefault exampleBlock.payload = 0x6886#16 ∧ (serialise State.reset.cfg exampleBlock).length = 25 := by
  decide +kernel

/-- R426: the CRC values of the default CRC16. -/
theorem test_crc_values :
    crcOf Config.crcDefault [] = 0x0000#16 ∧ crcOf Config.crcDefault [0x2A#8] = 0x8528#16 ∧
      crcOf Config.crcDefault [0x41#8] = 0x58E5#16 ∧
      crcOf Config.crcDefault [0x31#8, 0x32#8, 0x33#8, 0x34#8, 0x35#8, 0x36#8, 0x37#8, 0x38#8, 0x39#8] = 0x31C3#16 := by
  decide +kernel

/-- R180: the examples assemble to the words that the rule gives. -/
theorem test_assembler_examples :
    (parseProgram ["NOP".toList, "sample 16384 ; half scale".toList, "SAMPLE -1".toList, "END".toList,
        "CFGW THR_LOW, 4".toList, "cfgr status".toList, "SRST".toList]).bind (assembleProgram 0#2) =
      some [0x000000000000#48, 0x100000004000#48, 0x10000000FFFF#48, 0x200000000000#48, 0x350000000004#48,
        0x4A0000000000#48, 0x500000000000#48] := by decide +kernel

/-- R181: LOWP and HIGHP under .tone. -/
theorem test_assembler_pseudo :
    (parseProgram [".tone 4, 2, 1".toList, "BIT0".toList, "LEADER 1".toList]).bind (assembleProgram 0#2) =
      some (List.replicate 4 0x100000004000#48 ++ [0x100000000000#48] ++ List.replicate 2 0x100000004000#48
        ++ [0x100000000000#48]) := by decide +kernel

/-- R245: the observation of a run is the events of its steps in order; this run ends well. -/
theorem test_observation :
    observation Config.params [0x4E0000000000#48, 0x700000000000#48, 0x200000000000#48] =
      some [.cfgData 0xE#4 0x55454631#32, .reject .malformed 0x7#4, .exhausted .endCommand] := by decide +kernel

theorem test_runEndsWell : runEndsWell Config.params [0x000000000000#48, 0x200000000000#48] := ⟨_, rfl, rfl, rfl⟩

/-- R245: a run that ends in a refused state has no observation, although an event came before. -/
theorem test_refused_run_unobserved :
    observation Config.params [0x4E0000000000#48, 0x300000000104#48, 0x100000000000#48] = none := by decide +kernel

/-! Witnesses: for each obligation with hypotheses, values that meet them all. -/

/-- An active session in which the next zero sample closes a Low pulse of width 14, which is the eighth bit of the last
byte of a block with an empty payload. -/
def lastPulse : State :=
  { State.reset with
    session := .active
    n := 22#32
    det := ⟨true, 2#32, 1 / 2, 6#32, 16#32⟩
    prevC2 := some 3#33
    asm := ⟨.data, 0x00#8, 7#4, 0#2⟩
    blk := { Framer.reset Config.crcDefault with fr := .pcrc, frCnt := 1#9, blkTime := 1#33 } }

/-- The same state with a SAMPLE 0 and a NOP on its input port. -/
def lastPulseWaiting : State :=
  { lastPulse with input := [.command 0x100000000000#48, .command 0x000000000000#48] }

theorem lastPulse_framer : lastPulse.blk.ok lastPulse.par.crc := by
  refine ⟨by decide, by decide, ?_⟩
  show (1#9).toNat < 2 ∧ (0#16).toNat ≤ Config.maxPayload
  decide

theorem lastPulse_inv : Inv lastPulse where
  cfgLegal := by decide
  resetLegal := by decide
  idleFresh := by intro h; cases h
  memory := rfl
  voltage1 := by decide +kernel
  voltage2 := by decide +kernel
  meanCount := by intro _; decide
  window := by intro _; trivial
  detector := by intro _ _; decide +kernel
  centre := by
    intro _ c hc
    cases hc
    exact ⟨by decide, fun _ => by decide⟩
  blockTime := by intro _ _; exact ⟨3#33, rfl, by decide⟩
  assembler := by show (7#4).toNat ≤ 7 ∧ (0#2).toNat ≤ 1; decide
  framer := lastPulse_framer

theorem lastPulseWaiting_inv : Inv lastPulseWaiting where
  cfgLegal := lastPulse_inv.cfgLegal
  resetLegal := lastPulse_inv.resetLegal
  idleFresh := by intro h; cases h
  memory := rfl
  voltage1 := lastPulse_inv.voltage1
  voltage2 := lastPulse_inv.voltage2
  meanCount := lastPulse_inv.meanCount
  window := lastPulse_inv.window
  detector := lastPulse_inv.detector
  centre := lastPulse_inv.centre
  blockTime := lastPulse_inv.blockTime
  assembler := lastPulse_inv.assembler
  framer := lastPulse_inv.framer

/-- What SAMPLE 0 emits in `lastPulse`: PULSE, BYTE and BLOCK, in this order (R620). -/
theorem test_last_pulse : nextWith (exec (.sample 0#32) lastPulse) (fun t =>
    newEvents lastPulse t = [.pulse 2#32 16#32 (1 / 2) true, .byte 0#8 18#33,
      .block ⟨[], 0#32, 0#32, 0#16, 0#16, 0#8, 0#32, 0#16, [], 0#16, 1#33⟩]) = true := by decide +kernel

theorem witness_DecodeOfEncode :
    (Instr.sample 0xFFFF#32).wellFormed 0#2 = true ∧ (Instr.sample 0xFF#32).wellFormed 2#2 = true := by decide

theorem witness_EncodeOfDecode : decode 1#2 0x1000000000FF#48 = .ok (.sample 0xFF#32) := by decide

theorem witness_DecoderAcceptsWellFormed : Inv lastPulse := lastPulse_inv

theorem witness_StepRunsDecodedCommand :
    (lastPulseWaiting.refused = none ∧
        lastPulseWaiting.input = .command 0x100000000000#48 :: [.command 0x000000000000#48] ∧
        decode (lastPulseWaiting.cfg.ctrl.extractLsb' 5 2) 0x100000000000#48 = .ok (.sample 0#32)) ∧
      State.reset.refused = none ∧
      decode (State.reset.cfg.ctrl.extractLsb' 5 2) (BitVec.ofNat 48 0x4A0000000000) = .ok (.cfgRead 0xA#4) := by
  refine ⟨⟨rfl, rfl, by decide⟩, rfl, by decide⟩

theorem witness_MalformedWordRejected :
    let s : State := { State.reset with input := [.command 0x600000000000#48] }
    s.refused = none ∧ s.input = .command 0x600000000000#48 :: [] ∧ ∀ i, decodeHere 0x600000000000#48 s ≠ .ok i := by
  refine ⟨rfl, rfl, fun i h => ?_⟩
  have e : decodeHere 0x600000000000#48 { State.reset with input := [.command 0x600000000000#48] } =
    .error .reservedOpcode := by decide
  rw [e] at h; cases h

theorem witness_RefusedStateIsFinal :
    let s : State := { State.reset with refused := some .adaptiveTrackingUnmodelled }
    s.refused ≠ none ∧ exec .nop s = .next s := ⟨by decide, rfl⟩

/-- For HardwareResetStep and ResetElementsOfSt. -/
theorem witness_HardwareResetStep :
    let s : State := { lastPulse with input := [.hardwareReset, .command 0#48] }
    s.refused = none ∧ s.input = .hardwareReset :: [.command 0#48] := ⟨rfl, rfl⟩

theorem witness_DefaultsFollowSampleRate :
    ((0 < 1 ∧ 1 < 2 ^ 32) ∧ 0 < 2 ^ 32 - 1 ∧ 2 ^ 32 - 1 < 2 ^ 32) ∧
      44100 ∈ [8000, 11025, 16000, 22050, 32000, 44100, 48000, 96000] := by decide

theorem witness_StageAndEnvelopeLaws :
    ((0 : ℚ) ≤ 0 ∧ (0 : ℚ) ≤ 1) ∧ ((0 : ℚ) ≤ 1 ∧ (1 : ℚ) ≤ 1) ∧ (1 : ℚ) - 0 ≥ 1 := by norm_num

theorem witness_NopDoesNothing :
    (0x000000000000#48).extractLsb' 44 4 = 0x0#4 ∧ (0x000000000001#48).extractLsb' 44 4 = 0x0#4 ∧
      (0x000000000001#48 : CmdWord) ≠ 0#48 := by decide

theorem witness_EndEndsTheStream :
    State.reset.session ≠ .done ∧ { State.reset with session := .done }.session = .done ∧
      (0x200000000000#48).extractLsb' 44 4 = 0x2#4 := by decide

theorem witness_DoneSessionRejects :
    let s : State := { lastPulse with session := .done }
    s.session = .done ∧ ∃ t, exec .sessionReset s = .next t ∧ t.session ≠ .done := ⟨rfl, _, rfl, by decide⟩

theorem witness_ConfigWrite_stored :
    State.reset.session ≠ .active ∧ (0x9#4).toNat < 0xA ∧
      ((0x7FF#32).extractLsb' 11 21 = 0#21 ∧ (0x7DF#32).extractLsb' 5 2 ≠ 3#2) ∧ (1#32 : Word) ≠ 0#32 := by decide

theorem witness_ConfigWrite_rejected :
    State.reset.session ≠ .active ∧ 0xA ≤ (0xA#4).toNat ∧ (0x800#32).extractLsb' 11 21 ≠ 0#21 ∧
      (0x60#32).extractLsb' 5 2 = 3#2 := by decide

/-- For the clause on ACTIVE of ConfigWriteStoresOrRejects, and for ActiveSessionLocksConfig. -/
theorem witness_ActiveSessionLocksConfig : lastPulse.session = .active ∧ exec .nop lastPulse = .next lastPulse := ⟨rfl, rfl⟩

theorem witness_AdaptiveSampleRefused :
    let s := withCtrl 0x104#32 State.reset
    s.session ≠ .done ∧ s.cfg.ctrl.getLsbD 2 = true ∧ ∃ t, exec (.sample 0#32) s = .next t := ⟨by decide, by decide, _, rfl⟩

theorem witness_StopIndexEndsStream :
    let s : State := { State.reset with cfg := { State.reset.cfg with ctrl := 0x180#32, stopIdx := 0#32 } }
    s.session ≠ .done ∧ s.cfg.ctrl.getLsbD 2 = false ∧ s.cfg.ctrl.getLsbD 7 = true ∧ s.cfg.stopIdx ≤ s.n := by decide

theorem reset_sampling : Sampling State.reset := by unfold Sampling; decide

theorem witness_SkippedSampleIsCounted :
    let s : State := { State.reset with cfg := { State.reset.cfg with startIdx := 1#32 } }
    Sampling s ∧ s.n < s.cfg.startIdx := by unfold Sampling; decide

theorem witness_SampleThroughFrontEnd :
    Sampling lastPulse ∧ lastPulse.blk.ok lastPulse.par.crc ∧ lastPulse.cfg.startIdx ≤ lastPulse.n ∧
      lastPulse.n ≠ 0xFFFFFFFF#32 := ⟨by unfold Sampling; decide, lastPulse_framer, by decide, by decide⟩

/-- The boundary n = START_IDX of SampleThroughFrontEnd. -/
theorem witness_SampleThroughFrontEnd_first :
    Sampling State.reset ∧ State.reset.blk.ok State.reset.par.crc ∧ State.reset.cfg.startIdx ≤ State.reset.n ∧
      State.reset.n ≠ 0xFFFFFFFF#32 := ⟨reset_sampling, Framer.ok_reset _, by decide, by decide⟩

theorem witness_LastIndexEndsStream :
    let s : State := { State.reset with session := .active, n := 0xFFFFFFFF#32 }
    (Sampling s ∧ s.blk.ok s.par.crc ∧ s.n = 0xFFFFFFFF#32) ∧ Instr.nop ≠ .sessionReset ∧ exec .nop s = .next s :=
  ⟨⟨by unfold Sampling; decide, Framer.ok_reset _, rfl⟩, by decide, rfl⟩

/-- A next state of SAMPLE 0 in `lastPulse`: for SampleFrame, EventOrder, CountersCountEvents and SessionTransitions. -/
theorem witness_SampleFrame :
    lastPulse.session ≠ .done ∧ lastPulse.cfg.ctrl.getLsbD 2 = false ∧ Memory.wf lastPulse.pbuf = true ∧
      ∃ t, exec (.sample 0#32) lastPulse = .next t := by
  obtain ⟨t, h, -⟩ := nextWith_spec test_last_pulse
  exact ⟨by decide, by decide, rfl, t, h⟩

theorem witness_NormalisedSample :
    normalise 0#2 0x8000#32 = some (-1) ∧ normalise 1#2 0x7F#32 = some (127 / 128) ∧
      normalise 2#2 0x00#32 = some (-1) := by decide +kernel

theorem witness_BypassFeedsDetector :
    (withCtrl 0x110#32 State.reset).cfg.ctrl.getLsbD 4 = true ∧
      ∃ t, frontEnd (1 / 2) 0#32 (withCtrl 0x110#32 State.reset) = .ok t := by
  obtain ⟨t, h, -⟩ := okWith_spec (p := fun _ => true)
    (show okWith (frontEnd (1 / 2) 0#32 (withCtrl 0x110#32 State.reset)) (fun _ => true) = true by decide +kernel)
  exact ⟨by decide, t, h⟩

theorem witness_AnalogPathWrittenOut :
    State.reset.cfg.ctrl.getLsbD 0 = false ∧
      (withCtrl 0x101#32 State.reset).cfg.ctrl.getLsbD 0 = true ∧
      (withCtrl 0x101#32 State.reset).fe.mcnt ≠ 0xFFFFFFFF#32 ∧
      (withCtrl 0x101#32 { State.reset with fe := { FrontEnd.reset with mcnt := 0xFFFFFFFF#32 } }).fe.mcnt =
        0xFFFFFFFF#32 ∧
      (withCtrl 0x101#32 { State.reset with fe := { FrontEnd.reset with mcnt := 0xFFFFFFFF#32 } }).cfg.ctrl.getLsbD 0 =
        true := by decide

/-- A window of two samples, with and without a value before it, and one sample short of it. -/
theorem witness_SpikeFilterWindow :
    let f : FrontEnd := { FrontEnd.reset with spkQ := [(-1, 0#32), (1, 1#32)] }
    ({ FrontEnd.reset with spkQ := [(1, 0#32)] } : FrontEnd).spkQ.length < 2 ∧
      (f.spkQ = [(-1, 0#32), (1, 1#32)] ∧ f.spkA = none) ∧
      ({ f with spkA := some (1 / 2) }.spkQ = [(-1, 0#32), (1, 1#32)] ∧ { f with spkA := some (1 / 2) }.spkA = some (1 / 2)) ∧
      ((0 : ℚ) ≤ 1 / 2 ∧ (0 : ℚ) ≤ 1 ∧ (-1 : ℚ) < 0) := by decide +kernel

/-- The five clauses: no pulse open; an open pulse; a zero run one short of ZERO_COUNT before and after this sample. -/
theorem witness_DetectorCases :
    State.reset.det.inPulse = false ∧ (1 : ℚ) > 0 ∧ ¬ (0 : ℚ) > 0 ∧ lastPulse.det.inPulse = true ∧
      { lastPulse.det with zRun := 5#32 }.zRun.toNat + 1 < lastPulse.cfg.zeroCount.toNat ∧
      lastPulse.cfg.zeroCount.toNat ≤ lastPulse.det.zRun.toNat + 1 := by decide +kernel

/-- For PulseLaws and EventTimesIncrease: a next state with a PULSE, a BYTE and a BLOCK. -/
theorem witness_PulseLaws :
    Inv lastPulse ∧ ∃ t, exec (.sample 0#32) lastPulse = .next t ∧
      .pulse 2#32 16#32 (1 / 2) true ∈ newEvents lastPulse t ∧ .byte 0#8 18#33 ∈ newEvents lastPulse t ∧
      .block ⟨[], 0#32, 0#32, 0#16, 0#16, 0#8, 0#32, 0#16, [], 0#16, 1#33⟩ ∈ newEvents lastPulse t := by
  obtain ⟨t, h, e⟩ := nextWith_spec test_last_pulse
  refine ⟨lastPulse_inv, t, h, ?_⟩
  rw [of_decide_eq_true e]
  simp

theorem witness_NoAcceptedPulseNoChange :
    ∃ t, exec (.sample 0#32) State.reset = .next t ∧ ∀ start stop peak, .pulse start stop peak true ∉ newEvents State.reset t := by
  obtain ⟨t, h, e⟩ := nextWith_spec (p := fun t => newEvents State.reset t = [])
    (show nextWith (exec (.sample 0#32) State.reset) (fun t => newEvents State.reset t = []) = true by decide +kernel)
  refine ⟨t, h, ?_⟩
  rw [of_decide_eq_true e]
  simp

/-- The widths at the thresholds 14 and 7 of reset, and a High pulse by the timing rule. -/
theorem witness_ClassifyByWidth :
    State.reset.cfg.thrLow ≤ 14#32 ∧ 13#32 < State.reset.cfg.thrLow ∧ State.reset.cfg.thrHigh ≤ 7#32 ∧
      6#32 < State.reset.cfg.thrHigh ∧ State.reset.cfg.ctrl.getLsbD 3 = false ∧
      (withCtrl 0x108#32 State.reset).cfg.ctrl.getLsbD 3 = true ∧
      highTiming { State.reset.par with highTiming := [(none, 5#33, 6#32)] } none 5#33 6#32 = true := by decide

theorem witness_AssemblerCells :
    (0#4 : BitVec 4) < 7#4 ∧ (6#4 : BitVec 4) < 7#4 ∧ lastPulse.asm.asm = .data ∧ lastPulse.asm.shift = 7#4 ∧ State.reset.asm.asm = .waiting ∧
      (⟨.ready, 0#8, 0#4, 0#2⟩ : BitAsm).asm = .ready ∧ (⟨.after, 0#8, 0#4, 1#2⟩ : BitAsm).cycle = 1#2 := by decide

/-- Pulses of the byte 0xA5 at the reset thresholds: Low pulses of width 14, High pulses of width 7 and 13. -/
theorem witness_ByteRoundTrip :
    let s : State := { State.reset with asm := ⟨.ready, 0#8, 0#4, 0#2⟩ }
    s.asm.asm = .ready ∧ s.blk.ok s.par.crc ∧
      List.Forall₂ (fun tone p => toneFits s.cfg tone p.1) (byteTones 0xA5#8)
        ((byteTones 0xA5#8).map fun tone => (if tone = .low then 14#32 else 7#32, 100#33)) := by
  refine ⟨rfl, Framer.ok_reset _, ?_⟩
  rw [List.forall₂_map_right_iff, List.forall₂_same]
  intro tone h
  cases tone with
  | low => show State.reset.cfg.thrLow ≤ 14#32; decide
  | high => show State.reset.cfg.thrHigh ≤ 7#32 ∧ 7#32 < State.reset.cfg.thrLow; decide
  | none => exact absurd h (by decide)

theorem witness_AssemblerFaultsTaken_framing :
    State.reset.cfg.thrLow ≤ 14#32 ∧ { State.reset with asm := ⟨.after, 0xAA#8, 0#4, 1#2⟩ }.asm.asm = .after := by decide

theorem witness_AssemblerFaultsTaken_invalid :
    6#32 < State.reset.cfg.thrLow ∧ 6#32 < State.reset.cfg.thrHigh ∧
      ¬ (State.reset.cfg.ctrl.getLsbD 3 = true ∧ highTiming State.reset.par State.reset.prevC2 10#33 6#32 = true) := by
  decide

/-- The length bytes 0x00 0x01 (256) and 0x01 0x01 (257), at the second of them. -/
theorem witness_LengthFieldChecked :
    let f : Framer := { Framer.reset Config.crcDefault with fr := .len }
    (f.fr = .len ∧ f.frCnt = 0#9) ∧ { f with frCnt := 1#9 }.frCnt = 1#9 ∧
      (f.len ||| ((0x01#8).setWidth 16 <<< 8)).toNat ≤ 256 ∧
      256 < ({ f with len := 1#16 }.len ||| ((0x01#8).setWidth 16 <<< 8)).toNat := by decide

/-- A trailer that agrees and one that does not, at its first and its second byte, in both byte orders; for
HeaderCrcChecked and PayloadCrcChecked. -/
theorem witness_HeaderCrcChecked :
    let f : Framer := { Framer.reset Config.crcDefault with fr := .hcrc }
    (f.fr = .hcrc ∧ f.frCnt = 0#9) ∧ { f with frCnt := 1#9 }.frCnt = 1#9 ∧
      (f.hcrcRx ||| ((0x00#8).setWidth 16 <<< 8)) = crcFinish Config.crcDefault f.hcrc ∧
      (f.hcrcRx ||| ((0x01#8).setWidth 16 <<< 8)) ≠ crcFinish Config.crcDefault f.hcrc := by decide

theorem witness_PayloadCrcChecked :
    lastPulse.blk.fr = .pcrc ∧ lastPulse.blk.frCnt = 1#9 ∧ { lastPulse.blk with frCnt := 0#9 }.frCnt = 0#9 ∧
      (lastPulse.blk.pcrcRx ||| ((0x00#8).setWidth 16 <<< 8)) = crcFinish lastPulse.par.crc lastPulse.blk.pcrc ∧
      (lastPulse.blk.pcrcRx ||| ((0x01#8).setWidth 16 <<< 8)) ≠ crcFinish lastPulse.par.crc lastPulse.blk.pcrc ∧
      lastPulse.blk.len.toNat ≤ 256 ∧ (256#16 : Half).toNat ≤ 256 := by decide

theorem witness_HuntForSync : State.reset.blk.fr = .hunt ∧ (0x2B#8 : Byte) ≠ 0x2A#8 := by decide

/-- A name of 8 bytes and one of 9 before the byte. -/
theorem witness_NameField :
    let f : Framer := { Framer.reset Config.crcDefault with fr := .name }
    f.fr = .name ∧ (0x41#8 : Byte) ≠ 0x00#8 ∧ { f with name := List.replicate 8 0x41#8 }.name.length + 1 ≠ 10 ∧
      { f with name := List.replicate 9 0x41#8 }.name.length + 1 = 10 ∧ { f with fr := .nameTerm }.fr = .nameTerm := by decide

theorem witness_HeaderFieldsLittleEndian :
    let f : Framer := Framer.reset Config.crcDefault
    f.frCnt = 0#9 ∧ f.load = 0#32 ∧ f.exec = 0#32 ∧ f.seq = 0#16 ∧ f.len = 0#16 ∧ f.next = 0#32 ∧
      { f with fr := .load }.fr = .load ∧ (0x00#8).toNat + 2 ^ 8 * (0x01#8).toNat ≤ 256 := by decide

/-- The first byte of a payload of 1, and the last of one of 256. -/
theorem witness_PayloadByteStored :
    let f : Framer := { Framer.reset Config.crcDefault with fr := .data, len := 1#16 }
    Memory.wf [] = true ∧ f.fr = .data ∧ f.frCnt.toNat < f.len.toNat ∧ f.len.toNat ≤ 256 ∧
      { f with frCnt := 255#9, len := 256#16 }.frCnt.toNat < (256#16 : Half).toNat := by decide

theorem exampleBlock_valid : exampleBlock.valid State.reset.par.crc State.reset.cfg := by
  unfold Block.valid; decide +kernel

theorem witness_BlockRoundTrip :
    State.reset.blk.fr = .hunt ∧ Memory.wf State.reset.pbuf = true ∧
      exampleBlock.valid State.reset.par.crc State.reset.cfg ∧
      (List.replicate 24 0#33).length + 1 = (serialise State.reset.cfg exampleBlock).length :=
  ⟨rfl, rfl, exampleBlock_valid, by decide +kernel⟩

/-- The bytes of the example block after its sync byte and before its last byte, each at time 5. -/
def exampleMiddle : List (Byte × Time) :=
  (((serialise State.reset.cfg exampleBlock).drop 1).dropLast).map fun b => (b, 5#33)

theorem witness_EmittedBlockIsValid :
    State.reset.blk.fr = .hunt ∧ Memory.wf State.reset.pbuf = true ∧
      ∃ u t, frameAll ((0x2A#8, 4#33) :: exampleMiddle) State.reset = .ok u ∧ u.output = State.reset.output ∧
        frame 0x68#8 6#33 u = .ok t ∧
        t.output = State.reset.output ++ [.block { exampleBlock with time := 4#33 }] := by
  have h : okWith (frameAll ((0x2A#8, 4#33) :: exampleMiddle) State.reset) (fun u =>
      u.output = State.reset.output && okWith (frame 0x68#8 6#33 u) (fun t =>
        t.output = State.reset.output ++ [.block { exampleBlock with time := 4#33 }])) = true := by decide +kernel
  obtain ⟨u, hu, h⟩ := okWith_spec h
  rw [Bool.and_eq_true] at h
  obtain ⟨t, ht, h'⟩ := okWith_spec h.2
  exact ⟨rfl, rfl, u, t, hu, of_decide_eq_true h.1, ht, of_decide_eq_true h'⟩

theorem witness_CorruptPayloadCaught :
    State.reset.blk.fr = .hunt ∧ Memory.wf State.reset.pbuf = true ∧ State.reset.par.crc.poly.getLsbD 0 = true ∧
      exampleBlock.valid State.reset.par.crc State.reset.cfg ∧ 0 < exampleBlock.payload.length ∧
      exampleBlock.payload[0]? ≠ some 0x43#8 ∧
      (List.replicate 24 0#33).length + 1 = (serialise State.reset.cfg exampleBlock).length :=
  ⟨rfl, rfl, by decide, exampleBlock_valid, by decide, by decide, by decide +kernel⟩

theorem witness_CrcSeesByteChange : Config.crcDefault.poly.getLsbD 0 = true ∧ (0x42#8 : Byte) ≠ 0x43#8 := by decide

/-- The clause of EventOrder on the stop index. -/
theorem witness_EventOrder_stop :
    let s : State := { State.reset with cfg := { State.reset.cfg with ctrl := 0x180#32, stopIdx := 0#32 } }
    ∃ t, exec (.sample 0#32) s = .next t ∧ .exhausted .stopIndex ∈ newEvents s t := ⟨_, rfl, by decide +kernel⟩

theorem witness_AtMostOneFaultPerStep : ∃ t, step lastPulseWaiting = .next t := by
  obtain ⟨t, h, -⟩ := nextWith_spec (p := fun _ => true)
    (show nextWith (step lastPulseWaiting) (fun _ => true) = true by decide +kernel)
  exact ⟨t, h⟩

theorem witness_RejectComesAlone :
    let s : State := { State.reset with input := [.command 0xF00000000000#48] }
    ∃ t, step s = .next t ∧ .reject .malformed 0xF#4 ∈ newEvents s t := ⟨_, rfl, by decide +kernel⟩

theorem witness_CountersCountEvents :
    Instr.sample 0#32 ≠ .sessionReset ∧ ∃ t, exec (.sample 0#32) lastPulse = .next t :=
  ⟨by decide, witness_SampleFrame.2.2.2⟩

/-- An EXHAUSTED, a first SAMPLE, and a reset. -/
theorem witness_SessionTransitions :
    (∃ t, exec .endStream lastPulse = .next t ∧ t.session = .done) ∧
      (∃ t, exec (.sample 0#32) (withCtrl 0x110#32 State.reset) = .next t ∧ t.session = .active) ∧
      ∃ t, exec .sessionReset lastPulse = .next t ∧ t.session = .idle := by
  obtain ⟨t, h, e⟩ := nextWith_spec (p := fun t => t.session = .active)
    (show nextWith (exec (.sample 0#32) (withCtrl 0x110#32 State.reset)) (fun t => t.session = .active) = true by decide +kernel)
  exact ⟨⟨_, rfl, rfl⟩, ⟨t, h, of_decide_eq_true e⟩, _, rfl, rfl⟩

theorem witness_InvariantAtReset : Config.params.cfgReset.legal = true := by decide

theorem witness_StepKeepsInvariant : Inv lastPulseWaiting ∧ ∃ t, step lastPulseWaiting = .next t :=
  ⟨lastPulseWaiting_inv, witness_AtMostOneFaultPerStep⟩

theorem witness_InvariantRulesOutStops : Inv lastPulseWaiting ∧ lastPulseWaiting.refused = none :=
  ⟨lastPulseWaiting_inv, rfl⟩

theorem lastPulseWaiting_payload : PayloadInv lastPulseWaiting := ⟨rfl, by decide +kernel⟩

theorem witness_PayloadInvariantKept : PayloadInv lastPulseWaiting ∧ ∃ t, step lastPulseWaiting = .next t :=
  ⟨lastPulseWaiting_payload, witness_AtMostOneFaultPerStep⟩

theorem witness_BlockEventPayloadChecked :
    PayloadInv lastPulseWaiting ∧ ∃ t, step lastPulseWaiting = .next t ∧
      .block ⟨[], 0#32, 0#32, 0#16, 0#16, 0#8, 0#32, 0#16, [], 0#16, 1#33⟩ ∈ newEvents lastPulseWaiting t := by
  obtain ⟨t, h, e⟩ := nextWith_spec (p := fun t =>
      .block ⟨[], 0#32, 0#32, 0#16, 0#16, 0#8, 0#32, 0#16, [], 0#16, 1#33⟩ ∈ newEvents lastPulseWaiting t)
    (show nextWith (step lastPulseWaiting) (fun t =>
      .block ⟨[], 0#32, 0#32, 0#16, 0#16, 0#8, 0#32, 0#16, [], 0#16, 1#33⟩ ∈ newEvents lastPulseWaiting t) = true by
        decide +kernel)
  exact ⟨lastPulseWaiting_payload, t, h, of_decide_eq_true e⟩

/-- Two states in DATA that differ in byte 5 of PBUF, of which the block has written byte 0 only. -/
theorem witness_UnwrittenPayloadUnobserved :
    let s : State := { lastPulseWaiting with
      blk := { lastPulse.blk with fr := .data, frCnt := 1#9, len := 9#16 }, pbuf := [(0, 7#8)] }
    SameButUnwritten s { s with pbuf := [(0, 7#8), (5, 1#8)] } := by
  refine ⟨rfl, rfl, rfl, fun a ha => ?_⟩
  have : a < 1 := ha
  interval_cases a
  rfl

end Sys2Proof.Tests
end

section
/-! SUPPORT. What a step and each command can do: one inversion lemma each (40_commands.md R200 to R240). -/

namespace Sys2Proof.Machine

open Sys2Proof.Safety

/-! The commands without a sample -/

theorem exec_nop_next {s t : State} (h : exec .nop s = .next t) : t = s := by
  cases h; rfl

theorem exec_sessionReset_next {s t : State} (h : exec .sessionReset s = .next t) : t = sessionResetState s := by
  cases h; rfl

theorem exec_cfgRead_next {a : RegAddr} {s t : State} (h : exec (.cfgRead a) s = .next t) :
    t = emit (.cfgData a (readReg a s)) s := by
  cases h; rfl

/-- END is rejected in DONE (R217) and else ends the stream (R220). -/
theorem exec_endStream_cases {s t : State} (h : exec .endStream s = .next t) :
    (s.session = .done ∧ t = rejectCmd .sessionDone 0x2#4 s) ∨
      (s.session ≠ .done ∧ t = endOfStream .endCommand s) := by
  simp only [exec, execEndStream] at h
  split at h <;> cases h
  · exact .inl ⟨‹_›, rfl⟩
  · exact .inr ⟨‹_›, rfl⟩

/-- CFG_WRITE is rejected, or stores a legal value outside ACTIVE (R235 to R237). -/
theorem exec_cfgWrite_cases {a : RegAddr} {d : Word} {s t : State} (h : exec (.cfgWrite a d) s = .next t) :
    (∃ r, t = rejectCmd r 0x3#4 s) ∨
      (s.session ≠ .active ∧ writeLegal a d = true ∧ t = { s with cfg := s.cfg.write a d }) := by
  simp only [exec, execCfgWrite] at h
  split at h
  · cases h; exact .inl ⟨_, rfl⟩
  · split at h <;> cases h
    · exact .inr ⟨‹_›, ‹_›, rfl⟩
    · exact .inl ⟨_, rfl⟩

/-! SAMPLE -/

/-- `u` is the state of an accepted sample of code `d` just before it is counted: the sample was below START_IDX and
reached no unit (R211), or it went through the front end (R216). -/
inductive SampleTaken (d : Word) (s u : State) : Prop
  | skipped (below : s.n < s.cfg.startIdx) (eq : u = { s with session := .active })
  | processed (x : Analog) (code : normalise s.cfg.fmt d = some x) (reached : s.cfg.startIdx ≤ s.n)
      (run : frontEnd x s.n { s with session := .active } = .ok u)

/-- Everything a SAMPLE that answers a next state can do (R210 to R217). -/
inductive SampleResult (d : Word) (s t : State) : Prop
  | rejected (done : s.session = .done) (eq : t = rejectCmd .sessionDone 0x1#4 s)
  | refused (notDone : s.session ≠ .done) (adapt : s.cfg.adaptEn = true)
      (eq : t = { s with refused := some .adaptiveTrackingUnmodelled })
  | stopped (notDone : s.session ≠ .done) (adapt : s.cfg.adaptEn = false)
      (stop : s.cfg.stopEn = true ∧ s.cfg.stopIdx ≤ s.n)
      (eq : t = endOfStream .stopIndex { s with session := .active })
  | counted (u : State) (notDone : s.session ≠ .done) (adapt : s.cfg.adaptEn = false)
      (noStop : ¬ (s.cfg.stopEn = true ∧ s.cfg.stopIdx ≤ s.n)) (taken : SampleTaken d s u) (eq : t = countSample u)

theorem exec_sample_result {d : Word} {s t : State} (h : exec (.sample d) s = .next t) : SampleResult d s t := by
  simp only [exec, execSample] at h
  split at h
  · cases h; exact .rejected ‹_› rfl
  · rename_i notDone
    split at h
    · cases h; exact .refused notDone ‹_› rfl
    · rename_i hadapt
      have adapt : s.cfg.adaptEn = false := by simpa using hadapt
      simp only [acceptSample] at h
      split at h
      · cases h; exact .stopped notDone adapt ‹_› rfl
      · rename_i noStop
        split at h
        · cases h
        · rename_i x code
          split at h
          · cases h
          · rename_i v htake
            cases h
            rcases takeSample_cases htake with ⟨hlt, rfl⟩ | ⟨hle, u, hu, rfl⟩
            · exact .counted _ notDone adapt noStop (.skipped hlt rfl) rfl
            · exact .counted u notDone adapt noStop (.processed x code hle hu) rfl

/-- A sample before it is counted has made one pipeline step of an active session. -/
theorem SampleTaken.pipelineStep {d : Word} {s u : State} (h : SampleTaken d s u) :
    PipelineStep { s with session := .active } u := by
  cases h with
  | skipped _ eq => subst eq; exact .refl _
  | processed x _ _ run => exact frontEnd_step run

/-- Counting a sample: the next index, or the end of the stream at the last one (R210, R214). -/
theorem countSample_cases (s : State) :
    (s.n = 0xFFFFFFFF#32 ∧ countSample s = endOfStream .indexExhausted s) ∨
      (s.n ≠ 0xFFFFFFFF#32 ∧ countSample s = { s with n := s.n + 1 }) := by
  unfold countSample
  split
  · exact .inl ⟨‹_›, rfl⟩
  · exact .inr ⟨‹_›, rfl⟩

/-! One step -/

/-- Everything a step that answers a next state can do (R200, R201, R645, R700): keep the state, or take the item at
the head of the port. -/
inductive StepResult (s t : State) : Prop
  | idle (port : s.input = []) (eq : t = s)
  | hardwareReset (rest : List PortItem) (port : s.input = .hardwareReset :: rest)
      (eq : t = hardwareResetState { s with input := rest })
  | command (w : CmdWord) (rest : List PortItem) (i : Instr) (port : s.input = .command w :: rest)
      (decoded : decodeHere w s = .ok i) (run : exec i { s with input := rest } = .next t)
  | malformed (w : CmdWord) (rest : List PortItem) (e : Malformed) (port : s.input = .command w :: rest)
      (bad : decodeHere w s = .error e) (eq : t = rejectMalformed w { s with input := rest })

theorem takeItem_eq_none {s : State} (h : takeItem s = none) : s.input = [] := by
  unfold takeItem at h
  split at h
  · assumption
  · cases h

theorem takeItem_eq_some {s t : State} {p : PortItem} (h : takeItem s = some (p, t)) :
    ∃ rest, s.input = p :: rest ∧ t = { s with input := rest } := by
  unfold takeItem at h
  split at h
  · cases h
  · cases h; exact ⟨_, ‹_›, rfl⟩

theorem step_result {s t : State} (h : step s = .next t) : StepResult s t := by
  unfold step at h
  split at h
  · cases h
  · split at h
    · cases h; exact .idle (takeItem_eq_none ‹_›) rfl
    · rename_i htake
      obtain ⟨rest, port, rfl⟩ := takeItem_eq_some htake
      cases h; exact .hardwareReset rest port rfl
    · rename_i htake
      obtain ⟨rest, port, rfl⟩ := takeItem_eq_some htake
      split at h
      · rename_i i decoded; exact .command _ rest i port decoded h
      · rename_i e bad; cases h; exact .malformed _ rest e port bad rfl

/-- No step from a refused state (R36, R200). -/
theorem step_of_refused {s : State} (h : s.refused ≠ none) : step s = .refused .adaptiveTrackingUnmodelled := by
  obtain ⟨⟨⟩, hr⟩ := Option.ne_none_iff_exists'.mp h
  simp only [step, hr]

/-! The events of a step -/

theorem newEvents_of_append {s t : State} {es : List Event} (h : t.output = s.output ++ es) : newEvents s t = es := by
  rw [newEvents, h, List.drop_left]

theorem newEvents_self {s t : State} (h : t.output = s.output) : newEvents s t = [] :=
  newEvents_of_append (by rw [h, List.append_nil])

theorem ne_of_kind {p : Event → Bool} {e e' : Event} (he : p e = false) (he' : p e' = true) : e ≠ e' := by
  rintro rfl; exact Bool.false_ne_true (he.symm.trans he')

/-- The pipeline never emits EXHAUSTED (R620). -/
theorem exhausted_notMem_pipelineOrder {es : List Event} (h : pipelineOrder es) (c : Cause) : .exhausted c ∉ es := by
  have hframer : ∀ r, atMostOne isFramerEvent r → .exhausted c ∉ r := by
    rintro r (rfl | ⟨e, he, rfl⟩)
    · exact List.not_mem_nil
    · simpa using ne_of_kind rfl he
  rcases h with rfl | ⟨p, hp, rfl | ⟨f, hf, rfl⟩ | ⟨b, r, hb, hr, rfl⟩⟩
  · exact List.not_mem_nil
  · simpa using ne_of_kind rfl hp
  · simpa using ⟨ne_of_kind rfl hp, ne_of_kind rfl hf⟩
  · simpa using ⟨ne_of_kind rfl hp, ne_of_kind rfl hb, hframer r hr⟩

end Sys2Proof.Machine
end

section
/-! SUPPORT. The statements about REFUSED, the frame of SAMPLE, the session and the registers at reset
(10_state.md R33, R36, R37, R50; 40_commands.md R210). -/

namespace Sys2Proof.Machine

open Sys2Proof.Safety

/-! REFUSED -/

theorem SampleResult.refused_eq {d : Word} {s t : State} (h : SampleResult d s t) :
    t.refused = s.refused ∨ t.refused = some .adaptiveTrackingUnmodelled := by
  cases h with
  | rejected _ eq => subst eq; exact .inl rfl
  | refused _ _ eq => subst eq; exact .inr rfl
  | stopped _ _ _ eq => subst eq; exact .inl rfl
  | counted u _ _ _ taken eq =>
    have hu : u.refused = s.refused := taken.pipelineStep.only.refused
    rcases countSample_cases u with ⟨-, hc⟩ | ⟨-, hc⟩ <;> rw [eq, hc] <;> exact .inl hu

/-- No command clears REFUSED (R36): it is kept, or set by a SAMPLE with CTRL.ADAPT_EN = 1. -/
theorem exec_refused_eq {i : Instr} {s t : State} (h : exec i s = .next t) :
    t.refused = s.refused ∨ t.refused = some .adaptiveTrackingUnmodelled := by
  cases i with
  | nop => rw [exec_nop_next h]; exact .inl rfl
  | sample d => exact (exec_sample_result h).refused_eq
  | endStream => rcases exec_endStream_cases h with ⟨-, rfl⟩ | ⟨-, rfl⟩ <;> exact .inl rfl
  | cfgWrite a d => rcases exec_cfgWrite_cases h with ⟨r, rfl⟩ | ⟨-, -, rfl⟩ <;> exact .inl rfl
  | cfgRead a => rw [exec_cfgRead_next h]; exact .inl rfl
  | sessionReset => rw [exec_sessionReset_next h]; exact .inl rfl

theorem refusedReason_eq (r : RefusedReason) : r = .adaptiveTrackingUnmodelled := by
  cases r; rfl

/-- Settles O8: a command keeps REFUSED or sets it to the one reason there is. -/
theorem refusedStateIsFinal : Obligations.RefusedStateIsFinal := by
  refine ⟨rfl, refusedReason_eq, fun s => step_of_refused, fun i s t hs h => ?_, hardwareResetState_refused⟩
  obtain ⟨r, hr⟩ := Option.ne_none_iff_exists'.mp hs
  rw [hr, refusedReason_eq r]
  rcases exec_refused_eq h with ht | ht
  · rw [ht, hr, refusedReason_eq r]
  · exact ht

/-! The frame of SAMPLE -/

/-- Settles O25: the pipeline step of the sample keeps all of this, and counting it moves N or ends the session. -/
theorem sampleFrame : Obligations.SampleFrame := by
  intro s t d hopen hadapt h
  cases exec_sample_result h with
  | rejected done _ => exact absurd done hopen
  | refused _ adapt _ => exact absurd (adapt.symm.trans hadapt) (by decide)
  | stopped _ _ _ eq =>
    subst eq
    exact ⟨rfl, rfl, rfl, rfl, List.prefix_append _ _, .inr ⟨rfl, rfl⟩, fun _ _ _ => rfl⟩
  | counted u _ _ _ taken eq =>
    have hstep := taken.pipelineStep
    obtain ⟨es, -, hes⟩ := hstep.events
    have hout : s.output <+: u.output := ⟨es, hes.symm⟩
    have hmem : Memory.wf s.pbuf = true → ∀ a, ¬ (s.blk.fr = .data ∧ a = s.blk.frCnt.toNat) →
        memRead u.pbuf a = memRead s.pbuf a := fun hm a ha => hstep.memory hm a (not_and_or.mp ha)
    rcases countSample_cases u with ⟨-, hc⟩ | ⟨-, hc⟩ <;> rw [eq, hc]
    · exact ⟨hstep.only.cfg, hstep.only.par, hstep.only.input, hstep.only.refused,
        hout.trans (List.prefix_append _ _), .inr ⟨rfl, hstep.only.n⟩, hmem⟩
    · exact ⟨hstep.only.cfg, hstep.only.par, hstep.only.input, hstep.only.refused, hout,
        .inl ⟨hstep.only.session, congrArg (· + 1) hstep.only.n⟩, hmem⟩

/-! The session -/

/-- How a command moves the session, with the EXHAUSTED it emits (R33, R606). -/
inductive SessionMove (i : Instr) (s t : State) : Prop
  | kept (eq : t.session = s.session) (silent : ∀ c, .exhausted c ∉ newEvents s t)
  | started (d : Word) (cmd : i = .sample d) (notDone : s.session ≠ .done) (eq : t.session = .active)
      (silent : ∀ c, .exhausted c ∉ newEvents s t)
  | ended (notDone : s.session ≠ .done) (eq : t.session = .done) (c : Cause) (mem : .exhausted c ∈ newEvents s t)
  | reset (cmd : i = .sessionReset) (eq : t.session = .idle) (silent : ∀ c, .exhausted c ∉ newEvents s t)

/-- A command that leaves the session and emits one event, not EXHAUSTED. -/
theorem SessionMove.of_emit {i : Instr} {s : State} {e : Event} (he : isExhausted e = false) :
    SessionMove i s (emit e s) :=
  .kept rfl fun c hc => by
    rw [newEvents_of_append (emit_output e s), List.mem_singleton] at hc
    subst hc; cases he

/-- A command that leaves the session and the output port. -/
theorem SessionMove.of_silent {i : Instr} {s t : State} (hs : t.session = s.session) (ho : t.output = s.output) :
    SessionMove i s t :=
  .kept hs fun c => by rw [newEvents_self ho]; exact List.not_mem_nil

theorem SampleResult.sessionMove {d : Word} {s t : State} (h : SampleResult d s t) : SessionMove (.sample d) s t := by
  cases h with
  | rejected _ eq => subst eq; exact .of_emit rfl
  | refused _ _ eq => subst eq; exact .of_silent rfl rfl
  | stopped notDone _ _ eq =>
    subst eq
    exact .ended notDone rfl .stopIndex (by rw [newEvents_of_append (es := [.exhausted .stopIndex]) rfl]; simp)
  | counted u notDone _ _ taken eq =>
    obtain ⟨es, horder, hes⟩ := taken.pipelineStep.events
    have hes : u.output = s.output ++ es := hes
    rcases countSample_cases u with ⟨-, hc⟩ | ⟨-, hc⟩ <;> rw [eq, hc]
    · refine .ended notDone rfl .indexExhausted ?_
      rw [newEvents_of_append (es := es ++ [.exhausted .indexExhausted]) (by simp [hes])]
      simp
    · refine .started d rfl notDone taken.pipelineStep.only.session fun c => ?_
      rw [newEvents_of_append (t := { u with n := u.n + 1 }) hes]
      exact exhausted_notMem_pipelineOrder horder c

theorem exec_sessionMove {i : Instr} {s t : State} (h : exec i s = .next t) : SessionMove i s t := by
  cases i with
  | nop => rw [exec_nop_next h]; exact .of_silent rfl rfl
  | sample d => exact (exec_sample_result h).sessionMove
  | endStream =>
    rcases exec_endStream_cases h with ⟨-, rfl⟩ | ⟨hopen, rfl⟩
    · exact .of_emit rfl
    · exact .ended hopen rfl .endCommand (by rw [newEvents_of_append (endOfStream_output _ s)]; simp)
  | cfgWrite a d =>
    rcases exec_cfgWrite_cases h with ⟨r, rfl⟩ | ⟨-, -, rfl⟩
    · exact .of_emit rfl
    · exact .of_silent rfl rfl
  | cfgRead a => rw [exec_cfgRead_next h]; exact .of_emit rfl
  | sessionReset =>
    rw [exec_sessionReset_next h]
    refine .reset rfl rfl fun c => ?_
    rw [newEvents_self (sessionResetState_output s)]; exact List.not_mem_nil

/-- Settles O53, by the four ways a command can move the session. -/
theorem sessionTransitions : Obligations.SessionTransitions := by
  intro i s t h
  cases exec_sessionMove h with
  | kept eq silent =>
    rw [eq]
    exact ⟨iff_of_false (fun h => h.1 h.2) (not_exists.mpr silent), fun hne he => absurd he hne,
      fun hne he => absurd he hne⟩
  | started d cmd _ eq silent =>
    exact ⟨iff_of_false (by simp [eq]) (not_exists.mpr silent), fun _ _ => ⟨d, cmd⟩, by simp [eq]⟩
  | ended notDone eq c mem => exact ⟨iff_of_true ⟨notDone, eq⟩ ⟨c, mem⟩, by simp [eq], by simp [eq]⟩
  | reset cmd eq silent =>
    exact ⟨iff_of_false (by simp [eq]) (not_exists.mpr silent), by simp [eq], fun _ _ => cmd⟩

end Sys2Proof.Machine
end

section
/-! SUPPORT. The registers: the fields of STATUS (10_state.md R50) and the reset values (R37, R39, R58). -/

namespace Sys2Proof.Machine

/-! STATUS -/

/-- The bits of STATUS, field by field (R50). -/
theorem statusWord_getLsbD (s : State) (i : Nat) : (statusWord s).getLsbD i =
    if i < 2 then s.asm.asm.code.getLsbD i
    else if i < 6 then s.asm.shift.getLsbD (i - 2)
    else if i < 8 then s.asm.cycle.getLsbD (i - 6)
    else if i < 16 then BitVec.getLsbD s.asm.acc (i - 8)
    else if i < 20 then s.blk.fr.code.getLsbD (i - 16)
    else if i < 21 then false
    else if i < 22 then s.det.inPulse
    else if i < 24 then s.session.code.getLsbD (i - 22)
    else false := by
  simp only [statusWord, BitVec.getLsbD_append]
  grind

theorem statusWord_field {s : State} {start len : Nat} {f : BitVec len}
    (h : ∀ i < len, (statusWord s).getLsbD (start + i) = f.getLsbD i) : (statusWord s).extractLsb' start len = f :=
  BitVec.eq_of_getLsbD_eq fun i hi => by simpa [BitVec.getLsbD_extractLsb', hi] using h i hi

/-- Settles O17: each field, bit by bit. -/
theorem statusFields : Obligations.StatusFields := by
  refine ⟨fun s => ?_, ⟨rfl, rfl, rfl, rfl⟩, by decide⟩
  rw [show readReg 0xA#4 s = statusWord s from rfl]
  refine ⟨statusWord_field ?asm, statusWord_field ?shift, statusWord_field ?cycle, statusWord_field ?acc,
    statusWord_field ?fr, ?bit20, ?inPulse, statusWord_field ?session, statusWord_field ?zero⟩
  case bit20 | inPulse => rw [statusWord_getLsbD]; rfl
  all_goals
    intro i hi
    rw [statusWord_getLsbD]
    grind

/-! The reset values -/

/-- Settles O11 by reading the reset state. -/
theorem registersAtReset : Obligations.RegistersAtReset := by
  unfold Obligations.RegistersAtReset
  decide

theorem ceilDiv_eq_ceil (p : Nat) {d : Nat} (hd : 0 < d) : (ceilDiv p d : ℤ) = ⌈(p : ℚ) / d⌉ := by
  have hd' : (0 : ℚ) < d := by exact_mod_cast hd
  have hup : p ≤ ceilDiv p d * d := by
    have := Nat.lt_div_mul_add (a := p + d - 1) hd
    unfold ceilDiv; omega
  have hlow : ceilDiv p d * d < p + d := by
    have := Nat.div_mul_le_self (p + d - 1) d
    unfold ceilDiv; omega
  symm
  rw [Int.ceil_eq_iff, lt_div_iff₀ hd', div_le_iff₀ hd', sub_mul, one_mul, sub_lt_iff_lt_add]
  exact ⟨by exact_mod_cast hlow, by exact_mod_cast hup⟩

theorem ceilDiv_le (p : Nat) {d : Nat} (hd : 0 < d) : ceilDiv p d ≤ p := by
  unfold ceilDiv
  rw [Nat.div_le_iff_le_mul_add_pred hd]
  have := Nat.le_mul_of_pos_left p hd
  omega

/-- The sample rates for which R58's K1 is compared with the real number. -/
def usualRates : List Nat := [8000, 11025, 16000, 22050, 32000, 44100, 48000, 96000]

/-- `k` is within one half of 65536 · 2π · 1200 / p, told on naturals alone from twenty decimals of π:
157286400 is 65536 · 2 · 1200. -/
def nearToneConstant (p k : Nat) : Bool :=
  decide (2 * 157286400 * 314159265358979323847 < (2 * k + 1) * p * 10 ^ 20) &&
    decide (2 * k * p * 10 ^ 20 < p * 10 ^ 20 + 2 * 157286400 * 314159265358979323846)

theorem abs_sub_lt_of_nearToneConstant {p k : Nat} (hp : 0 < p) (h : nearToneConstant p k = true) :
    |(k : ℝ) - 65536 * (2 * Real.pi) * 1200 / p| < 1 / 2 := by
  have hp' : (0 : ℝ) < p := by exact_mod_cast hp
  simp only [nearToneConstant, Bool.and_eq_true, decide_eq_true_eq] at h
  have hhi : (2 * 157286400 * 314159265358979323847 : ℝ) < (2 * k + 1) * p * 10 ^ 20 := by exact_mod_cast h.1
  have hlo : (2 * k * p * 10 ^ 20 : ℝ) < p * 10 ^ 20 + 2 * 157286400 * 314159265358979323846 := by exact_mod_cast h.2
  have hgt := Real.pi_gt_d20
  have hlt := Real.pi_lt_d20
  rw [abs_sub_lt_iff, sub_lt_iff_lt_add, sub_lt_iff_lt_add, div_lt_iff₀ hp', ← sub_lt_iff_lt_add', lt_div_iff₀ hp']
  constructor <;> linarith

theorem k1_nearToneConstant :
    ∀ p ∈ usualRates, 0 < p ∧ nearToneConstant p (RegFile.defaults p).k1.toNat = true := by
  decide

/-- Settles O12: the ceilings and the floor by division, K1 from twenty decimals of π. -/
theorem defaultsFollowSampleRate : Obligations.DefaultsFollowSampleRate := by
  refine ⟨fun p _ hp => ⟨rfl, rfl, rfl, rfl, rfl, ?_, ?_, ?_⟩, fun p hp => ⟨?_, rfl⟩⟩
  · have := ceilDiv_le p (d := 3200) (by decide)
    rw [RegFile.defaults, BitVec.toNat_ofNat, Nat.mod_eq_of_lt (by omega)]
    exact_mod_cast ceilDiv_eq_ceil p (by decide)
  · have := ceilDiv_le p (d := 7000) (by decide)
    rw [RegFile.defaults, BitVec.toNat_ofNat, Nat.mod_eq_of_lt (by omega)]
    exact_mod_cast ceilDiv_eq_ceil p (by decide)
  · rw [RegFile.defaults, BitVec.toNat_ofNat, Nat.mod_eq_of_lt (by omega), Nat.cast_max]
    have hfloor : ((p / 6200 : Nat) : ℤ) = ⌊(p : ℚ) / 6200⌋ := (Rat.floor_natCast_div_natCast p 6200).symm
    rw [hfloor, Nat.cast_one]
  · obtain ⟨hpos, hnear⟩ := k1_nearToneConstant p hp
    exact abs_sub_lt_of_nearToneConstant hpos hnear

end Sys2Proof.Machine
end

section
/-! SUPPORT. The invariant of the machine (`Safety.Inv`), cut by session: the laws that last whatever the session is, the
laws of a running session, and what the front end does to them. -/

namespace Sys2Proof.Machine

open Sys2Proof.Safety

/-! The spike window -/

/-- The three forms a window can have (R45, R264). -/
theorem FrontEnd.windowOk_iff {spiking : Bool} {start n : Nat} {f : FrontEnd} :
    f.windowOk spiking start n ↔
      f.spkQ = [] ∨
        (∃ b, f.spkQ = [b] ∧ spiking = true ∧ start ≤ b.2.toNat ∧ b.2.toNat + 1 = n) ∨
        ∃ b c, f.spkQ = [b, c] ∧ spiking = true ∧ start ≤ b.2.toNat ∧ b.2.toNat + 1 = c.2.toNat ∧
          c.2.toNat + 1 = n := by
  unfold FrontEnd.windowOk
  split <;> simp_all

/-- Without the spike filter in the path the window is empty (R216). -/
theorem FrontEnd.windowOk.spkQ_nil {start n : Nat} {f : FrontEnd} (h : f.windowOk false start n) : f.spkQ = [] := by
  simpa using FrontEnd.windowOk_iff.mp h

/-- Below START_IDX the window is empty (R211). -/
theorem FrontEnd.windowOk.spkQ_nil_of_lt {spiking : Bool} {start n : Nat} {f : FrontEnd} (h : f.windowOk spiking start n)
    (hlt : n < start) : f.spkQ = [] := by
  rcases FrontEnd.windowOk_iff.mp h with h | ⟨b, -, -, hb, hn⟩ | ⟨b, c, -, -, hb, hc, hn⟩
  · exact h
  · omega
  · omega

/-- The smallest index the next sample to reach the detector can have when the session's next sample has index `k`. -/
def FrontEnd.nextFrom (k : Nat) (f : FrontEnd) : Nat :=
  match f.spkQ with
  | [] => k
  | e :: _ => e.2.toNat

theorem FrontEnd.nextFrom_nil {k : Nat} {f : FrontEnd} (h : f.spkQ = []) : f.nextFrom k = k := by
  simp only [FrontEnd.nextFrom, h]

theorem FrontEnd.nextFrom_cons {k : Nat} {f : FrontEnd} {e : Analog × Word} {q : List (Analog × Word)}
    (h : f.spkQ = e :: q) : f.nextFrom k = e.2.toNat := by
  simp only [FrontEnd.nextFrom, h]

theorem State.nextIndex_eq (s : State) : s.nextIndex = s.fe.nextFrom s.n.toNat := rfl

/-! The front end -/

/-- The voltages of both stages lie in [−1, 1] (R47). -/
def FrontEnd.voltagesOk (f : FrontEnd) : Prop := (-1 ≤ f.v1 ∧ f.v1 ≤ 1) ∧ -1 ≤ f.v2 ∧ f.v2 ≤ 1

theorem FrontEnd.voltagesOk_reset : FrontEnd.reset.voltagesOk := by
  simp [FrontEnd.voltagesOk, FrontEnd.reset]

theorem detect_fe {y : Analog} {n : Word} {s t : State} (h : detect y n s = .ok t) : t.fe = s.fe := by
  rcases detect_cases h with ⟨-, -, rfl⟩ | ⟨-, -, -, hc⟩ | ⟨-, -, -, rfl⟩ | ⟨-, -, rfl⟩ | ⟨-, -, rfl⟩
  case inr.inl => rw [(completePulse_step hc).1.fe]; rfl
  all_goals rfl

theorem afe_fe {x : Analog} {n : Word} {s t : State} (h : afe x n s = .ok t) : t.fe = afeFront x s := by
  rw [afe_eq] at h
  exact detect_fe h

/-- The front end keeps the bounds of the voltages (R47). -/
theorem frontEnd_voltagesOk {x : Analog} {n : Word} {s t : State} (hv : s.fe.voltagesOk) (h : frontEnd x n s = .ok t) :
    t.fe.voltagesOk := by
  unfold frontEnd at h
  split at h
  · rw [detect_fe h]; exact hv
  · split at h
    · unfold spike at h
      split at h
      · cases h; exact hv
      · cases h; exact hv
      · rw [afe_fe h]; exact afeFront_voltages _ _
    · rw [afe_fe h]; exact afeFront_voltages _ _

theorem afeFront_spkQ (x : Analog) (s : State) : (afeFront x s).spkQ = s.fe.spkQ := meanState_spkQ x s

theorem afeFront_mcnt {x : Analog} {s : State} (hn : s.n ≠ 0xFFFFFFFF#32) (h : s.fe.mcnt.toNat ≤ s.n.toNat) :
    (afeFront x s).mcnt.toNat ≤ s.n.toNat + 1 :=
  (meanState_mcnt h).resolve_left hn

/-! The registers -/

theorem RegFile.legal_iff {c : RegFile} : c.legal = true ↔ ctrlLegal c.ctrl = true ∧ c.zeroCount ≠ 0#32 := by
  simp [RegFile.legal]

theorem RegFile.zeroCount_pos {c : RegFile} (h : c.legal = true) : 0 < c.zeroCount.toNat := by
  refine Nat.pos_of_ne_zero fun he => (RegFile.legal_iff.mp h).2 (BitVec.eq_of_toNat_eq he)

/-- A write that passes the checks of R236 leaves legal registers. -/
theorem RegFile.legal_write {c : RegFile} {a : RegAddr} {d : Word} (hw : writeLegal a d = true) (hc : c.legal = true) :
    (c.write a d).legal = true := by
  obtain ⟨hctrl, hzero⟩ := RegFile.legal_iff.mp hc
  simp only [writeLegal, Bool.and_eq_true, Bool.or_eq_true, bne_iff_ne, ne_eq] at hw
  obtain ⟨⟨-, hctrl'⟩, hzero'⟩ := hw
  rw [RegFile.legal_iff]
  unfold RegFile.write
  split
  case h_1 ha => exact ⟨hctrl'.resolve_left (not_not_intro (BitVec.eq_of_toNat_eq ha)), hzero⟩
  case h_8 ha => exact ⟨hctrl, hzero'.resolve_left (not_not_intro (BitVec.eq_of_toNat_eq ha))⟩
  all_goals exact ⟨hctrl, hzero⟩

end Sys2Proof.Machine

namespace Sys2Proof.Safety

open Sys2Proof.Machine

/-! The invariant, cut by session -/

/-- The part of the invariant that does not speak of the session. -/
structure Lasting (s : State) : Prop where
  cfgLegal   : s.cfg.legal = true
  resetLegal : s.par.cfgReset.legal = true
  memory     : Memory.wf s.pbuf = true
  voltages   : s.fe.voltagesOk
  assembler  : s.asm.ok
  framer     : s.blk.ok s.par.crc

/-- The part of the invariant that speaks of an active session, before its sample of index `k`. -/
structure RunningAt (k : Nat) (s : State) : Prop where
  window    : s.fe.windowOk (s.cfg.spikeEn && !s.cfg.bypass) s.cfg.startIdx.toNat k
  detector  : s.det.ok s.cfg.zeroCount.toNat (s.fe.nextFrom k)
  centre    : CentreBefore (s.fe.nextFrom k) s
  blockTime : BlockTimeKnown s
  meanCount : s.fe.mcnt.toNat ≤ k

/-- What a reset leaves, element by element. -/
theorem fresh_iff {s : State} :
    Fresh s ↔ s.session = .idle ∧ s.n = 0#32 ∧ s.blockCount = 0#32 ∧ s.faultCount = 0#32 ∧ s.fe = .reset ∧
      s.det = .reset ∧ s.prevC2 = none ∧ s.asm = .reset ∧ s.blk = .reset s.par.crc := by
  obtain ⟨⟩ := s
  simp [Fresh, State.init]

/-- A session that has processed nothing is ready to run. -/
theorem Fresh.runningAt {s : State} (h : Fresh s) : RunningAt s.n.toNat s := by
  obtain ⟨-, -, -, -, hfe, hdet, hprev, -, hblk⟩ := fresh_iff.mp h
  refine ⟨?_, ?_, ?_, ?_, ?_⟩
  · rw [hfe]; trivial
  · rw [hdet]; exact fun hin => absurd hin Bool.false_ne_true
  · intro c hc; rw [hprev] at hc; cases hc
  · intro hne; rw [hblk] at hne; exact absurd rfl hne
  · rw [hfe]; exact Nat.zero_le _

theorem inv_iff {s : State} :
    Inv s ↔ Lasting s ∧ (s.session = .idle → Fresh s) ∧ (s.session = .active → RunningAt s.n.toNat s) := by
  constructor
  · intro h
    refine ⟨⟨h.cfgLegal, h.resetLegal, h.memory, ⟨h.voltage1, h.voltage2⟩, h.assembler, h.framer⟩, h.idleFresh, ?_⟩
    intro hs
    exact ⟨h.window hs, s.nextIndex_eq ▸ h.detector hs, s.nextIndex_eq ▸ h.centre hs, h.blockTime hs,
      h.meanCount (by rw [hs]; decide)⟩
  · rintro ⟨hl, hidle, hrun⟩
    refine ⟨hl.cfgLegal, hl.resetLegal, hidle, hl.memory, hl.voltages.1, hl.voltages.2, ?_, fun hs => (hrun hs).window,
      fun hs => s.nextIndex_eq ▸ (hrun hs).detector, fun hs => s.nextIndex_eq ▸ (hrun hs).centre,
      fun hs => (hrun hs).blockTime, hl.assembler, hl.framer⟩
    intro hs
    cases hse : s.session with
    | idle => exact (hidle hse).runningAt.meanCount
    | active => exact (hrun hse).meanCount
    | done => exact absurd hse hs

/-- A session that is not DONE meets the laws of a running one. -/
theorem Inv.runningAt {s : State} (h : Inv s) (hopen : s.session ≠ .done) : RunningAt s.n.toNat s := by
  obtain ⟨-, hidle, hrun⟩ := inv_iff.mp h
  cases hse : s.session with
  | idle => exact (hidle hse).runningAt
  | active => exact hrun hse
  | done => exact absurd hse hopen

theorem Inv.lasting {s : State} (h : Inv s) : Lasting s := (inv_iff.mp h).1

/-- A session that is DONE has only the lasting laws to keep. -/
theorem Lasting.inv_of_done {s : State} (h : Lasting s) (hs : s.session = .done) : Inv s :=
  inv_iff.mpr ⟨h, fun hi => absurd (hs.symm.trans hi) (by decide), fun ha => absurd (hs.symm.trans ha) (by decide)⟩

theorem Lasting.inv_of_active {s : State} (h : Lasting s) (hs : s.session = .active) (hr : RunningAt s.n.toNat s) :
    Inv s :=
  inv_iff.mpr ⟨h, fun hi => absurd (hs.symm.trans hi) (by decide), fun _ => hr⟩

theorem Lasting.inv_of_fresh {s : State} (h : Lasting s) (hf : Fresh s) : Inv s :=
  inv_iff.mpr ⟨h, fun _ => hf, fun _ => hf.runningAt⟩

/-- The invariant speaks of neither port and not of REFUSED. -/
theorem Inv.withPorts {s : State} (h : Inv s) (i : List PortItem) (o : List Event) (r : Option RefusedReason) :
    Inv { s with input := i, output := o, refused := r } := by
  obtain ⟨hl, hidle, hrun⟩ := inv_iff.mp h
  refine inv_iff.mpr ⟨⟨hl.cfgLegal, hl.resetLegal, hl.memory, hl.voltages, hl.assembler, hl.framer⟩, ?_, ?_⟩
  · intro hs
    have hf := fresh_iff.mp (hidle hs)
    exact fresh_iff.mpr hf
  · intro hs
    obtain ⟨hw, hd, hc, hb, hm⟩ := hrun hs
    exact ⟨hw, hd, hc, hb, hm⟩

theorem Inv.after_emit {s : State} (h : Inv s) (e : Event) : Inv (emit e s) :=
  h.withPorts s.input (s.output ++ [e]) s.refused

/-! The front end -/

/-- With an empty window, the laws of a running session in terms of the next index alone. -/
theorem runningAt_of_spkQ_nil {k : Nat} {s : State} (hq : s.fe.spkQ = []) (hd : s.det.ok s.cfg.zeroCount.toNat k)
    (hc : CentreBefore k s) (hb : BlockTimeKnown s) (hm : s.fe.mcnt.toNat ≤ k) : RunningAt k s :=
  ⟨FrontEnd.windowOk_iff.mpr (.inl hq), by rwa [FrontEnd.nextFrom_nil hq], by rwa [FrontEnd.nextFrom_nil hq], hb, hm⟩

theorem detect_runningAt {y : Analog} {s t : State} (hy : y ≤ 1) (hz : 0 < s.cfg.zeroCount.toNat)
    (hr : RunningAt s.n.toNat s) (hq : s.fe.spkQ = []) (h : detect y s.n s = .ok t) : RunningAt (s.n.toNat + 1) t := by
  obtain ⟨-, hd, hc, hb, hm⟩ := hr
  rw [FrontEnd.nextFrom_nil hq] at hd hc
  obtain ⟨hd', hc', hfe, -, hb'⟩ := detect_law hy hz hd hc hb h
  have hcfg := (detect_step h).only.cfg
  refine runningAt_of_spkQ_nil (by rw [hfe, hq]) (by rwa [hcfg]) hc' hb' ?_
  rw [hfe]; exact Nat.le_succ_of_le hm

theorem afe_runningAt {x : Analog} {s t : State} (hz : 0 < s.cfg.zeroCount.toNat) (hn : s.n ≠ 0xFFFFFFFF#32)
    (hr : RunningAt s.n.toNat s) (hq : s.fe.spkQ = []) (h : afe x s.n s = .ok t) : RunningAt (s.n.toNat + 1) t := by
  obtain ⟨-, hd, hc, hb, hm⟩ := hr
  rw [FrontEnd.nextFrom_nil hq] at hd hc
  obtain ⟨hd', hc', hfe, hb'⟩ := afe_law hz hd hc hb h
  have hcfg := (afe_step h).only.cfg
  refine runningAt_of_spkQ_nil (by rw [hfe, afeFront_spkQ, hq]) (by rwa [hcfg]) hc' hb' ?_
  rw [hfe]; exact afeFront_mcnt hn hm

/-- The spike filter takes a sample: it fills the window, or passes the oldest sample on (R260, R264). -/
theorem spike_runningAt {x : Analog} {s t : State} (hz : 0 < s.cfg.zeroCount.toNat) (hn : s.n ≠ 0xFFFFFFFF#32)
    (hspike : (s.cfg.spikeEn && !s.cfg.bypass) = true) (hle : s.cfg.startIdx ≤ s.n) (hr : RunningAt s.n.toNat s)
    (h : spike x s.n s = .ok t) : RunningAt (s.n.toNat + 1) t := by
  obtain ⟨hw, hd, hc, hb, hm⟩ := hr
  have hle : s.cfg.startIdx.toNat ≤ s.n.toNat := hle
  unfold spike at h
  rcases FrontEnd.windowOk_iff.mp hw with hq | ⟨b, hq, -, hstart, hbn⟩ | ⟨b, c, hq, -, hstart, hbc, hcn⟩
  · simp only [hq] at h
    cases h
    rw [FrontEnd.nextFrom_nil hq] at hd hc
    exact ⟨FrontEnd.windowOk_iff.mpr (.inr (.inl ⟨_, rfl, hspike, hle, rfl⟩)), hd, hc, hb, Nat.le_succ_of_le hm⟩
  · simp only [hq] at h
    cases h
    rw [FrontEnd.nextFrom_cons hq] at hd hc
    exact ⟨FrontEnd.windowOk_iff.mpr (.inr (.inr ⟨_, _, rfl, hspike, hstart, hbn, rfl⟩)), hd, hc, hb,
      Nat.le_succ_of_le hm⟩
  · simp only [hq] at h
    rw [FrontEnd.nextFrom_cons hq] at hd hc
    obtain ⟨hd', hc', hfe, hb'⟩ := afe_law (by exact hz) (by exact hd) (by exact hc) (by exact hb) h
    have hcfg : t.cfg = s.cfg := (afe_step h).only.cfg
    have hq' : t.fe.spkQ = [c, (x, s.n)] := by rw [hfe, afeFront_spkQ]; rfl
    refine ⟨FrontEnd.windowOk_iff.mpr (.inr (.inr ⟨_, _, hq', ?_, ?_, hcn, rfl⟩)), ?_, ?_, hb', ?_⟩
    · rw [hcfg]; exact hspike
    · rw [hcfg]; show s.cfg.startIdx.toNat ≤ c.2.toNat; omega
    · rw [FrontEnd.nextFrom_cons hq', ← hbc, hcfg]; exact hd'
    · rw [FrontEnd.nextFrom_cons hq', ← hbc]; exact hc'
    · rw [hfe]; exact afeFront_mcnt hn hm

/-- A sample that reaches the front end keeps the laws of a running session for the next index (R216). -/
theorem frontEnd_runningAt {x : Analog} {s t : State} (hz : 0 < s.cfg.zeroCount.toNat) (hn : s.n ≠ 0xFFFFFFFF#32)
    (hle : s.cfg.startIdx ≤ s.n) (hr : RunningAt s.n.toNat s) (h : frontEnd x s.n s = .ok t) :
    RunningAt (s.n.toNat + 1) t := by
  have hw := hr.window
  unfold frontEnd at h
  split at h
  · rename_i hby
    rw [hby, Bool.not_true, Bool.and_false] at hw
    exact detect_runningAt (clamp_bounds x zero_le_one).2 hz hr hw.spkQ_nil h
  · rename_i hby
    split at h
    · rename_i hsp
      exact spike_runningAt hz hn (by simp [hsp, hby]) hle hr h
    · rename_i hsp
      rw [Bool.not_eq_true] at hsp
      rw [hsp, Bool.false_and] at hw
      exact afe_runningAt hz hn hr hw.spkQ_nil h

/-- A sample below START_IDX keeps them too: nothing but the next index changes (R211). -/
theorem RunningAt.skip {k : Nat} {s : State} (hr : RunningAt k s) (hlt : k < s.cfg.startIdx.toNat) :
    RunningAt (k + 1) s := by
  obtain ⟨hw, hd, hc, hb, hm⟩ := hr
  have hq := hw.spkQ_nil_of_lt hlt
  rw [FrontEnd.nextFrom_nil hq] at hd hc
  exact runningAt_of_spkQ_nil hq (Detector.ok_mono (Nat.le_succ k) hd) (hc.mono (Nat.le_succ k)) hb
    (Nat.le_succ_of_le hm)

/-! The registers, the resets and the end of a stream -/

/-- CFG_WRITE outside ACTIVE keeps the invariant, which speaks of `cfg` there only as legal values. -/
theorem Inv.withCfg {s : State} (h : Inv s) (hs : s.session ≠ .active) {c : RegFile} (hc : c.legal = true) :
    Inv { s with cfg := c } := by
  obtain ⟨hl, hidle, -⟩ := inv_iff.mp h
  refine inv_iff.mpr ⟨⟨hc, hl.resetLegal, hl.memory, hl.voltages, hl.assembler, hl.framer⟩, ?_, fun ha => absurd ha hs⟩
  intro hi
  have hf := fresh_iff.mp (hidle hi)
  exact fresh_iff.mpr hf

theorem sessionResetState_inv {s : State} (hc : s.cfg.legal = true) (hp : s.par.cfgReset.legal = true) :
    Inv (sessionResetState s) :=
  Lasting.inv_of_fresh ⟨hc, hp, rfl, FrontEnd.voltagesOk_reset, BitAsm.ok_reset, Framer.ok_reset _⟩
    (fresh_iff.mpr ⟨rfl, rfl, rfl, rfl, rfl, rfl, rfl, rfl, rfl⟩)

theorem Lasting.inv_endOfStream {s : State} (h : Lasting s) (c : Cause) : Inv (endOfStream c s) :=
  Lasting.inv_of_done ⟨h.cfgLegal, h.resetLegal, h.memory, h.voltages, h.assembler, h.framer⟩ rfl

/-! SAMPLE -/

theorem Lasting.withSession {s : State} (h : Lasting s) (x : Session) : Lasting { s with session := x } :=
  ⟨h.cfgLegal, h.resetLegal, h.memory, h.voltages, h.assembler, h.framer⟩

theorem RunningAt.withSession {k : Nat} {s : State} (h : RunningAt k s) (x : Session) :
    RunningAt k { s with session := x } :=
  ⟨h.window, h.detector, h.centre, h.blockTime, h.meanCount⟩

/-- A pipeline step keeps the lasting laws when the voltages stay in their bounds. -/
theorem Lasting.after_pipeline {s t : State} (h : Lasting s) (hst : PipelineStep s t) (hv : t.fe.voltagesOk) :
    Lasting t where
  cfgLegal := by rw [hst.only.cfg]; exact h.cfgLegal
  resetLegal := by rw [hst.only.par]; exact h.resetLegal
  memory := hst.wf h.memory
  voltages := hv
  assembler := hst.asm h.assembler
  framer := by rw [hst.only.par]; exact hst.blk h.framer

theorem Lasting.after_taken {d : Word} {s u : State} (h : Lasting s) (hu : SampleTaken d s u) : Lasting u := by
  refine (h.withSession .active).after_pipeline hu.pipelineStep ?_
  cases hu with
  | skipped _ eq => subst eq; exact h.voltages
  | processed x _ _ run => exact frontEnd_voltagesOk (s := { s with session := .active }) h.voltages run

theorem RunningAt.after_taken {d : Word} {s u : State} (hr : RunningAt s.n.toNat s) (h : Lasting s) (hu : SampleTaken d s u)
    (hn : s.n ≠ 0xFFFFFFFF#32) : RunningAt (s.n.toNat + 1) u := by
  have hr' := hr.withSession .active
  cases hu with
  | skipped below eq => subst eq; exact hr'.skip below
  | processed x _ reached run =>
    have hz := RegFile.zeroCount_pos h.cfgLegal
    exact frontEnd_runningAt (s := { s with session := .active }) hz hn reached hr' run

theorem Inv.after_sample {d : Word} {s t : State} (h : Inv s) (ht : SampleResult d s t) : Inv t := by
  cases ht with
  | rejected _ eq => subst eq; exact h.after_emit _
  | refused _ _ eq => subst eq; exact h.withPorts s.input s.output _
  | stopped _ _ _ eq => subst eq; exact (h.lasting.withSession .active).inv_endOfStream _
  | counted u notDone _ _ taken eq =>
    have hl := h.lasting.after_taken taken
    have hn : u.n = s.n := taken.pipelineStep.only.n
    rcases countSample_cases u with ⟨-, hc⟩ | ⟨hlast, hc⟩ <;> rw [eq, hc]
    · exact hl.inv_endOfStream _
    · rw [hn] at hlast
      have hr := (h.runningAt notDone).after_taken h.lasting taken hlast
      have hsucc : (u.n + 1).toNat = s.n.toNat + 1 := by
        rw [hn]; refine word_toNat_succ ?_
        have : s.n.toNat ≠ 0xFFFFFFFF := fun he => hlast (BitVec.eq_of_toNat_eq he)
        have := s.n.isLt; omega
      refine Lasting.inv_of_active ⟨hl.cfgLegal, hl.resetLegal, hl.memory, hl.voltages, hl.assembler, hl.framer⟩
        taken.pipelineStep.only.session ?_
      rw [show ({ u with n := u.n + 1 } : State).n.toNat = s.n.toNat + 1 from hsucc]
      exact ⟨hr.window, hr.detector, hr.centre, hr.blockTime, hr.meanCount⟩

/-! One step -/

theorem Inv.after_exec {i : Instr} {s t : State} (h : Inv s) (ht : exec i s = .next t) : Inv t := by
  cases i with
  | nop => rw [exec_nop_next ht]; exact h
  | sample d => exact h.after_sample (exec_sample_result ht)
  | endStream =>
    rcases exec_endStream_cases ht with ⟨-, rfl⟩ | ⟨-, rfl⟩
    · exact h.after_emit _
    · exact h.lasting.inv_endOfStream _
  | cfgWrite a d =>
    rcases exec_cfgWrite_cases ht with ⟨r, rfl⟩ | ⟨hs, hw, rfl⟩
    · exact h.after_emit _
    · exact h.withCfg hs (RegFile.legal_write hw h.cfgLegal)
  | cfgRead a => rw [exec_cfgRead_next ht]; exact h.after_emit _
  | sessionReset => rw [exec_sessionReset_next ht]; exact sessionResetState_inv h.cfgLegal h.resetLegal

/-- Settles O55, by what a step can do. -/
theorem stepKeepsInvariant : Obligations.StepKeepsInvariant := by
  intro s t h ht
  have htaken : ∀ rest, Inv { s with input := rest } := fun rest => h.withPorts rest s.output s.refused
  cases step_result ht with
  | idle _ eq => subst eq; exact h
  | hardwareReset rest _ eq => subst eq; exact sessionResetState_inv h.resetLegal h.resetLegal
  | command _ rest _ _ _ run => exact (htaken rest).after_exec run
  | malformed _ rest _ _ _ eq => subst eq; exact (htaken rest).after_emit _

end Sys2Proof.Safety
end

section
/-! SUPPORT. The event counters count the events of every unit (10_state.md R35). -/

namespace Sys2Proof.Machine

open Sys2Proof.Safety

/-- `t` has emitted some events after `s`, and its counters are higher by the BLOCK and FAULT events among them. -/
def Counted (s t : State) : Prop :=
  ∃ es, t.output = s.output ++ es ∧ t.blockCount = s.blockCount + BitVec.ofNat 32 (es.countP isBlock) ∧
    t.faultCount = s.faultCount + BitVec.ofNat 32 (es.countP isFault)

theorem Counted.of_silent {s t : State} (ho : t.output = s.output) (hb : t.blockCount = s.blockCount)
    (hf : t.faultCount = s.faultCount) : Counted s t :=
  ⟨[], by simpa using ho, by simpa using hb, by simpa using hf⟩

theorem Counted.refl (s : State) : Counted s s := .of_silent rfl rfl rfl

theorem Counted.trans {s t u : State} (h : Counted s t) (h' : Counted t u) : Counted s u := by
  obtain ⟨es, ho, hb, hf⟩ := h
  obtain ⟨es', ho', hb', hf'⟩ := h'
  refine ⟨es ++ es', by rw [ho', ho, List.append_assoc], ?_, ?_⟩
  · rw [hb', hb, List.countP_append, BitVec.ofNat_add, BitVec.add_assoc]
  · rw [hf', hf, List.countP_append, BitVec.ofNat_add, BitVec.add_assoc]

/-- What is counted from a state is counted from one with the same events and counters. -/
theorem Counted.after_silent {s s' t : State} (h : Counted s' t) (ho : s'.output = s.output)
    (hb : s'.blockCount = s.blockCount) (hf : s'.faultCount = s.faultCount) : Counted s t :=
  Counted.trans (.of_silent ho hb hf) h

/-- An event of another kind counts nowhere. -/
theorem emit_counted {e : Event} (s : State) (hb : isBlock e = false) (hf : isFault e = false) : Counted s (emit e s) :=
  ⟨[e], rfl, by simp [hb], by simp [hf]⟩

/-- Taking a fault counts its FAULT event (R600). -/
theorem raiseFault_counted (k : FaultKind) (c2 : Time) (s : State) : Counted s (raiseFault k c2 s) :=
  ⟨[.fault k c2], raiseFault_output k c2 s, by simp [isBlock], by simp [isFault]⟩

/-! The framer -/

theorem coverHeader_counted (b : Byte) (s : State) : Counted s (coverHeader b s) := by
  unfold coverHeader
  split <;> exact .of_silent rfl rfl rfl

theorem huntByte_counted (b : Byte) (c2 : Time) (s : State) : Counted s (huntByte b c2 s) := by
  unfold huntByte
  split <;> exact .of_silent rfl rfl rfl

theorem lenByte_counted (b : Byte) (c2 : Time) (s : State) : Counted s (lenByte b c2 s) := by
  simp only [lenByte]
  split_ifs
  · exact raiseFault_counted _ c2 (setBlk _ s)
  · exact .of_silent rfl rfl rfl
  · exact .of_silent rfl rfl rfl

theorem hcrcByte_counted (b : Byte) (c2 : Time) (s : State) : Counted s (hcrcByte b c2 s) := by
  simp only [hcrcByte]
  split_ifs
  · exact raiseFault_counted _ c2 (setBlk _ s)
  all_goals exact .of_silent rfl rfl rfl

theorem dataByte_counted {b : Byte} {s t : State} (h : dataByte b s = .ok t) : Counted s t := by
  simp only [dataByte] at h
  split at h
  · cases h
  · split at h <;> cases h <;> exact .of_silent rfl rfl rfl

/-- A BLOCK event counts (R447). -/
theorem emitBlock_counted {s t : State} (h : emitBlock s = .ok t) : Counted s t := by
  unfold emitBlock at h
  split at h <;> cases h
  exact ⟨[_], rfl, by simp [isBlock, abandonBlock], by simp [isFault, abandonBlock]⟩

theorem pcrcByte_counted {b : Byte} {c2 : Time} {s t : State} (h : pcrcByte b c2 s = .ok t) : Counted s t := by
  simp only [pcrcByte] at h
  split at h
  · split at h
    · cases h; exact raiseFault_counted _ c2 (setBlk _ s)
    · exact (emitBlock_counted h).after_silent rfl rfl rfl
  · cases h; exact .of_silent rfl rfl rfl

theorem frame_counted {b : Byte} {c2 : Time} {s t : State} (h : frame b c2 s = .ok t) : Counted s t := by
  refine (coverHeader_counted b s).trans ?_
  unfold frame frameByState at h
  split at h
  case h_1 => cases h; exact huntByte_counted b c2 _
  case h_7 => cases h; exact lenByte_counted b c2 _
  case h_10 => cases h; exact hcrcByte_counted b c2 _
  case h_11 => exact dataByte_counted h
  case h_12 => exact pcrcByte_counted h
  all_goals cases h; exact .of_silent rfl rfl rfl

/-! The assembler, the detector and the front end -/

theorem pushBit_counted {bit : Bool} {c2 : Time} {s t : State} (h : pushBit bit c2 s = .ok t) : Counted s t := by
  unfold pushBit at h
  split at h
  · refine Counted.trans ?_ (frame_counted h)
    exact emit_counted (e := .byte _ c2) s rfl rfl
  · cases h; exact .of_silent rfl rfl rfl

theorem assemble_counted {tone : Tone} {w : Word} {c2 : Time} {s t : State} (h : assemble tone w c2 s = .ok t) :
    Counted s t := by
  unfold assemble at h
  split at h
  case h_1 => cases h; exact raiseFault_counted _ c2 s
  case h_6 => exact (pushBit_counted h).after_silent rfl rfl rfl
  case h_7 =>
    split at h
    · exact (pushBit_counted h).after_silent rfl rfl rfl
    · cases h; exact .of_silent rfl rfl rfl
  case h_8 => cases h; exact raiseFault_counted _ c2 s
  case h_9 => split at h <;> cases h <;> exact .of_silent rfl rfl rfl
  all_goals cases h; exact .of_silent rfl rfl rfl

theorem classify_counted {w : Word} {c2 : Time} {s t : State} (h : classify w c2 s = .ok t) : Counted s t := by
  unfold classify at h
  exact (assemble_counted h).after_silent rfl rfl rfl

theorem completePulse_counted {start stop : Word} {peak : Analog} {s t : State}
    (h : completePulse start stop peak s = .ok t) : Counted s t := by
  have hpulse := emit_counted (e := .pulse start stop peak (accepted s peak)) s rfl rfl
  simp only [completePulse] at h
  split at h
  · exact hpulse.trans (classify_counted h)
  · cases h; exact hpulse

theorem detect_counted {y : Analog} {n : Word} {s t : State} (h : detect y n s = .ok t) : Counted s t := by
  rcases detect_cases h with ⟨-, -, rfl⟩ | ⟨-, -, -, hc⟩ | ⟨-, -, -, rfl⟩ | ⟨-, -, rfl⟩ | ⟨-, -, rfl⟩
  case inr.inl => exact (completePulse_counted hc).after_silent rfl rfl rfl
  all_goals exact .of_silent rfl rfl rfl

theorem afe_counted {x : Analog} {n : Word} {s t : State} (h : afe x n s = .ok t) : Counted s t := by
  rw [afe_eq] at h
  exact (detect_counted h).after_silent rfl rfl rfl

theorem frontEnd_counted {x : Analog} {n : Word} {s t : State} (h : frontEnd x n s = .ok t) : Counted s t := by
  unfold frontEnd at h
  split at h
  · exact detect_counted h
  · split at h
    · unfold spike at h
      split at h
      · cases h; exact .of_silent rfl rfl rfl
      · cases h; exact .of_silent rfl rfl rfl
      · exact (afe_counted h).after_silent rfl rfl rfl
    · exact afe_counted h

/-! The commands -/

theorem SampleResult.isCounted {d : Word} {s t : State} (h : SampleResult d s t) : Counted s t := by
  cases h with
  | rejected _ eq => subst eq; exact emit_counted s rfl rfl
  | refused _ _ eq => subst eq; exact .of_silent rfl rfl rfl
  | stopped _ _ _ eq => subst eq; exact emit_counted (e := .exhausted .stopIndex) s rfl rfl
  | counted u _ _ _ taken eq =>
    have hu : Counted s u := by
      cases taken with
      | skipped _ eq => subst eq; exact .of_silent rfl rfl rfl
      | processed x _ _ run => exact (frontEnd_counted run).after_silent rfl rfl rfl
    rcases countSample_cases u with ⟨-, hc⟩ | ⟨-, hc⟩ <;> rw [eq, hc]
    · exact hu.trans (emit_counted (e := .exhausted .indexExhausted) u rfl rfl)
    · exact hu.trans (.of_silent rfl rfl rfl)

theorem exec_counted {i : Instr} {s t : State} (hi : i ≠ .sessionReset) (h : exec i s = .next t) : Counted s t := by
  cases i with
  | nop => rw [exec_nop_next h]; exact .refl s
  | sample d => exact (exec_sample_result h).isCounted
  | endStream =>
    rcases exec_endStream_cases h with ⟨-, rfl⟩ | ⟨-, rfl⟩
    · exact emit_counted s rfl rfl
    · exact emit_counted (e := .exhausted .endCommand) s rfl rfl
  | cfgWrite a d =>
    rcases exec_cfgWrite_cases h with ⟨r, rfl⟩ | ⟨-, -, rfl⟩
    · exact emit_counted s rfl rfl
    · exact .of_silent rfl rfl rfl
  | cfgRead a => rw [exec_cfgRead_next h]; exact emit_counted s rfl rfl
  | sessionReset => exact absurd rfl hi

/-- Settles O52: every unit counts what it emits. -/
theorem countersCountEvents : Obligations.CountersCountEvents := by
  refine ⟨fun i s t hi h => ?_, fun s => ⟨_, rfl, rfl, rfl⟩, rfl, rfl⟩
  obtain ⟨es, ho, hb, hf⟩ := exec_counted hi h
  rw [newEvents_of_append ho]
  exact ⟨hb, hf⟩

end Sys2Proof.Machine
end

section
/-! SUPPORT. No step sees a byte of PBUF that the block in progress has not written (10_state.md R56, 44_framer.md R448):
two states that differ in such bytes alone take the same step. -/

namespace Sys2Proof.Safety

open Sys2Proof.Machine

/-! The relation -/

/-- Two answers of a unit that agree but for unwritten bytes of PBUF. -/
def SameResult : Except Fault State → Except Fault State → Prop
  | .ok s, .ok t => SameButUnwritten s t
  | .error f, .error g => f = g
  | _, _ => False

theorem written_eq_zero {f : Framer} (hd : f.fr ≠ .data) (hp : f.fr ≠ .pcrc) : written f = 0 := by
  unfold written
  split <;> simp_all

theorem SameButUnwritten.exists_pbuf {s t : State} (h : SameButUnwritten s t) : ∃ m, t = { s with pbuf := m } :=
  ⟨t.pbuf, h.1⟩

theorem SameButUnwritten.cfg {s t : State} (h : SameButUnwritten s t) : t.cfg = s.cfg := by rw [h.1]
theorem SameButUnwritten.n {s t : State} (h : SameButUnwritten s t) : t.n = s.n := by rw [h.1]
theorem SameButUnwritten.fe {s t : State} (h : SameButUnwritten s t) : t.fe = s.fe := by rw [h.1]
theorem SameButUnwritten.det {s t : State} (h : SameButUnwritten s t) : t.det = s.det := by rw [h.1]
theorem SameButUnwritten.asm {s t : State} (h : SameButUnwritten s t) : t.asm = s.asm := by rw [h.1]
theorem SameButUnwritten.blk {s t : State} (h : SameButUnwritten s t) : t.blk = s.blk := by rw [h.1]

theorem SameButUnwritten.refl_of_wf {s : State} (h : Memory.wf s.pbuf = true) : SameButUnwritten s s :=
  ⟨rfl, h, h, fun _ _ => rfl⟩

/-- An update that neither reads nor writes PBUF keeps the relation when no byte becomes written. -/
theorem SameButUnwritten.update {s t : State} (h : SameButUnwritten s t) {g : State → State}
    (hg : ∀ (u : State) (m : Memory), g { u with pbuf := m } = { g u with pbuf := m })
    (hw : written (g s).blk ≤ written s.blk) : SameButUnwritten (g s) (g t) := by
  obtain ⟨heq, hs, ht, hlookup⟩ := h
  have hpbuf : ∀ u : State, (g u).pbuf = u.pbuf := by
    intro u
    have hu := congrArg State.pbuf (hg u u.pbuf)
    exact hu
  refine ⟨?_, by rwa [hpbuf], by rwa [hpbuf], fun a ha => ?_⟩
  · rw [hpbuf t, ← hg, ← heq]
  · rw [hpbuf, hpbuf]; exact hlookup a (ha.trans_le hw)

/-! The framer -/

theorem written_coverHeader (b : Byte) (s : State) : written (coverHeader b s).blk = written s.blk := by
  unfold coverHeader
  split <;> rfl

theorem coverHeader_same {b : Byte} {s t : State} (h : SameButUnwritten s t) :
    SameButUnwritten (coverHeader b s) (coverHeader b t) :=
  h.update (fun u m => by unfold coverHeader; dsimp only; split <;> rfl) (written_coverHeader b s).le

theorem huntByte_same {b : Byte} {c2 : Time} {s t : State} (h : SameButUnwritten s t) :
    SameButUnwritten (huntByte b c2 s) (huntByte b c2 t) := by
  refine h.update (fun u m => ?_) ?_
  · unfold huntByte; split <;> rfl
  · unfold huntByte; split
    · exact le_rfl
    · exact Nat.zero_le _

theorem written_raiseFault (k : FaultKind) (c2 : Time) (s : State) : written (raiseFault k c2 s).blk ≤ written s.blk := by
  cases k with
  | invalidPulse => exact le_rfl
  | framingFault | blockLengthFault | headerCrcFault | payloadCrcFault => exact Nat.zero_le _

theorem raiseFault_same {k : FaultKind} {c2 : Time} {s t : State} (h : SameButUnwritten s t) :
    SameButUnwritten (raiseFault k c2 s) (raiseFault k c2 t) :=
  h.update (fun u m => by cases k <;> rfl) (written_raiseFault k c2 s)

theorem advance_fr (k : BitVec 9) (n : FrState) (f : Framer) : (f.advance k n).fr = n ∨ (f.advance k n).fr = f.fr := by
  unfold Framer.advance
  split
  · exact .inl rfl
  · exact .inr rfl

theorem written_advance {k : BitVec 9} {n : FrState} {f : Framer} (hn : n ≠ .data ∧ n ≠ .pcrc)
    (hf : f.fr ≠ .data ∧ f.fr ≠ .pcrc) : written (f.advance k n) = 0 := by
  rcases advance_fr k n f with h | h
  · exact written_eq_zero (by rw [h]; exact hn.1) (by rw [h]; exact hn.2)
  · exact written_eq_zero (by rw [h]; exact hf.1) (by rw [h]; exact hf.2)

theorem written_nameByte {term10 : Bool} {b : Byte} {f : Framer} (hf : f.fr = .name) :
    written (f.nameByte term10 b) = 0 := by
  unfold Framer.nameByte
  split
  · rfl
  · split
    · cases term10 <;> rfl
    · exact written_eq_zero (by simp [hf]) (by simp [hf])

theorem setBlk_same {f : Framer} {s t : State} (h : SameButUnwritten s t) (hw : written f ≤ written s.blk) :
    SameButUnwritten (setBlk f s) (setBlk f t) :=
  h.update (g := setBlk f) (fun _ _ => rfl) hw

theorem lenByte_same {b : Byte} {c2 : Time} {s t : State} (h : SameButUnwritten s t) (hfr : s.blk.fr = .len) :
    SameButUnwritten (lenByte b c2 s) (lenByte b c2 t) := by
  refine h.update (fun u m => ?_) ?_
  · simp only [lenByte]; split_ifs <;> rfl
  · simp only [lenByte]; split_ifs
    · exact Nat.zero_le _
    · exact Nat.zero_le _
    · exact (written_eq_zero (by simp [hfr]) (by simp [hfr])).le.trans (Nat.zero_le _)

theorem hcrcByte_same {b : Byte} {c2 : Time} {s t : State} (h : SameButUnwritten s t) (hfr : s.blk.fr = .hcrc) :
    SameButUnwritten (hcrcByte b c2 s) (hcrcByte b c2 t) := by
  refine h.update (fun u m => ?_) ?_
  · simp only [hcrcByte]; split_ifs <;> rfl
  · simp only [hcrcByte]; split_ifs with h2 hcrc hlen
    · exact Nat.zero_le _
    · exact Nat.zero_le _
    · simp [written]; omega
    · exact (written_eq_zero (by simp [hfr]) (by simp [hfr])).le.trans (Nat.zero_le _)

/-- A payload byte is written at the index the block has reached, so the bytes written stay the same in both (R444). -/
theorem dataByte_same {b : Byte} {s t : State} (h : SameButUnwritten s t) (hfr : s.blk.fr = .data) :
    SameResult (dataByte b s) (dataByte b t) := by
  obtain ⟨m, rfl⟩ := h.exists_pbuf
  obtain ⟨-, hs, hm, hlookup⟩ := h
  simp only [written, hfr] at hlookup
  by_cases ha : s.blk.frCnt.toNat < pbufSize
  · have hafter : ∀ f : Framer, written f ≤ s.blk.frCnt.toNat + 1 →
        SameButUnwritten (setBlk f { s with pbuf := Memory.set s.pbuf s.blk.frCnt.toNat b })
          (setBlk f { s with pbuf := Memory.set m s.blk.frCnt.toNat b }) := by
      refine fun f hf => ⟨rfl, Memory.wf_set b ha hs, Memory.wf_set b ha hm, fun a hlt => ?_⟩
      have hlt : a < s.blk.frCnt.toNat + 1 := Nat.lt_of_lt_of_le hlt hf
      show Memory.lookup (Memory.set s.pbuf _ b) a = Memory.lookup (Memory.set m _ b) a
      rw [Memory.lookup_set hs, Memory.lookup_set hm]
      split
      · rfl
      · exact hlookup a (by omega)
    simp only [dataByte, memWrite, if_pos ha]
    split_ifs with hlast
    · exact hafter _ hlast.ge
    · refine hafter _ ?_
      simp only [written, hfr, BitVec.toNat_add]
      exact Nat.mod_le _ _
  · simp only [dataByte, memWrite, if_neg ha]
    rfl

/-- A BLOCK takes the bytes that the block has written, all of them (R447). -/
theorem emitBlock_same {s t : State} (h : SameButUnwritten s t) (hfr : s.blk.fr = .pcrc) :
    SameResult (emitBlock s) (emitBlock t) := by
  obtain ⟨m, rfl⟩ := h.exists_pbuf
  obtain ⟨-, hs, hm, hlookup⟩ := h
  simp only [written, hfr] at hlookup
  have hread : (List.range s.blk.len.toNat).map (Memory.lookup m) =
      (List.range s.blk.len.toNat).map (Memory.lookup s.pbuf) :=
    List.map_congr_left fun a ha => (hlookup a (List.mem_range.mp ha)).symm
  by_cases hlen : s.blk.len.toNat ≤ pbufSize
  · simp only [emitBlock, memReadFirst, if_pos hlen, hread]
    exact ⟨rfl, hs, hm, fun a ha => absurd ha (Nat.not_lt_zero a)⟩
  · simp only [emitBlock, memReadFirst, if_neg hlen]
    rfl

theorem pcrcByte_same {b : Byte} {c2 : Time} {s t : State} (h : SameButUnwritten s t) (hfr : s.blk.fr = .pcrc) :
    SameResult (pcrcByte b c2 s) (pcrcByte b c2 t) := by
  have hset : ∀ (r : Half) (n : BitVec 9), SameButUnwritten (setBlk { s.blk with pcrcRx := r, frCnt := n } s)
      (setBlk { s.blk with pcrcRx := r, frCnt := n } t) := fun r n =>
    setBlk_same h (by simp [written, hfr])
  obtain ⟨m, rfl⟩ := h.exists_pbuf
  simp only [pcrcByte]
  split_ifs
  · exact raiseFault_same (hset _ _)
  · exact emitBlock_same (hset _ _) hfr
  · exact hset _ _

theorem frameByState_same {b : Byte} {c2 : Time} {s t : State} (h : SameButUnwritten s t) :
    SameResult (frameByState b c2 s) (frameByState b c2 t) := by
  have hheader : ∀ f : Framer, written f = 0 → SameButUnwritten (setBlk f s) (setBlk f t) :=
    fun f hf => setBlk_same h (hf.trans_le (Nat.zero_le _))
  have hfield : ∀ {k : BitVec 9} {n : FrState} {f : Framer}, n ≠ .data ∧ n ≠ .pcrc → f.fr ≠ .data ∧ f.fr ≠ .pcrc →
      SameButUnwritten (setBlk (f.advance k n) s) (setBlk (f.advance k n) t) :=
    fun hn hf => hheader _ (written_advance hn hf)
  unfold frameByState
  rw [h.blk, h.cfg]
  cases hfr : s.blk.fr with
  | hunt => exact huntByte_same h
  | name => exact hheader _ (written_nameByte hfr)
  | nameTerm => exact hheader _ rfl
  | load => exact hfield (by decide) (by simp [hfr])
  | exec => exact hfield (by decide) (by simp [hfr])
  | seq => exact hfield (by decide) (by simp [hfr])
  | len => exact lenByte_same h hfr
  | flag => exact hheader _ rfl
  | next => exact hfield (by decide) (by simp [hfr])
  | hcrc => exact hcrcByte_same h hfr
  | data => exact dataByte_same h hfr
  | pcrc => exact pcrcByte_same h hfr

/-- The framer sees no unwritten byte of PBUF. -/
theorem frame_same {b : Byte} {c2 : Time} {s t : State} (h : SameButUnwritten s t) :
    SameResult (frame b c2 s) (frame b c2 t) :=
  frameByState_same (coverHeader_same h)

/-! The assembler, the detector and the front end: they do not touch PBUF -/

theorem setAsm_same {a : BitAsm} {s t : State} (h : SameButUnwritten s t) : SameButUnwritten (setAsm a s) (setAsm a t) :=
  h.update (g := setAsm a) (fun _ _ => rfl) le_rfl

theorem pushBit_same {bit : Bool} {c2 : Time} {s t : State} (h : SameButUnwritten s t) :
    SameResult (pushBit bit c2 s) (pushBit bit c2 t) := by
  unfold pushBit
  rw [h.asm]
  split
  · exact frame_same (h.update (g := completeByte _ c2) (fun _ _ => rfl) le_rfl)
  · exact setAsm_same h

theorem assemble_same {tone : Tone} {w : Word} {c2 : Time} {s t : State} (h : SameButUnwritten s t) :
    SameResult (assemble tone w c2 s) (assemble tone w c2 t) := by
  unfold assemble
  rw [h.asm]
  split
  case h_1 => exact raiseFault_same h
  case h_2 => exact h
  case h_3 => exact setAsm_same h
  case h_4 => exact setAsm_same h
  case h_5 => exact h
  case h_6 => exact pushBit_same (setAsm_same h)
  case h_7 =>
    split
    · exact pushBit_same (setAsm_same h)
    · exact setAsm_same h
  case h_8 => exact raiseFault_same h
  case h_9 => split <;> exact setAsm_same h

theorem classify_same {w : Word} {c2 : Time} {s t : State} (h : SameButUnwritten s t) :
    SameResult (classify w c2 s) (classify w c2 t) := by
  have htone : toneOf w c2 t = toneOf w c2 s := by rw [h.1]; rfl
  unfold classify
  rw [htone]
  exact assemble_same (h.update (g := fun u => { u with prevC2 := some c2 }) (fun _ _ => rfl) le_rfl)

theorem emit_same {e : Event} {s t : State} (h : SameButUnwritten s t) : SameButUnwritten (emit e s) (emit e t) :=
  h.update (g := emit e) (fun _ _ => rfl) le_rfl

theorem completePulse_same {start stop : Word} {peak : Analog} {s t : State} (h : SameButUnwritten s t) :
    SameResult (completePulse start stop peak s) (completePulse start stop peak t) := by
  have hacc : accepted t peak = accepted s peak := by rw [h.1]; rfl
  unfold completePulse
  rw [hacc]
  split
  · exact classify_same (emit_same h)
  · exact emit_same h

theorem setDet_same {d : Detector} {s t : State} (h : SameButUnwritten s t) : SameButUnwritten (setDet d s) (setDet d t) :=
  h.update (g := setDet d) (fun _ _ => rfl) le_rfl

theorem detect_same {y : Analog} {n : Word} {s t : State} (h : SameButUnwritten s t) :
    SameResult (detect y n s) (detect y n t) := by
  unfold detect
  rw [h.det, h.cfg]
  split_ifs
  · exact setDet_same h
  · exact completePulse_same (setDet_same h)
  · exact setDet_same h
  · exact setDet_same h
  · exact h

theorem setFe_same {f : FrontEnd} {s t : State} (h : SameButUnwritten s t) : SameButUnwritten (setFe f s) (setFe f t) :=
  h.update (g := setFe f) (fun _ _ => rfl) le_rfl

theorem meanState_same {x : Analog} {s t : State} (h : SameButUnwritten s t) :
    SameButUnwritten (meanState x s) (meanState x t) := by
  refine h.update (fun u m => ?_) ?_
  · simp only [meanState]; split_ifs <;> rfl
  · rw [meanState_eq]

theorem afe_same {x : Analog} {n : Word} {s t : State} (h : SameButUnwritten s t) :
    SameResult (afe x n s) (afe x n t) := by
  have hmean := meanState_same (x := x) h
  have hinput : stageInput x t = stageInput x s := by rw [h.1]; rfl
  unfold afe; dsimp only
  rw [h.fe, h.cfg, hmean.fe, hinput]
  exact detect_same (setFe_same hmean)

theorem spike_same {x : Analog} {n : Word} {s t : State} (h : SameButUnwritten s t) :
    SameResult (spike x n s) (spike x n t) := by
  unfold spike
  rw [h.fe]
  split
  · exact setFe_same h
  · exact setFe_same h
  · exact afe_same (setFe_same h)

theorem frontEnd_same {x : Analog} {n : Word} {s t : State} (h : SameButUnwritten s t) :
    SameResult (frontEnd x n s) (frontEnd x n t) := by
  unfold frontEnd
  rw [h.cfg]
  split_ifs
  · exact detect_same h
  · exact spike_same h
  · exact afe_same h

/-! The commands -/

theorem countSample_same {s t : State} (h : SameButUnwritten s t) : SameButUnwritten (countSample s) (countSample t) := by
  refine h.update (fun u m => ?_) ?_
  · unfold countSample; split <;> rfl
  · unfold countSample; split <;> exact le_rfl

theorem takeSample_same {x : Analog} {s t : State} (h : SameButUnwritten s t) :
    SameResult (takeSample x s) (takeSample x t) := by
  have hfront := frontEnd_same (x := x) (n := s.n) h
  unfold takeSample
  rw [h.cfg, h.n]
  split
  · cases hs : frontEnd x s.n s <;> cases ht : frontEnd x s.n t <;> rw [hs, ht] at hfront
    · exact hfront
    · exact hfront.elim
    · exact hfront.elim
    · exact countSample_same hfront
  · exact countSample_same h

theorem endOfStream_same {c : Cause} {s t : State} (h : SameButUnwritten s t) :
    SameButUnwritten (endOfStream c s) (endOfStream c t) :=
  h.update (g := endOfStream c) (fun _ _ => rfl) le_rfl

theorem acceptSample_same {d : Word} {s t : State} (h : SameButUnwritten s t) :
    SameOutcome (acceptSample d s) (acceptSample d t) := by
  unfold acceptSample
  rw [h.cfg, h.n]
  split
  · exact endOfStream_same h
  · split
    · rfl
    · rename_i x _
      have htake := takeSample_same (x := x) h
      cases hs : takeSample x s <;> cases ht : takeSample x t <;> rw [hs, ht] at htake <;> exact htake

theorem execSample_same {d : Word} {s t : State} (h : SameButUnwritten s t) :
    SameOutcome (execSample d s) (execSample d t) := by
  obtain ⟨m, rfl⟩ := h.exists_pbuf
  unfold execSample; dsimp only
  split_ifs
  · exact emit_same h
  · exact h.update (g := fun u => { u with refused := some .adaptiveTrackingUnmodelled }) (fun _ _ => rfl) le_rfl
  · exact acceptSample_same (h.update (g := fun u => { u with session := .active }) (fun _ _ => rfl) le_rfl)

/-- After a reset the two states are equal (R240, R701). -/
theorem sessionResetState_same {s t : State} (h : SameButUnwritten s t) :
    SameButUnwritten (sessionResetState s) (sessionResetState t) := by
  obtain ⟨m, rfl⟩ := h.exists_pbuf
  exact .refl_of_wf rfl

theorem hardwareResetState_same {s t : State} (h : SameButUnwritten s t) :
    SameButUnwritten (hardwareResetState s) (hardwareResetState t) := by
  obtain ⟨m, rfl⟩ := h.exists_pbuf
  exact .refl_of_wf rfl

theorem exec_same {i : Instr} {s t : State} (h : SameButUnwritten s t) : SameOutcome (exec i s) (exec i t) := by
  obtain ⟨m, rfl⟩ := h.exists_pbuf
  cases i with
  | nop => exact h
  | sample d => exact execSample_same h
  | endStream =>
    simp only [exec, execEndStream]
    split
    · exact emit_same h
    · exact endOfStream_same h
  | cfgWrite a d =>
    simp only [exec, execCfgWrite]
    split_ifs
    · exact emit_same h
    · exact h.update (g := fun u => { u with cfg := u.cfg.write a d }) (fun _ _ => rfl) le_rfl
    · exact emit_same h
  | cfgRead a => exact emit_same (e := .cfgData a (readReg a s)) h
  | sessionReset => exact sessionResetState_same h

/-- Settles O59: each unit keeps the relation, and only a BLOCK reads PBUF. -/
theorem unwrittenPayloadUnobserved : Obligations.UnwrittenPayloadUnobserved := by
  intro s t h
  obtain ⟨m, rfl⟩ := h.exists_pbuf
  have htaken : ∀ rest, SameButUnwritten { s with input := rest } { s with pbuf := m, input := rest } := fun rest =>
    h.update (g := fun u => { u with input := rest }) (fun _ _ => rfl) le_rfl
  unfold step takeItem decodeHere; dsimp only
  split
  · rfl
  · cases hin : s.input with
    | nil => rw [hin] at h; exact h
    | cons p rest =>
      cases p with
      | hardwareReset => exact hardwareResetState_same (htaken rest)
      | command w =>
        dsimp only
        split
        · exact exec_same (htaken rest)
        · exact emit_same (htaken rest)

end Sys2Proof.Safety
end

section
/-! SUPPORT. When a step answers a next state: each unit's law is enough for it (20_memory.md R100, 30_encoding.md R134). -/

namespace Sys2Proof.Safety

open Sys2Proof.Machine

/-- FMT = 11 never stands in a legal CTRL (R38, R236). -/
theorem fmt_ne_reserved {c : RegFile} (h : c.legal = true) : c.fmt ≠ 3#2 := by
  have hctrl := (RegFile.legal_iff.mp h).1
  simp only [ctrlLegal, Bool.and_eq_true, bne_iff_ne] at hctrl
  exact hctrl.2

/-- A SAMPLE answers when CTRL has a format and the framer meets its law: the two faults need the opposite. -/
theorem execSample_answers {s : State} (d : Word) (hfmt : s.cfg.fmt ≠ 3#2) (hblk : s.blk.ok s.par.crc) :
    ∃ t, execSample d s = .next t := by
  obtain ⟨x, hx⟩ := normalise_answers d hfmt
  obtain ⟨t, ht⟩ := takeSample_answers (s := { s with session := .active }) x hblk
  simp only [execSample, acceptSample, hx, ht]
  split_ifs <;> exact ⟨_, rfl⟩

theorem exec_answers {s : State} (i : Instr) (h : Inv s) : ∃ t, exec i s = .next t := by
  cases i with
  | sample d => exact execSample_answers d (fmt_ne_reserved h.cfgLegal) h.framer
  | endStream => simp only [exec, execEndStream]; split_ifs <;> exact ⟨_, rfl⟩
  | cfgWrite a d => simp only [exec, execCfgWrite]; split_ifs <;> exact ⟨_, rfl⟩
  | nop | cfgRead a | sessionReset => exact ⟨_, rfl⟩

/-- Settles O56: only a SAMPLE can fault, and the invariant gives it a format and a framer inside PBUF. -/
theorem invariantRulesOutStops : Obligations.InvariantRulesOutStops := by
  intro s h hopen
  simp only [step, hopen]
  split
  · exact ⟨_, rfl⟩
  · exact ⟨_, rfl⟩
  · rename_i htake
    obtain ⟨rest, -, rfl⟩ := takeItem_eq_some htake
    split
    · exact exec_answers _ (h.withPorts rest s.output s.refused)
    · exact ⟨_, rfl⟩

end Sys2Proof.Safety
end

section
/-! SUPPORT. The multi-byte fields of the block header, least significant byte first (20_memory.md R103, 44_framer.md
R432 to R437). -/

namespace Sys2Proof.Machine

/-! The value of a field -/

/-- A byte above the bits that hold a value so far adds its multiple of the place value (R103). -/
theorem orByte_toNat {w : Nat} {v : BitVec w} {i : Nat} (b : Byte) (hv : v.toNat < 2 ^ (8 * i)) (hw : 8 * (i + 1) ≤ w) :
    (orByte v b (8 * i)).toNat = v.toNat + 2 ^ (8 * i) * b.toNat := by
  have hb : b.toNat < 2 ^ 8 := b.isLt
  have hbw : b.toNat < 2 ^ w := hb.trans_le (Nat.pow_le_pow_right (by decide) (by omega))
  have hlt : b.toNat * 2 ^ (8 * i) < 2 ^ w :=
    calc b.toNat * 2 ^ (8 * i) < 2 ^ 8 * 2 ^ (8 * i) := Nat.mul_lt_mul_of_pos_right hb (Nat.two_pow_pos _)
      _ = 2 ^ (8 * (i + 1)) := by rw [← Nat.pow_add]; congr 1; omega
      _ ≤ 2 ^ w := Nat.pow_le_pow_right (by decide) hw
  rw [orByte, BitVec.toNat_or, BitVec.toNat_shiftLeft, BitVec.toNat_setWidth, Nat.mod_eq_of_lt hbw, Nat.shiftLeft_eq,
    Nat.mod_eq_of_lt hlt, Nat.or_comm, Nat.mul_comm, ← Nat.two_pow_add_eq_or_of_lt hv, Nat.add_comm]

/-- The field value after the bytes `bs`, the first of which stands at place `i`. -/
def leFrom {w : Nat} : Nat → BitVec w → List Byte → BitVec w
  | _, v, [] => v
  | i, v, b :: bs => leFrom (i + 1) (orByte v b (8 * i)) bs

theorem leFrom_toNat {w : Nat} (bs : List Byte) (i : Nat) (v : BitVec w) (hv : v.toNat < 2 ^ (8 * i))
    (hw : 8 * (i + bs.length) ≤ w) :
    (leFrom i v bs).toNat = v.toNat + 2 ^ (8 * i) * Nat.ofDigits (2 ^ 8) (bs.map BitVec.toNat) := by
  induction bs generalizing i v with
  | nil => simp [leFrom]
  | cons b bs ih =>
    rw [List.length_cons] at hw
    have hstep := orByte_toNat b hv (by omega)
    have hplace : 2 ^ (8 * (i + 1)) = 2 ^ (8 * i) * 2 ^ 8 := by rw [← Nat.pow_add]; congr 1
    have hb : 2 ^ (8 * i) * b.toNat ≤ 2 ^ (8 * i) * (2 ^ 8 - 1) := Nat.mul_le_mul_left _ (Nat.le_pred_of_lt b.isLt)
    rw [leFrom, ih (i + 1) _ (by omega) (by omega), hstep, hplace, List.map_cons, Nat.ofDigits_cons]
    ring

/-! The fields -/

/-- A multi-byte header field as `frame` receives it: its register, its state FR with the state after it, its number of
bytes, and the values that lead there. `put f fr i v h` is `f` in state `fr` with count `i`, register `v` and running
header CRC `h`; the two laws say what one byte does before the end of the field and at its end (R421). -/
structure HeaderField (w : Nat) where
  fr : FrState
  nextFr : FrState
  size : Nat
  accepts : Nat → Prop
  get : Framer → BitVec w
  put : Framer → FrState → BitVec 9 → BitVec w → Half → Framer
  width : 8 * size = w
  short : size ≤ 4
  put_self : ∀ f, put f f.fr f.frCnt (get f) f.hcrc = f
  byte_more : ∀ (s : State) (i : BitVec 9) (v : BitVec w) (h : Half) (b : Byte) (c2 : Time),
    i + 1 ≠ BitVec.ofNat 9 size → frame b c2 (setBlk (put s.blk fr i v h) s) =
      .ok (setBlk (put s.blk fr (i + 1) (orByte v b (8 * i.toNat)) (crcUpdate s.par.crc h b)) s)
  byte_last : ∀ (s : State) (i : BitVec 9) (v : BitVec w) (h : Half) (b : Byte) (c2 : Time),
    i + 1 = BitVec.ofNat 9 size → accepts (orByte v b (8 * i.toNat)).toNat →
      frame b c2 (setBlk (put s.blk fr i v h) s) =
        .ok (setBlk (put s.blk nextFr 0#9 (orByte v b (8 * i.toNat)) (crcUpdate s.par.crc h b)) s)

/-- The bytes of a field from place `i` to its end. -/
theorem HeaderField.frameAll_from {w : Nat} (F : HeaderField w) (s : State) {bs : List (Byte × Time)} (hne : bs ≠ [])
    (i : Nat) (v : BitVec w) (h : Half) (hsize : i + bs.length = F.size)
    (hacc : F.accepts (leFrom i v (bs.map Prod.fst)).toNat) :
    frameAll bs (setBlk (F.put s.blk F.fr (BitVec.ofNat 9 i) v h) s) =
      .ok (setBlk (F.put s.blk F.nextFr 0#9 (leFrom i v (bs.map Prod.fst))
        (crcFold s.par.crc h (bs.map Prod.fst))) s) := by
  induction bs generalizing i v h with
  | nil => exact absurd rfl hne
  | cons e rest ih =>
    obtain ⟨b, c2⟩ := e
    have hshort := F.short
    rw [List.length_cons] at hsize
    have hi : (BitVec.ofNat 9 i).toNat = i := by rw [BitVec.toNat_ofNat]; omega
    have hsucc : BitVec.ofNat 9 i + 1 = BitVec.ofNat 9 (i + 1) := (BitVec.ofNat_add ..).symm
    cases rest with
    | nil =>
      have hend : BitVec.ofNat 9 i + 1 = BitVec.ofNat 9 F.size := by rw [hsucc, ← hsize]; rfl
      rw [frameAll, F.byte_last s _ v h b c2 hend (by rw [hi]; exact hacc), hi]
      rfl
    | cons e' rest' =>
      rw [List.length_cons] at hsize
      have hmore : BitVec.ofNat 9 i + 1 ≠ BitVec.ofNat 9 F.size := by
        rw [hsucc, ← BitVec.toNat_inj.ne, BitVec.toNat_ofNat, BitVec.toNat_ofNat]; omega
      rw [frameAll, F.byte_more s _ v h b c2 hmore, hi, hsucc]
      exact ih (List.cons_ne_nil _ _) (i + 1) _ _ (by simp only [List.length_cons]; omega) hacc

/-- From the start of a field its bytes give their little-endian value, lead to the next state, enter the header CRC
and change nothing else (R103, R440). -/
theorem HeaderField.frameAll_eq {w : Nat} (F : HeaderField w) {s : State} {bs : List (Byte × Time)} (hne : bs ≠ [])
    (hsize : bs.length = F.size) (hfr : s.blk.fr = F.fr) (hcnt : s.blk.frCnt = 0#9) (hzero : F.get s.blk = 0#w)
    (hacc : F.accepts (Nat.ofDigits (2 ^ 8) (bs.map (·.1.toNat)))) :
    ∃ v : BitVec w, v.toNat = Nat.ofDigits (2 ^ 8) (bs.map (·.1.toNat)) ∧
      frameAll bs s =
        .ok (setBlk (F.put s.blk F.nextFr s.blk.frCnt v (crcFold s.par.crc s.blk.hcrc (bs.map Prod.fst))) s) := by
  have hvalue : (leFrom 0 0#w (bs.map Prod.fst)).toNat = Nat.ofDigits (2 ^ 8) (bs.map (·.1.toNat)) := by
    rw [leFrom_toNat _ 0 _ (by simp) (by rw [List.length_map, Nat.zero_add, hsize, F.width]), List.map_map]
    simp [Function.comp_def]
  have hstart : setBlk (F.put s.blk F.fr 0#9 0#w s.blk.hcrc) s = s := by
    rw [← hfr, ← hcnt, ← hzero, F.put_self]; rfl
  have hrun := F.frameAll_from s hne 0 0#w s.blk.hcrc (by rw [Nat.zero_add, hsize]) (hvalue ▸ hacc)
  rw [hstart] at hrun
  exact ⟨_, hvalue, by rw [hcnt]; exact hrun⟩

/-- A field whose every value leads to the next state: the framer only counts its bytes (R421). -/
def HeaderField.unchecked {w : Nat} (fr nextFr : FrState) (size : Nat) (get : Framer → BitVec w)
    (put : Framer → FrState → BitVec 9 → BitVec w → Half → Framer) (width : 8 * size = w) (short : size ≤ 4)
    (put_self : ∀ f, put f f.fr f.frCnt (get f) f.hcrc = f)
    (byte : ∀ (s : State) (i : BitVec 9) (v : BitVec w) (h : Half) (b : Byte) (c2 : Time),
      frame b c2 (setBlk (put s.blk fr i v h) s) = .ok (setBlk
        (if i + 1 = BitVec.ofNat 9 size then
          put s.blk nextFr 0#9 (orByte v b (8 * i.toNat)) (crcUpdate s.par.crc h b)
        else put s.blk fr (i + 1) (orByte v b (8 * i.toNat)) (crcUpdate s.par.crc h b)) s)) : HeaderField w where
  fr := fr
  nextFr := nextFr
  size := size
  accepts _ := True
  get := get
  put := put
  width := width
  short := short
  put_self := put_self
  byte_more s i v h b c2 hne := by rw [byte, if_neg hne]
  byte_last s i v h b c2 heq _ := by rw [byte, if_pos heq]

/-- LOAD (R432). -/
def loadField : HeaderField 32 :=
  .unchecked .load .exec 4 Framer.load (fun f fr i v h => { f with fr := fr, frCnt := i, load := v, hcrc := h })
    rfl (by decide) (fun _ => rfl) (fun _ _ _ _ _ _ => rfl)

/-- EXEC (R433). -/
def execField : HeaderField 32 :=
  .unchecked .exec .seq 4 Framer.exec (fun f fr i v h => { f with fr := fr, frCnt := i, exec := v, hcrc := h })
    rfl (by decide) (fun _ => rfl) (fun _ _ _ _ _ _ => rfl)

/-- SEQ (R434). -/
def seqField : HeaderField 16 :=
  .unchecked .seq .len 2 Framer.seq (fun f fr i v h => { f with fr := fr, frCnt := i, seq := v, hcrc := h })
    rfl (by decide) (fun _ => rfl) (fun _ _ _ _ _ _ => rfl)

/-- NEXT (R437). -/
def nextField : HeaderField 32 :=
  .unchecked .next .hcrc 4 Framer.next (fun f fr i v h => { f with fr := fr, frCnt := i, next := v, hcrc := h })
    rfl (by decide) (fun _ => rfl) (fun _ _ _ _ _ _ => rfl)

/-- LEN (R435): a value above 256 does not lead to FLAG. -/
def lenField : HeaderField 16 where
  fr := .len
  nextFr := .flag
  size := 2
  accepts n := n ≤ Config.maxPayload
  get := Framer.len
  put f fr i v h := { f with fr := fr, frCnt := i, len := v, hcrc := h }
  width := rfl
  short := by decide
  put_self _ := rfl
  byte_more s _ _ _ _ _ hne := congrArg Except.ok (if_neg hne)
  byte_last s _ _ _ _ _ heq hle := congrArg Except.ok ((if_pos heq).trans (if_neg (Nat.not_lt.mpr hle)))

/-- FLAG (R436): one byte, stored as it is. -/
theorem frame_of_flag {s : State} (b : Byte) (c2 : Time) (hfr : s.blk.fr = .flag) :
    frame b c2 s = .ok (setBlk { s.blk with
      flag := b, fr := .next, frCnt := 0#9, hcrc := crcUpdate s.par.crc s.blk.hcrc b } s) := by
  simp [frame, coverHeader, frameByState, hfr, FrState.inHeader, Framer.flagByte, setBlk]

/-! The values -/

theorem ofDigits_two (b0 b1 : Nat) : Nat.ofDigits (2 ^ 8) [b0, b1] = b0 + 2 ^ 8 * b1 := by
  simp [Nat.ofDigits_cons]

theorem ofDigits_four (b0 b1 b2 b3 : Nat) :
    Nat.ofDigits (2 ^ 8) [b0, b1, b2, b3] = b0 + 2 ^ 8 * b1 + 2 ^ 16 * b2 + 2 ^ 24 * b3 := by
  simp only [Nat.ofDigits_cons, Nat.ofDigits_nil]; ring

theorem HeaderField.frameAll_two {w : Nat} (F : HeaderField w) {s : State} (b0 b1 : Byte) (c0 c1 : Time)
    (hsize : F.size = 2) (hfr : s.blk.fr = F.fr) (hcnt : s.blk.frCnt = 0#9) (hzero : F.get s.blk = 0#w)
    (hacc : F.accepts (b0.toNat + 2 ^ 8 * b1.toNat)) :
    ∃ v : BitVec w, v.toNat = b0.toNat + 2 ^ 8 * b1.toNat ∧
      frameAll [(b0, c0), (b1, c1)] s =
        .ok (setBlk (F.put s.blk F.nextFr s.blk.frCnt v (crcFold s.par.crc s.blk.hcrc [b0, b1])) s) := by
  rw [← ofDigits_two] at hacc ⊢
  exact F.frameAll_eq (bs := [(b0, c0), (b1, c1)]) (List.cons_ne_nil _ _) hsize.symm hfr hcnt hzero hacc

theorem HeaderField.frameAll_four {w : Nat} (F : HeaderField w) {s : State} (b0 b1 b2 b3 : Byte) (c0 c1 c2 c3 : Time)
    (hsize : F.size = 4) (hfr : s.blk.fr = F.fr) (hcnt : s.blk.frCnt = 0#9) (hzero : F.get s.blk = 0#w)
    (hacc : F.accepts (b0.toNat + 2 ^ 8 * b1.toNat + 2 ^ 16 * b2.toNat + 2 ^ 24 * b3.toNat)) :
    ∃ v : BitVec w, v.toNat = b0.toNat + 2 ^ 8 * b1.toNat + 2 ^ 16 * b2.toNat + 2 ^ 24 * b3.toNat ∧
      frameAll [(b0, c0), (b1, c1), (b2, c2), (b3, c3)] s =
        .ok (setBlk (F.put s.blk F.nextFr s.blk.frCnt v (crcFold s.par.crc s.blk.hcrc [b0, b1, b2, b3])) s) := by
  rw [← ofDigits_four] at hacc ⊢
  exact F.frameAll_eq (bs := [(b0, c0), (b1, c1), (b2, c2), (b3, c3)]) (List.cons_ne_nil _ _) hsize.symm hfr hcnt
    hzero hacc

/-- Settles O43: each field meets the two byte laws of a header field, so its bytes add up to Σ b_i · 2^(8i). -/
theorem headerFieldsLittleEndian : Obligations.HeaderFieldsLittleEndian := by
  refine ⟨?load, ?exec, ?seq, ?len, ?flag, ?next⟩
  case load =>
    intro s b0 b1 b2 b3 c0 c1 c2 c3 hfr hcnt hzero
    exact loadField.frameAll_four b0 b1 b2 b3 c0 c1 c2 c3 rfl hfr hcnt hzero trivial
  case exec =>
    intro s b0 b1 b2 b3 c0 c1 c2 c3 hfr hcnt hzero
    exact execField.frameAll_four b0 b1 b2 b3 c0 c1 c2 c3 rfl hfr hcnt hzero trivial
  case seq =>
    intro s b0 b1 c0 c1 hfr hcnt hzero
    exact seqField.frameAll_two b0 b1 c0 c1 rfl hfr hcnt hzero trivial
  case len =>
    intro s b0 b1 c0 c1 hfr hcnt hzero hle
    exact lenField.frameAll_two b0 b1 c0 c1 rfl hfr hcnt hzero hle
  case flag =>
    intro s b c2 hfr
    exact frame_of_flag b c2 hfr
  case next =>
    intro s b0 b1 b2 b3 c0 c1 c2 c3 hfr hcnt hzero
    exact nextField.frameAll_four b0 b1 b2 b3 c0 c1 c2 c3 rfl hfr hcnt hzero trivial

end Sys2Proof.Machine
end

section
/-! SUPPORT. Decoding and encoding: each decoder's accepted words, and the two directions in one equivalence
(30_encoding.md R130 to R134). -/

namespace Sys2Proof

/-! The fields of a command's word -/

/-- What the ADDR field of a command's word holds: its register operand, or 0 without one (R132, R134). -/
def Instr.addrOperand : Instr → RegAddr
  | .cfgWrite addr _ | .cfgRead addr => addr
  | .nop | .sample _ | .endStream | .sessionReset => 0#4

/-- What the DATA field of a command's word holds: its data operand, or 0 without one (R132, R134). -/
def Instr.dataOperand : Instr → Word
  | .sample data | .cfgWrite _ data => data
  | .nop | .endStream | .cfgRead _ | .sessionReset => 0#32

theorem encode_eq_packWord (i : Instr) : encode i = packWord i.opcode i.addrOperand i.dataOperand := by
  cases i <;> rfl

/-- A word is the encoding of a command exactly when its four fields are the command's. -/
theorem encode_eq_iff {i : Instr} {w : CmdWord} : encode i = w ↔
    rsvdField w = 0#8 ∧ opField w = i.opcode ∧ addrField w = i.addrOperand ∧ dataField w = i.dataOperand := by
  rw [encode_eq_packWord]
  constructor
  · rintro rfl
    exact ⟨rsvdField_packWord .., opField_packWord .., addrField_packWord .., dataField_packWord ..⟩
  · rintro ⟨hrsvd, hop, haddr, hdata⟩
    rw [← hop, ← haddr, ← hdata, packWord_fields hrsvd]

/-! What each decoder accepts -/

theorem decodePlain_eq_ok {i j : Instr} {w : CmdWord} :
    decodePlain i w = .ok j ↔ addrField w = 0#4 ∧ dataField w = 0#32 ∧ i = j := by
  unfold decodePlain
  split_ifs with haddr hdata <;> simp_all

theorem decodeSample_eq_ok {fmt : BitVec 2} {w : CmdWord} {i : Instr} : decodeSample fmt w = .ok i ↔
    addrField w = 0#4 ∧ sampleDataFits fmt (dataField w) = true ∧ .sample (dataField w) = i := by
  unfold decodeSample
  split_ifs with haddr hfits <;> simp_all

theorem decodeCfgRead_eq_ok {w : CmdWord} {i : Instr} :
    decodeCfgRead w = .ok i ↔ dataField w = 0#32 ∧ .cfgRead (addrField w) = i := by
  unfold decodeCfgRead
  split_ifs with hdata <;> simp_all

/-- The decoder accepts the encoding of a well-formed command, as that command. -/
theorem decode_encode {fmt : BitVec 2} {i : Instr} (h : i.wellFormed fmt = true) : decode fmt (encode i) = .ok i := by
  obtain ⟨hrsvd, hop, haddr, hdata⟩ := encode_eq_iff.mp (rfl : encode i = encode i)
  rw [decode, if_neg (not_not.mpr hrsvd), hop]
  cases i with
  | nop | endStream | sessionReset => exact decodePlain_eq_ok.mpr ⟨haddr, hdata, rfl⟩
  | sample data => exact decodeSample_eq_ok.mpr ⟨haddr, hdata ▸ h, congrArg _ hdata⟩
  | cfgWrite addr data => exact congrArg Except.ok (congrArg₂ _ haddr hdata)
  | cfgRead addr => exact decodeCfgRead_eq_ok.mpr ⟨hdata, congrArg _ haddr⟩

/-- No bit of an accepted word is ignored: each branch of the decoder fixes RSVD and OP, and fixes or reads the others. -/
theorem encode_of_decode {fmt : BitVec 2} {w : CmdWord} {i : Instr} (h : decode fmt w = .ok i) :
    encode i = w ∧ i.wellFormed fmt = true := by
  unfold decode at h
  split_ifs at h with hrsvd
  rw [not_not] at hrsvd
  split at h
  case h_1 hop | h_3 hop | h_6 hop =>
    obtain ⟨haddr, hdata, rfl⟩ := decodePlain_eq_ok.mp h
    exact ⟨encode_eq_iff.mpr ⟨hrsvd, BitVec.eq_of_toNat_eq hop, haddr, hdata⟩, rfl⟩
  case h_2 hop =>
    obtain ⟨haddr, hfits, rfl⟩ := decodeSample_eq_ok.mp h
    exact ⟨encode_eq_iff.mpr ⟨hrsvd, BitVec.eq_of_toNat_eq hop, haddr, rfl⟩, hfits⟩
  case h_4 hop =>
    obtain rfl := Except.ok.inj h
    exact ⟨encode_eq_iff.mpr ⟨hrsvd, BitVec.eq_of_toNat_eq hop, rfl, rfl⟩, rfl⟩
  case h_5 hop =>
    obtain ⟨hdata, rfl⟩ := decodeCfgRead_eq_ok.mp h
    exact ⟨encode_eq_iff.mpr ⟨hrsvd, BitVec.eq_of_toNat_eq hop, rfl, hdata⟩, rfl⟩
  case h_7 => cases h

theorem decode_eq_ok_iff {fmt : BitVec 2} {w : CmdWord} {i : Instr} :
    decode fmt w = .ok i ↔ encode i = w ∧ i.wellFormed fmt = true :=
  ⟨encode_of_decode, fun ⟨hw, hi⟩ => hw ▸ decode_encode hi⟩

/-- R134's condition on SAMPLE, on the bits of the command word. -/
theorem sampleDataFits_dataField {fmt : BitVec 2} {w : CmdWord} : sampleDataFits fmt (dataField w) = true ↔
    if fmt = 0#2 then w.extractLsb' 16 16 = 0#16 else w.extractLsb' 8 24 = 0#24 := by
  have hhigh : (dataField w).extractLsb' 16 16 = w.extractLsb' 16 16 := by
    ext k hk; simp [dataField]
  have hlow : (dataField w).extractLsb' 8 24 = w.extractLsb' 8 24 := by
    ext k hk; simp [dataField]
  simp only [sampleDataFits, beq_iff_eq, hhigh, hlow]
  split_ifs <;> exact beq_iff_eq

/-- A word decodes exactly when it has the four fields of some well-formed command. -/
theorem exists_decode_iff {fmt : BitVec 2} {w : CmdWord} : (∃ i, decode fmt w = .ok i) ↔
    rsvdField w = 0#8 ∧
      (((opField w = 0x0#4 ∨ opField w = 0x2#4 ∨ opField w = 0x5#4) ∧ addrField w = 0#4 ∧ dataField w = 0#32) ∨
        (opField w = 0x1#4 ∧ addrField w = 0#4 ∧ sampleDataFits fmt (dataField w) = true) ∨
        opField w = 0x3#4 ∨
        (opField w = 0x4#4 ∧ dataField w = 0#32)) := by
  simp only [decode_eq_ok_iff, encode_eq_iff]
  constructor
  · rintro ⟨i, ⟨hrsvd, hop, haddr, hdata⟩, hwf⟩
    refine ⟨hrsvd, ?_⟩
    cases i with
    | nop => exact .inl ⟨.inl hop, haddr, hdata⟩
    | sample data => exact .inr (.inl ⟨hop, haddr, hdata ▸ hwf⟩)
    | endStream => exact .inl ⟨.inr (.inl hop), haddr, hdata⟩
    | cfgWrite addr data => exact .inr (.inr (.inl hop))
    | cfgRead addr => exact .inr (.inr (.inr ⟨hop, hdata⟩))
    | sessionReset => exact .inl ⟨.inr (.inr hop), haddr, hdata⟩
  · rintro ⟨hrsvd, ⟨hop | hop | hop, haddr, hdata⟩ | ⟨hop, haddr, hfits⟩ | hop | ⟨hop, hdata⟩⟩
    · exact ⟨.nop, ⟨hrsvd, hop, haddr, hdata⟩, rfl⟩
    · exact ⟨.endStream, ⟨hrsvd, hop, haddr, hdata⟩, rfl⟩
    · exact ⟨.sessionReset, ⟨hrsvd, hop, haddr, hdata⟩, rfl⟩
    · exact ⟨.sample (dataField w), ⟨hrsvd, hop, haddr, rfl⟩, hfits⟩
    · exact ⟨.cfgWrite (addrField w) (dataField w), ⟨hrsvd, hop, rfl, rfl⟩, rfl⟩
    · exact ⟨.cfgRead (addrField w), ⟨hrsvd, hop, rfl, hdata⟩, rfl⟩

end Sys2Proof

namespace Sys2Proof.Machine

open Sys2Proof.Safety

/-! The obligations of 30_encoding.md -/

/-- Settles O2: every field of the packed word reads back as the command's operand. -/
theorem decodeOfEncode : Obligations.DecodeOfEncode := fun _ _ hwf => decode_encode hwf

/-- Settles O3: an accepted word has the four fields of its command, and the fields are the word. -/
theorem encodeOfDecode : Obligations.EncodeOfDecode := fun _ _ _ h => encode_of_decode h

/-- Settles O4: the accepted words are the encodings of the well-formed commands, read field by field; and a legal
CTRL never holds FMT = 11. -/
theorem decoderAcceptsWellFormed : Obligations.DecoderAcceptsWellFormed := by
  refine fun w s => ⟨?_, fun hinv => fmt_ne_reserved hinv.cfgLegal⟩
  have hfields := exists_decode_iff (fmt := s.cfg.fmt) (w := w)
  rw [sampleDataFits_dataField] at hfields
  exact hfields

/-- Settles O1: the words that R180 writes out are the encodings of their commands; 0x6 is a reserved opcode. -/
theorem writtenWordsDecode : Obligations.WrittenWordsDecode :=
  ⟨decode_encode (i := .nop) rfl,
    decode_encode (i := .sample 0x4000#32) rfl,
    decode_encode (i := .sample 0xFFFF#32) rfl,
    decode_encode (i := .endStream) rfl,
    decode_encode (i := .cfgWrite 0x5#4 4#32) rfl,
    decode_encode (i := .cfgRead 0xA#4) rfl,
    decode_encode (i := .sessionReset) rfl,
    by decide⟩

/-- Settles O5: the code tables, one conjunct per table; a tone is one of its three constructors. -/
theorem enumerationCodes : Obligations.EnumerationCodes := by
  refine ⟨?assembler, ?framer, ?session, ?tone, ?fault, ?cause, ?reason, ?event⟩
  case assembler => exact ⟨rfl, rfl, rfl, rfl⟩
  case framer => exact ⟨rfl, rfl, rfl, rfl, rfl, rfl, rfl, rfl, rfl, rfl, rfl, rfl⟩
  case session => exact ⟨rfl, rfl, rfl⟩
  case tone =>
    intro t
    cases t with
    | none => exact .inl rfl
    | low => exact .inr (.inl rfl)
    | high => exact .inr (.inr rfl)
  case fault => intro w l r c; exact ⟨rfl, rfl, rfl, rfl, rfl⟩
  case cause => exact ⟨rfl, rfl, rfl⟩
  case reason => exact ⟨rfl, rfl, rfl, rfl⟩
  case event => intros; exact ⟨rfl, rfl, rfl, rfl, rfl, rfl, rfl⟩

end Sys2Proof.Machine
end

section
/-! SUPPORT. The step by the head of the input port (40_commands.md R200, R201), and the decoder by the four fields of
the word (30_encoding.md R132 to R134). -/

namespace Sys2Proof

/-- A word decodes to a command exactly when its four fields are the command's, and the command is well-formed. -/
theorem decode_eq_ok_iff_fields {fmt : BitVec 2} {w : CmdWord} {i : Instr} : decode fmt w = .ok i ↔
    (opField w = i.opcode ∧ addrField w = i.addrOperand ∧ rsvdField w = 0#8 ∧ dataField w = i.dataOperand) ∧
      i.wellFormed fmt = true := by
  rw [decode_eq_ok_iff, encode_eq_iff]
  tauto

theorem opField_of_decode {fmt : BitVec 2} {w : CmdWord} {i : Instr} (h : decode fmt w = .ok i) :
    opField w = i.opcode := by
  obtain ⟨⟨hop, -, -, -⟩, -⟩ := decode_eq_ok_iff_fields.mp h
  exact hop

theorem Instr.opcode_eq_nop {i : Instr} : i.opcode = 0x0#4 ↔ i = .nop := by
  cases i <;> simp [Instr.opcode]

theorem Instr.opcode_eq_endStream {i : Instr} : i.opcode = 0x2#4 ↔ i = .endStream := by
  cases i <;> simp [Instr.opcode]

end Sys2Proof

namespace Sys2Proof.Machine

open Sys2Proof.Safety

theorem takeItem_of_input {s : State} {p : PortItem} {rest : List PortItem} (hport : s.input = p :: rest) :
    takeItem s = some (p, { s with input := rest }) := by
  rw [takeItem, hport]

/-- A step whose word decodes is `exec` of its command, with the word taken from the port. -/
theorem step_of_decoded {s : State} {w : CmdWord} {rest : List PortItem} {i : Instr} (hopen : s.refused = none)
    (hport : s.input = .command w :: rest) (hdec : decodeHere w s = .ok i) :
    step s = exec i { s with input := rest } := by
  have hdec' : decodeHere w { s with input := rest } = .ok i := hdec
  conv_lhs => rw [step, hopen, takeItem_of_input hport]
  simp only [hdec']

/-- A step whose word is malformed answers with the REJECT of R201, with the word taken from the port. -/
theorem step_of_malformed {s : State} {w : CmdWord} {rest : List PortItem} {e : Malformed} (hopen : s.refused = none)
    (hport : s.input = .command w :: rest) (hdec : decodeHere w s = .error e) :
    step s = .next (rejectMalformed w { s with input := rest }) := by
  have hdec' : decodeHere w { s with input := rest } = .error e := hdec
  conv_lhs => rw [step, hopen, takeItem_of_input hport]
  simp only [hdec']

theorem wordOfBits_48 (w : Nat) : wordOfBits 48 w = BitVec.ofNat 48 w :=
  BitVec.eq_of_toNat_eq (by simp [wordOfBits])

/-- Settles O6: the head of the port is a command word, or `withFetchWord` has made it one. -/
theorem stepRunsDecodedCommand : Obligations.StepRunsDecodedCommand := by
  refine ⟨fun s w rest i hopen hport hdec => step_of_decoded hopen hport hdec, fun s w i hopen hdec => ?_⟩
  have hport : (s.withFetchWord 48 w).input = .command (BitVec.ofNat 48 w) :: s.input := by
    rw [State.withFetchWord, pushCommand_input, wordOfBits_48]
  exact step_of_decoded (s := s.withFetchWord 48 w) hopen hport hdec

/-- Settles O7: a word that decodes to no command is an error of the decoder. -/
theorem malformedWordRejected : Obligations.MalformedWordRejected := by
  intro s w rest hopen hport hbad
  cases hdec : decodeHere w s with
  | ok i => exact absurd hdec (hbad i)
  | error e => exact ⟨step_of_malformed hopen hport hdec, rfl⟩

end Sys2Proof.Machine
end

section
/-! SUPPORT. NOP, END and the DONE session (40_commands.md R205, R217, R220). -/

namespace Sys2Proof.Machine

open Sys2Proof.Safety

/-- END in DONE is rejected (R217). -/
theorem exec_endStream_of_done {s : State} (h : s.session = .done) :
    exec .endStream s = .next (rejectCmd .sessionDone 0x2#4 s) := if_pos h

/-- END ends a stream that has not ended (R220). -/
theorem exec_endStream_of_ne_done {s : State} (h : s.session ≠ .done) :
    exec .endStream s = .next (endOfStream .endCommand s) := if_neg h

/-- SAMPLE in DONE is rejected (R217). -/
theorem exec_sample_of_done {s : State} (d : Word) (h : s.session = .done) :
    exec (.sample d) s = .next (rejectCmd .sessionDone 0x1#4 s) := if_pos h

/-- Settles O13: a word with NOP's opcode that decodes is the encoding of NOP, which is zero. -/
theorem nopDoesNothing : Obligations.NopDoesNothing := by
  refine ⟨fun s => rfl, fun fmt w hop => ⟨?_, fun hne i hdec => ?_⟩⟩
  · rintro rfl
    exact decode_encode (i := .nop) rfl
  · obtain rfl := Instr.opcode_eq_nop.mp ((opField_of_decode hdec).symm.trans hop)
    obtain ⟨hw, -⟩ := encode_of_decode hdec
    exact hne hw.symm

/-- Settles O14: both cases of the session; a word with END's opcode that decodes is the encoding of END. -/
theorem endEndsTheStream : Obligations.EndEndsTheStream := by
  have hend : ∀ fmt : BitVec 2, decode fmt 0x200000000000#48 = .ok .endStream :=
    fun fmt => decode_encode (i := .endStream) rfl
  refine ⟨fun s => exec_endStream_of_ne_done, fun s => exec_endStream_of_done, fun fmt w hop => ⟨?_, ?_⟩, hend, rfl, rfl⟩
  · rintro ⟨i, hdec⟩
    obtain rfl := Instr.opcode_eq_endStream.mp ((opField_of_decode hdec).symm.trans hop)
    obtain ⟨hw, -⟩ := encode_of_decode hdec
    exact hw.symm
  · rintro rfl
    exact ⟨_, hend fmt⟩

/-- Settles O15: of the four ways a command can move the session only a reset leads out of DONE. -/
theorem doneSessionRejects : Obligations.DoneSessionRejects := by
  refine ⟨fun s => exec_sample_of_done, fun s => exec_endStream_of_done, fun i s t hdone h hleft => ?_, rfl⟩
  cases exec_sessionMove h with
  | kept eq _ => exact absurd (eq.trans hdone) hleft
  | started _ _ notDone _ _ => exact absurd hdone notDone
  | ended notDone _ _ _ => exact absurd hdone notDone
  | reset cmd _ _ => exact cmd

end Sys2Proof.Machine
end

section
/-! SUPPORT. CFG_READ and CFG_WRITE over the sixteen register addresses (40_commands.md R230, R235 to R237). -/

namespace Sys2Proof.Machine

open Sys2Proof.Safety

/-! The register map -/

/-- The values of the sixteen addresses, in address order (R230). -/
def registerMap (s : State) : List Word :=
  [s.cfg.ctrl, s.cfg.k1, s.cfg.k2, s.cfg.gain, s.cfg.floor, s.cfg.thrLow, s.cfg.thrHigh, s.cfg.zeroCount,
    s.cfg.startIdx, s.cfg.stopIdx, statusWord s, s.n, s.blockCount, s.faultCount, 0x55454631#32, 0#32]

theorem readReg_eq_registerMap (a : RegAddr) (s : State) : readReg a s = (registerMap s).getD a.toNat 0#32 := by
  unfold readReg
  have ha : a.toNat < 16 := a.isLt
  generalize a.toNat = k at ha
  interval_cases k <;> rfl

/-- A write to a RW register replaces its entry of the map alone. -/
theorem registerMap_write {a : RegAddr} (ha : a.toNat < 0xA) (d : Word) (s : State) :
    registerMap { s with cfg := s.cfg.write a d } = (registerMap s).set a.toNat d := by
  unfold RegFile.write
  generalize a.toNat = k at ha
  interval_cases k <;> rfl

/-- What a register reads as after a write to a RW register. -/
theorem readReg_write {a : RegAddr} (ha : a.toNat < 0xA) (b : RegAddr) (d : Word) (s : State) :
    readReg b { s with cfg := s.cfg.write a d } = if b = a then d else readReg b s := by
  rw [readReg_eq_registerMap, registerMap_write ha, List.getD_eq_getElem?_getD]
  by_cases hba : b = a
  · subst hba
    rw [if_pos rfl, List.getElem?_set_self (show b.toNat < 16 from b.isLt), Option.getD_some]
  · rw [if_neg hba, List.getElem?_set_ne (fun h => hba (BitVec.eq_of_toNat_eq h.symm)), readReg_eq_registerMap,
      List.getD_eq_getElem?_getD]

/-! Which writes are legal -/

theorem ctrlLegal_iff {d : Word} : ctrlLegal d = true ↔ d.extractLsb' 11 21 = 0#21 ∧ d.extractLsb' 5 2 ≠ 3#2 := by
  simp [ctrlLegal]

/-- The checks of R236. -/
theorem writeLegal_iff {a : RegAddr} {d : Word} : writeLegal a d = true ↔
    a.toNat < 0xA ∧ (a = 0x0#4 → d.extractLsb' 11 21 = 0#21 ∧ d.extractLsb' 5 2 ≠ 3#2) ∧ (a = 0x7#4 → d ≠ 0#32) := by
  simp only [writeLegal, Bool.and_eq_true, Bool.or_eq_true, bne_iff_ne, decide_eq_true_eq, ctrlLegal_iff, and_assoc,
    imp_iff_not_or, ne_eq]

/-- The rejections of R236: the checks fail on the address, on CTRL or on ZERO_COUNT. -/
theorem not_writeLegal_of {a : RegAddr} {d : Word}
    (h : 0xA ≤ a.toNat ∨ (a = 0x0#4 ∧ (d.extractLsb' 11 21 ≠ 0#21 ∨ d.extractLsb' 5 2 = 3#2)) ∨ (a = 0x7#4 ∧ d = 0#32)) :
    ¬ writeLegal a d = true := by
  rw [writeLegal_iff]
  rintro ⟨haddr, hctrl, hzero⟩
  rcases h with hro | ⟨ha, hres | hfmt⟩ | ⟨ha, hd⟩
  · exact absurd haddr (Nat.not_lt.mpr hro)
  · exact hres (hctrl ha).1
  · exact (hctrl ha).2 hfmt
  · exact hzero ha hd

/-! CFG_WRITE -/

theorem exec_cfgWrite_of_active {s : State} (a : RegAddr) (d : Word) (h : s.session = .active) :
    exec (.cfgWrite a d) s = .next (rejectCmd .sessionActive 0x3#4 s) := if_pos h

theorem exec_cfgWrite_of_legal {a : RegAddr} {d : Word} {s : State} (h : s.session ≠ .active)
    (hw : writeLegal a d = true) : exec (.cfgWrite a d) s = .next { s with cfg := s.cfg.write a d } :=
  (if_neg h).trans (if_pos hw)

theorem exec_cfgWrite_of_illegal {a : RegAddr} {d : Word} {s : State} (h : s.session ≠ .active)
    (hw : ¬ writeLegal a d = true) : exec (.cfgWrite a d) s = .next (rejectCmd .badWrite 0x3#4 s) :=
  (if_neg h).trans (if_neg hw)

/-! The obligations -/

/-- Settles O16: CFG_READ emits the entry of the register map; its word is read field by field. -/
theorem configReadReturns : Obligations.ConfigReadReturns := by
  refine ⟨fun s a => ?_, fun fmt w a => decode_eq_ok_iff_fields.trans (and_iff_left rfl)⟩
  have hread : exec (.cfgRead a) s = .next (emit (.cfgData a (readReg a s)) s) := rfl
  rw [hread, readReg_eq_registerMap]
  rfl

/-- Settles O18: a legal write changes one entry of the register map; the other writes are rejected. -/
theorem configWriteStoresOrRejects : Obligations.ConfigWriteStoresOrRejects := by
  refine ⟨fun s a d hs ha hctrl hzero => ?stored, fun s a d hs hbad => ?rejected, fun s => exec_cfgWrite_of_active,
    fun fmt w a d => decode_eq_ok_iff_fields.trans (and_iff_left rfl), rfl, rfl⟩
  case stored =>
    exact ⟨s.cfg.write a d, exec_cfgWrite_of_legal hs (writeLegal_iff.mpr ⟨ha, hctrl, hzero⟩),
      fun b _ => readReg_write ha b d s⟩
  case rejected => exact exec_cfgWrite_of_illegal hs (not_writeLegal_of hbad)

theorem SampleResult.cfg_eq {d : Word} {s t : State} (h : SampleResult d s t) : t.cfg = s.cfg := by
  cases h with
  | rejected _ eq | refused _ _ eq | stopped _ _ _ eq => subst eq; rfl
  | counted u _ _ _ taken eq =>
    have hu : u.cfg = s.cfg := taken.pipelineStep.only.cfg
    rcases countSample_cases u with ⟨-, hc⟩ | ⟨-, hc⟩ <;> rw [eq, hc] <;> exact hu

/-- Settles O19: the one command that writes `cfg` is rejected while the session is ACTIVE. -/
theorem activeSessionLocksConfig : Obligations.ActiveSessionLocksConfig := by
  refine ⟨fun s => exec_cfgWrite_of_active, fun i s t hactive h => ?_, rfl⟩
  cases i with
  | nop => rw [exec_nop_next h]
  | sample d => exact (exec_sample_result h).cfg_eq
  | endStream => rcases exec_endStream_cases h with ⟨-, rfl⟩ | ⟨-, rfl⟩ <;> rfl
  | cfgWrite a d =>
    rcases exec_cfgWrite_cases h with ⟨r, rfl⟩ | ⟨hs, -, -⟩
    · rfl
    · exact absurd hactive hs
  | cfgRead a => rw [exec_cfgRead_next h]; rfl
  | sessionReset => rw [exec_sessionReset_next h]; rfl

end Sys2Proof.Machine
end

section
/-! SUPPORT. SAMPLE: what it answers in each case (40_commands.md R210 to R216). -/

namespace Sys2Proof.Machine

open Sys2Proof.Safety

/-! The normalised sample -/

/-- A code q of full scale m, at least −m and at most `hi`, stands for q / m (R215). -/
theorem code_div_range {q m hi : ℚ} (hm : 0 < m) (hlo : -m ≤ q) (hhi : q ≤ hi) : -1 ≤ q / m ∧ q / m ≤ hi / m :=
  ⟨by rw [le_div_iff₀ hm]; linarith, by gcongr⟩

/-- Settles O26: each format's row, and the range of its codes over their full scale. -/
theorem normalisedSample : Obligations.NormalisedSample := by
  refine fun d => ⟨rfl, rfl, rfl, fun x hx => ?signed16, fun x hx => ?signed8, fun x hx => ?unsigned8⟩
  case signed16 =>
    obtain rfl := Option.some.inj hx
    have hlo : -32768 ≤ (d.extractLsb' 0 16).toInt := BitVec.le_toInt _
    have hhi : (d.extractLsb' 0 16).toInt ≤ 32767 := Int.le_of_lt_add_one BitVec.toInt_lt
    rw [show (1 : ℚ) - 1 / 32768 = 32767 / 32768 by norm_num]
    exact code_div_range (by norm_num) (by exact_mod_cast hlo) (by exact_mod_cast hhi)
  case signed8 =>
    obtain rfl := Option.some.inj hx
    have hlo : -128 ≤ (d.extractLsb' 0 8).toInt := BitVec.le_toInt _
    have hhi : (d.extractLsb' 0 8).toInt ≤ 127 := Int.le_of_lt_add_one BitVec.toInt_lt
    exact code_div_range (by norm_num) (by exact_mod_cast hlo) (by exact_mod_cast hhi)
  case unsigned8 =>
    obtain rfl := Option.some.inj hx
    have hlo : (0 : ℚ) ≤ (d.extractLsb' 0 8).toNat := Nat.cast_nonneg _
    have hhi : ((d.extractLsb' 0 8).toNat : ℚ) ≤ 255 := by exact_mod_cast Nat.le_of_lt_succ (d.extractLsb' 0 8).isLt
    exact code_div_range (by norm_num) (by linarith) (by linarith)

/-! What SAMPLE answers -/

/-- SAMPLE with CTRL.ADAPT_EN = 1 (R212). -/
theorem exec_sample_of_adaptEn {s : State} (d : Word) (hopen : s.session ≠ .done) (hadapt : s.cfg.adaptEn = true) :
    exec (.sample d) s = .next { s with refused := some .adaptiveTrackingUnmodelled } :=
  (if_neg hopen).trans (if_pos hadapt)

/-- A SAMPLE that the session accepts makes it ACTIVE (R210). -/
theorem exec_sample_of_accepted {s : State} (d : Word) (hopen : s.session ≠ .done) (hadapt : s.cfg.adaptEn = false) :
    exec (.sample d) s = acceptSample d { s with session := .active } :=
  (if_neg hopen).trans (if_neg (Bool.eq_false_iff.mp hadapt))

/-- Where SAMPLE is taken it has a normalised sample, and answers what taking that sample answers. -/
theorem exec_sample_of_sampling {s : State} (h : Sampling s) (d : Word) : ∃ x, normalise s.cfg.fmt d = some x ∧
    ∀ t, takeSample x { s with session := .active } = .ok t → exec (.sample d) s = .next t := by
  obtain ⟨hopen, hadapt, hstop, hfmt⟩ := h
  obtain ⟨x, hx⟩ := normalise_answers d (fmt := s.cfg.fmt) hfmt
  refine ⟨x, hx, fun t ht => ?_⟩
  rw [exec_sample_of_accepted d hopen hadapt]
  refine (if_neg hstop).trans ?_
  simp only [hx, ht]

/-- A sample below START_IDX is counted alone (R211). -/
theorem takeSample_of_below {s : State} (x : Analog) (h : s.n < s.cfg.startIdx) :
    takeSample x s = .ok (countSample s) := if_neg (BitVec.not_le.mpr h)

/-- A sample from START_IDX on goes through the front end and is then counted (R216). -/
theorem takeSample_of_frontEnd {x : Analog} {s u : State} (h : s.cfg.startIdx ≤ s.n) (hu : frontEnd x s.n s = .ok u) :
    takeSample x s = .ok (countSample u) := by
  simp only [takeSample, if_pos h, hu]

theorem countSample_of_ne_last {s : State} (h : s.n ≠ 0xFFFFFFFF#32) : countSample s = { s with n := s.n + 1 } :=
  if_neg h

theorem countSample_of_last {s : State} (h : s.n = 0xFFFFFFFF#32) :
    countSample s = endOfStream .indexExhausted s := if_pos h

/-- Where SAMPLE is taken from START_IDX on and the framer meets its law, the front end answers a state that keeps
SESSION = ACTIVE and N, and SAMPLE answers that state counted (R210, R216). -/
theorem exec_sample_of_reached {s : State} (h : Sampling s) (d : Word) (hblk : s.blk.ok s.par.crc)
    (hreached : s.cfg.startIdx ≤ s.n) : ∃ x u, normalise s.cfg.fmt d = some x ∧
      frontEnd x s.n { s with session := .active } = .ok u ∧ u.session = .active ∧ u.n = s.n ∧
      exec (.sample d) s = .next (countSample u) := by
  obtain ⟨x, hx, hexec⟩ := exec_sample_of_sampling h d
  obtain ⟨u, hu⟩ := frontEnd_answers (s := { s with session := .active }) x s.n hblk
  have honly := (frontEnd_step hu).only
  exact ⟨x, u, hx, hu, honly.session, honly.n, hexec _ (takeSample_of_frontEnd hreached hu)⟩

/-! The obligations -/

/-- Settles O20: REFUSED is set, and from such a state there is no step. -/
theorem adaptiveSampleRefused : Obligations.AdaptiveSampleRefused := by
  refine ⟨fun s d => exec_sample_of_adaptEn d, fun s t d hopen hadapt h => ?_⟩
  rw [exec_sample_of_adaptEn d hopen hadapt] at h
  cases h
  exact step_of_refused (by simp)

/-- Settles O21: the stop check comes before normalisation and counting. -/
theorem stopIndexEndsStream : Obligations.StopIndexEndsStream :=
  ⟨fun _ d hopen hadapt hen hstop => (exec_sample_of_accepted d hopen hadapt).trans (if_pos ⟨hen, hstop⟩), rfl⟩

/-- Settles O22: an index below START_IDX is not the last one, so N counts on. -/
theorem skippedSampleIsCounted : Obligations.SkippedSampleIsCounted := by
  intro s d h hbelow
  obtain ⟨x, -, hexec⟩ := exec_sample_of_sampling h d
  have hne : s.n ≠ 0xFFFFFFFF#32 := by bv_omega
  rw [hexec _ (takeSample_of_below (s := { s with session := .active }) x hbelow),
    countSample_of_ne_last (s := { s with session := .active }) hne]

/-- Settles O23: the front end answers, and an index that is not the last one is counted. -/
theorem sampleThroughFrontEnd : Obligations.SampleThroughFrontEnd := by
  intro s d h hblk hreached hne
  obtain ⟨x, u, hx, hu, hsession, hn, hexec⟩ := exec_sample_of_reached h d hblk hreached
  rw [countSample_of_ne_last (hn ▸ hne), hn] at hexec
  exact ⟨x, u, hx, hu, hexec, hsession⟩

theorem countSample_n_le (s : State) : s.n ≤ (countSample s).n := by
  rcases countSample_cases s with ⟨-, hc⟩ | ⟨hne, hc⟩ <;> rw [hc]
  · exact BitVec.le_refl s.n
  · show s.n ≤ s.n + 1
    bv_omega

theorem SampleResult.n_le {d : Word} {s t : State} (h : SampleResult d s t) : s.n ≤ t.n := by
  cases h with
  | rejected _ eq | refused _ _ eq | stopped _ _ _ eq => subst eq; exact BitVec.le_refl s.n
  | counted u _ _ _ taken eq =>
    have hu : u.n = s.n := taken.pipelineStep.only.n
    rw [eq, ← hu]
    exact countSample_n_le u

/-- N never wraps: no command but SESSION_RESET lowers it (R214). -/
theorem exec_n_le {i : Instr} {s t : State} (hi : i ≠ .sessionReset) (h : exec i s = .next t) : s.n ≤ t.n := by
  have hkept : ∀ {u : State}, u.n = s.n → s.n ≤ u.n := fun hu => hu ▸ BitVec.le_refl _
  cases i with
  | nop => exact hkept (by rw [exec_nop_next h])
  | sample d => exact (exec_sample_result h).n_le
  | endStream => rcases exec_endStream_cases h with ⟨-, rfl⟩ | ⟨-, rfl⟩ <;> exact hkept rfl
  | cfgWrite a d => rcases exec_cfgWrite_cases h with ⟨r, rfl⟩ | ⟨-, -, rfl⟩ <;> exact hkept rfl
  | cfgRead a => rw [exec_cfgRead_next h]; exact hkept rfl
  | sessionReset => exact absurd rfl hi

/-- Settles O24: the last index is never below START_IDX, so its sample is processed; counting it ends the stream. -/
theorem lastIndexEndsStream : Obligations.LastIndexEndsStream := by
  refine ⟨fun s d h hblk hlast => ?_, fun i s t => exec_n_le, rfl⟩
  have hreached : s.cfg.startIdx ≤ s.n := by bv_omega
  obtain ⟨x, u, hx, hu, -, hn, hexec⟩ := exec_sample_of_reached h d hblk hreached
  have hun : u.n = 0xFFFFFFFF#32 := hn.trans hlast
  rw [countSample_of_last hun] at hexec
  exact ⟨x, u, hx, hu, hun, hexec⟩

end Sys2Proof.Machine
end

section
/-! SUPPORT. A REJECT comes alone (40_commands.md R202). -/

namespace Sys2Proof.Machine

open Sys2Proof.Safety

/-- The pipeline emits only PULSE, assembler faults, BYTE and the framer's events (R620). -/
theorem kind_of_mem_pipelineOrder {es : List Event} {e : Event} (h : pipelineOrder es) (he : e ∈ es) :
    isPulse e = true ∨ isAssemblerFault e = true ∨ isByte e = true ∨ isFramerEvent e = true := by
  rcases h with rfl | ⟨p, hp, rfl | ⟨f, hf, rfl⟩ | ⟨b, r, hb, hr, rfl⟩⟩
  · cases he
  · obtain rfl := List.mem_singleton.mp he
    exact .inl hp
  · rcases List.mem_pair.mp he with rfl | rfl
    · exact .inl hp
    · exact .inr (.inl hf)
  · rcases List.mem_cons.mp he with rfl | he
    · exact .inl hp
    rcases List.mem_cons.mp he with rfl | he
    · exact .inr (.inr (.inl hb))
    rcases hr with rfl | ⟨f, hf, rfl⟩
    · cases he
    · obtain rfl := List.mem_singleton.mp he
      exact .inr (.inr (.inr hf))

theorem reject_notMem_pipelineOrder {es : List Event} (h : pipelineOrder es) (r : Reason) (op : BitVec 4) :
    .reject r op ∉ es := by
  intro hmem
  rcases kind_of_mem_pipelineOrder h hmem with hk | hk | hk | hk <;> cases hk

/-- From `s` to `t` a REJECT comes alone: with one, `t` is `s` with that event emitted. -/
def RejectAlone (s t : State) : Prop :=
  ∀ r op, .reject r op ∈ newEvents s t → t = rejectCmd r op s

/-- Events without a REJECT. -/
theorem RejectAlone.of_append {s t : State} {es : List Event} (ho : t.output = s.output ++ es)
    (hes : ∀ r op, .reject r op ∉ es) : RejectAlone s t := by
  intro r op hmem
  rw [newEvents_of_append ho] at hmem
  exact absurd hmem (hes r op)

theorem RejectAlone.of_silent {s t : State} (ho : t.output = s.output) : RejectAlone s t :=
  .of_append (es := []) (by rw [ho, List.append_nil]) fun _ _ => List.not_mem_nil

/-- One event that is not a REJECT. -/
theorem RejectAlone.of_one {s t : State} {e : Event} (he : isReject e = false) (ho : t.output = s.output ++ [e]) :
    RejectAlone s t :=
  .of_append ho fun r op hmem => by
    rw [← List.mem_singleton.mp hmem] at he
    cases he

theorem rejectCmd_rejectAlone (r : Reason) (op : BitVec 4) (s : State) : RejectAlone s (rejectCmd r op s) := by
  intro r' op' hmem
  rw [newEvents_of_append (rejectCmd_output r op s), List.mem_singleton] at hmem
  cases hmem
  rfl

theorem SampleResult.rejectAlone {d : Word} {s t : State} (h : SampleResult d s t) : RejectAlone s t := by
  cases h with
  | rejected _ eq => subst eq; exact rejectCmd_rejectAlone _ _ s
  | refused _ _ eq => subst eq; exact .of_silent rfl
  | stopped _ _ _ eq => subst eq; exact .of_one (e := .exhausted .stopIndex) rfl rfl
  | counted u _ _ _ taken eq =>
    obtain ⟨es, horder, hes⟩ := taken.pipelineStep.events
    have hes : u.output = s.output ++ es := hes
    have hnone := reject_notMem_pipelineOrder horder
    rcases countSample_cases u with ⟨-, hc⟩ | ⟨-, hc⟩ <;> rw [eq, hc]
    · exact .of_append (es := es ++ [.exhausted .indexExhausted]) (by simp [hes]) (by simpa using hnone)
    · exact .of_append (t := { u with n := u.n + 1 }) hes hnone

theorem exec_rejectAlone {i : Instr} {s t : State} (h : exec i s = .next t) : RejectAlone s t := by
  cases i with
  | nop => rw [exec_nop_next h]; exact .of_silent rfl
  | sample d => exact (exec_sample_result h).rejectAlone
  | endStream =>
    rcases exec_endStream_cases h with ⟨-, rfl⟩ | ⟨-, rfl⟩
    · exact rejectCmd_rejectAlone _ _ s
    · exact .of_one (e := .exhausted .endCommand) rfl (endOfStream_output _ s)
  | cfgWrite a d =>
    rcases exec_cfgWrite_cases h with ⟨r, rfl⟩ | ⟨-, -, rfl⟩
    · exact rejectCmd_rejectAlone _ _ s
    · exact .of_silent rfl
  | cfgRead a => rw [exec_cfgRead_next h]; exact .of_one rfl (emit_output _ s)
  | sessionReset => rw [exec_sessionReset_next h]; exact .of_silent (sessionResetState_output s)

/-- What the item at the head of the port does, with the item taken. -/
theorem step_rejectAlone {s t : State} (h : step s = .next t) : RejectAlone { s with input := s.input.tail } t := by
  cases step_result h with
  | idle port eq => subst eq; exact .of_silent rfl
  | hardwareReset rest port eq => subst eq; rw [port]; exact .of_silent rfl
  | command w rest i port _ run => rw [port]; exact exec_rejectAlone run
  | malformed w rest e port _ eq => subst eq; rw [port]; exact rejectCmd_rejectAlone _ _ _

/-- Settles O51: of the items of the port only a rejected command has a REJECT among its events. -/
theorem rejectComesAlone : Obligations.RejectComesAlone := fun _ _ r op h hmem => step_rejectAlone h r op hmem

end Sys2Proof.Machine
end

section
/-! SUPPORT. The analog front end, unit by unit: BYPASS, the spike filter, the mean, the stages and the envelope
(41_front_end.md R250 to R285). -/

namespace Sys2Proof.Machine

/-- R12's clamp in the order's own words. -/
theorem clamp_eq_max_min (v : ℚ) {lo hi : ℚ} (h : lo ≤ hi) : clamp v lo hi = max lo (min v hi) := by
  unfold clamp
  split_ifs with hlo hhi
  · rw [min_eq_left (hlo.le.trans h), max_eq_left hlo.le]
  · rw [min_eq_right hhi.le, max_eq_right h]
  · rw [min_eq_left (not_lt.mp hhi), max_eq_right (not_lt.mp hlo)]

/-! BYPASS -/

/-- The detector takes no free value. -/
theorem detect_freeUse {y : Analog} {n : Word} {s t : State} (h : detect y n s = .ok t) : t.freeUse = s.freeUse := by
  rcases detect_cases h with ⟨-, -, rfl⟩ | ⟨-, -, -, hc⟩ | ⟨-, -, -, rfl⟩ | ⟨-, -, rfl⟩ | ⟨-, -, rfl⟩
  case inr.inl => rw [(completePulse_step hc).1.freeUse]; rfl
  all_goals rfl

theorem frontEnd_of_bypass {s : State} (x : Analog) (n : Word) (h : s.cfg.bypass = true) :
    frontEnd x n s = detect (clamp x 0 1) n s := if_pos h

/-- Settles O27: with BYPASS = 1 there is only the detector, which keeps the front end's state. -/
theorem bypassFeedsDetector : Obligations.BypassFeedsDetector := by
  intro s n x hby
  have heq : frontEnd x n s = detect (max 0 (min x 1)) n s := by
    rw [frontEnd_of_bypass x n hby, clamp_eq_max_min x zero_le_one]
  refine ⟨heq, fun t ht => ?_⟩
  rw [heq] at ht
  exact ⟨detect_fe ht, detect_freeUse ht⟩

/-! The stages and the envelope -/

theorem stageUpdate_eq (v input k : ℚ) : stageUpdate v input k = max (-1) (min (v + (input - v) * k) 1) :=
  clamp_eq_max_min _ (by norm_num)

theorem stageUpdate_bounds (v input k : ℚ) : -1 ≤ stageUpdate v input k ∧ stageUpdate v input k ≤ 1 :=
  clamp_bounds _ (by norm_num)

/-- A step of a fraction k of the way from V to the input stays between them (R270). -/
theorem min_le_step_le_max {v input k : ℚ} (h0 : 0 ≤ k) (h1 : k ≤ 1) :
    min v input ≤ v + (input - v) * k ∧ v + (input - v) * k ≤ max v input := by
  rcases le_total v input with h | h
  · rw [min_eq_left h, max_eq_right h]
    have hup : 0 ≤ (input - v) * k := mul_nonneg (sub_nonneg.mpr h) h0
    have hshort : (input - v) * k ≤ input - v := mul_le_of_le_one_right (sub_nonneg.mpr h) h1
    constructor <;> linarith
  · rw [min_eq_right h, max_eq_left h]
    have hdown : (input - v) * k ≤ 0 := mul_nonpos_of_nonpos_of_nonneg (sub_nonpos.mpr h) h0
    have hshort : input - v ≤ (input - v) * k := le_mul_of_le_one_right (sub_nonpos.mpr h) h1
    constructor <;> linarith

theorem envelope_eq (u v2 : ℚ) : envelope u v2 = max 0 (min (u - v2) 1) := clamp_eq_max_min _ zero_le_one

theorem envelope_bounds (u v2 : ℚ) : 0 ≤ envelope u v2 ∧ envelope u v2 ≤ 1 := clamp_bounds _ zero_le_one

theorem envelope_eq_zero_iff (u v2 : ℚ) : envelope u v2 = 0 ↔ u ≤ v2 := by
  rw [envelope_eq, max_eq_left_iff, min_le_iff, sub_nonpos]
  exact or_iff_left (by norm_num)

theorem envelope_pos_iff (u v2 : ℚ) : envelope u v2 > 0 ↔ u > v2 := by
  rw [gt_iff_lt, (envelope_bounds u v2).1.lt_iff_ne', Ne, envelope_eq_zero_iff, not_le]

theorem envelope_of_one_le {u v2 : ℚ} (h : u - v2 ≥ 1) : envelope u v2 = 1 := by
  rw [envelope_eq, min_eq_right h, max_eq_right zero_le_one]

/-- Settles O28, from the clamp's two forms: its bounds, and max over min. -/
theorem stageAndEnvelopeLaws : Obligations.StageAndEnvelopeLaws := by
  refine ⟨fun v input k => ?stage, fun u v2 => ?envelope⟩
  case stage =>
    obtain ⟨hlo, hhi⟩ := stageUpdate_bounds v input k
    exact ⟨stageUpdate_eq v input k, hlo, hhi, min_le_step_le_max⟩
  case envelope =>
    obtain ⟨hlo, hhi⟩ := envelope_bounds u v2
    exact ⟨hlo, hhi, envelope_eq_zero_iff u v2, envelope_pos_iff u v2, envelope_of_one_le⟩

/-! The spike filter -/

/-- The spike test of R262 on the two sign classes of R12. -/
theorem isSpike_iff (a b c d : ℚ) : isSpike (some a) b c d = true ↔
    (0 ≤ a ∧ 0 ≤ c ∧ 0 ≤ d ∧ b < 0) ∨ (a < 0 ∧ c < 0 ∧ d < 0 ∧ 0 ≤ b) := by
  rcases le_or_gt 0 a with ha | ha
  · have hrest : (0 ≤ c ∧ (0 ≤ c ↔ 0 ≤ d) ∧ b < 0) ↔ 0 ≤ c ∧ 0 ≤ d ∧ b < 0 :=
      and_congr_right fun hc => by rw [iff_true_left hc]
    simpa [isSpike, pos, ha, not_lt.mpr ha, and_assoc] using hrest
  · have hrest : (c < 0 ∧ (0 ≤ c ↔ 0 ≤ d) ∧ 0 ≤ b) ↔ c < 0 ∧ d < 0 ∧ 0 ≤ b :=
      and_congr_right fun hc => by rw [iff_false_left (not_le.mpr hc), not_le]
    simpa [isSpike, pos, ha, not_le.mpr ha, and_assoc] using hrest

/-- With fewer than two pending samples the new one is queued (R260). -/
theorem spike_of_filling {s : State} (d : Analog) (n : Word) (h : s.fe.spkQ.length < 2) :
    spike d n s = .ok (setFe { s.fe with spkQ := s.fe.spkQ ++ [(d, n)] } s) := by
  unfold spike
  match hq : s.fe.spkQ with
  | [] | [_] => rfl
  | _ :: _ :: _ => rw [hq] at h; simp at h

/-- With two pending samples the older is passed on, and the window moves by one (R260). -/
theorem spike_of_full {s : State} {b c : Analog × Word} (d : Analog) (n : Word) (h : s.fe.spkQ = [b, c]) :
    spike d n s = afe (despike s.fe.spkA b.1 c.1 d) b.2
      (setFe { s.fe with spkA := some (despike s.fe.spkA b.1 c.1 d), spkQ := [c, (d, n)] } s) := by
  simp only [spike, h]

/-- Settles O30: a window that fills, then one that is full, without and with a value passed on before. -/
theorem spikeFilterWindow : Obligations.SpikeFilterWindow := by
  refine ⟨fun d n s => spike_of_filling d n, fun d b c n nb nc s hq ha => ?first,
    fun d a b c v n nb nc s hq ha hv => ?next, fun a c => ⟨fun ha hc => by linarith, fun ha hc => by linarith⟩⟩
  case first =>
    rw [spike_of_full d n hq, ha]
    rfl
  case next =>
    have hpassed : despike s.fe.spkA b c d = v := by
      simp only [ha, despike, isSpike_iff, hv]
    rw [spike_of_full d n hq, hpassed]
    rfl

/-! The analog path -/

theorem meanState_of_off {s : State} (x : Analog) (h : s.cfg.meanEn = false) : meanState x s = s :=
  if_neg (Bool.eq_false_iff.mp h)

theorem meanState_of_counting {s : State} (x : Analog) (h : s.cfg.meanEn = true) (hne : s.fe.mcnt ≠ 0xFFFFFFFF#32) :
    meanState x s = setFe { s.fe with msum := s.fe.msum + x, mcnt := s.fe.mcnt + 1 } s :=
  (if_pos h).trans (if_neg hne)

/-- The 2^32-th sample takes a free value for MCNT (R46, R265). -/
theorem meanState_of_last {s : State} (x : Analog) (h : s.cfg.meanEn = true) (hlast : s.fe.mcnt = 0xFFFFFFFF#32) :
    meanState x s = { setFe { s.fe with msum := s.fe.msum + x, mcnt := Config.meanCountPastEnd s.freeUse } s with
      freeUse := s.freeUse + 1 } :=
  (if_pos h).trans (if_pos hlast)

/-- `afe` over the new V1 and the state that the mean leaves: the detector on the envelope over the old V2, with both
voltages updated (R250). -/
theorem afe_of_meanState {x u : Analog} {s t : State} (n : Word)
    (hu : u = stageUpdate s.fe.v1 (stageInput x s) (q16 s.cfg.k1)) (ht : meanState x s = t) :
    afe x n s = detect (envelope u s.fe.v2) n
      (setFe { t.fe with v1 := u, v2 := stageUpdate s.fe.v2 u (q16 s.cfg.k2) } t) := by
  subst hu ht; rfl

/-- Settles O29: one case per form of the state that the mean leaves. -/
theorem analogPathWrittenOut : Obligations.AnalogPathWrittenOut := by
  intro x m u n s hm hu
  have hv1 : u = stageUpdate s.fe.v1 (stageInput x s) (q16 s.cfg.k1) := by rw [hu, hm]; rfl
  refine ⟨fun hoff => ?off, fun hon hne => ?counting,
    fun hon hlast => ⟨Config.meanCountPastEnd s.freeUse, s.freeUse + 1, ?last⟩⟩
  case off => rw [afe_of_meanState n hv1 (meanState_of_off x hoff)]; rfl
  case counting => rw [afe_of_meanState n hv1 (meanState_of_counting x hon hne)]; rfl
  case last => rw [afe_of_meanState n hv1 (meanState_of_last x hon hlast)]; rfl

end Sys2Proof.Machine
end

section
/-! SUPPORT. Every case of `detect` (42_pulse_detector.md R300 to R316). -/

namespace Sys2Proof.Machine

/-- Marking the start of a zero run writes Z_START alone (R307). -/
theorem Detector.markZero_eq (n : Word) (d : Detector) :
    d.markZero n = { d with zStart := if d.zRun = 0#32 then n else d.zStart } := by
  unfold Detector.markZero
  split <;> rfl

theorem maxQ_eq_max (a b : ℚ) : maxQ a b = max a b := (max_def a b).symm

theorem accepted_iff {s : State} {peak : ℚ} : accepted s peak = true ↔ peak > (s.cfg.floor.toNat : ℚ) / 65536 :=
  decide_eq_true_iff

theorem completePulse_of_accepted {s : State} {peak : Analog} (start stop : Word) (h : accepted s peak = true) :
    completePulse start stop peak s =
      classify (stop - start) (doubledCentre start stop) (emit (.pulse start stop peak true) s) := by
  simp only [completePulse, h, if_true]

theorem completePulse_of_not_accepted {s : State} {peak : Analog} (start stop : Word) (h : accepted s peak = false) :
    completePulse start stop peak s = .ok (emit (.pulse start stop peak false) s) := by
  simp only [completePulse, h, Bool.false_eq_true, if_false]

theorem detect_of_opening {s : State} {y : Analog} (n : Word) (hin : s.det.inPulse = false) (hy : y > 0) :
    detect y n s = .ok (setDet { s.det with inPulse := true, pStart := n, pPeak := y, zRun := 0#32 } s) := by
  simp only [detect, hin, hy, Bool.false_eq_true, if_false, if_true]

theorem detect_of_outside {s : State} {y : Analog} (n : Word) (hin : s.det.inPulse = false) (hy : ¬ y > 0) :
    detect y n s = .ok s := by
  simp only [detect, hin, hy, Bool.false_eq_true, if_false]

theorem detect_of_inside {s : State} {y : Analog} (n : Word) (hin : s.det.inPulse = true) (hy : y > 0) :
    detect y n s = .ok (setDet { s.det with zRun := 0#32, pPeak := max s.det.pPeak y } s) := by
  simp only [detect, hin, hy, if_true, maxQ_eq_max]

theorem detect_of_running {s : State} {y : Analog} (n : Word) (hin : s.det.inPulse = true) (hy : ¬ y > 0)
    (hz : s.det.zRun.toNat + 1 < s.cfg.zeroCount.toNat) :
    detect y n s = .ok (setDet { s.det.markZero n with zRun := s.det.zRun + 1 } s) := by
  simp only [detect, hin, hy, if_true, if_false, if_neg (not_le.mpr hz)]

theorem detect_of_closing {s : State} {y : Analog} (n : Word) (hin : s.det.inPulse = true) (hy : ¬ y > 0)
    (hz : s.cfg.zeroCount.toNat ≤ s.det.zRun.toNat + 1) :
    detect y n s = completePulse s.det.pStart (s.det.markZero n).zStart s.det.pPeak
      (setDet { s.det.markZero n with inPulse := false, zRun := 0#32 } s) := by
  simp only [detect, hin, hy, if_true, if_false, if_pos hz]

/-- Settles O31: one equation of `detect` per case, and the two of `completePulse` when the run closes the pulse. -/
theorem detectorCases : Obligations.DetectorCases := by
  refine ⟨fun s y n hin hy => detect_of_opening n hin hy, fun s y n hin hy => detect_of_outside n hin hy,
    fun s y n hin hy => detect_of_inside n hin hy, fun s y n z hin hy hz hrun => ?running,
    fun s y n z hin hy hz hrun => ?closing⟩
  case running =>
    rw [detect_of_running n hin hy hrun, Detector.markZero_eq, ← hz]
    rfl
  case closing =>
    rw [detect_of_closing n hin hy hrun, Detector.markZero_eq, ← hz]
    split
    case isTrue hpeak => exact completePulse_of_accepted _ _ (accepted_iff.mpr hpeak)
    case isFalse hpeak => exact completePulse_of_not_accepted _ _ (Bool.eq_false_iff.mpr (mt accepted_iff.mp hpeak))

end Sys2Proof.Machine
end

section
/-! SUPPORT. The times of the events that the units after the detector emit for one pulse (43_assembler.md R373,
44_framer.md R447). -/

namespace Sys2Proof.Machine

open Sys2Proof.Safety

/-- An event that the units after the detector may emit while they take a pulse of doubled centre `c2` with the framer at
`f`: a BYTE or FAULT at the time `c2`, or the BLOCK in progress with its own time (R373, R600, R447). -/
inductive EventTimed (c2 : Time) (f : Framer) : Event → Prop
  | byte (b : Byte) : EventTimed c2 f (.byte b c2)
  | fault (k : FaultKind) : EventTimed c2 f (.fault k c2)
  | block (b : Block) (busy : f.fr ≠ .hunt) (time : b.time = f.blkTime) : EventTimed c2 f (.block b)

/-- `t` has emitted after `s` only such events. -/
def EmitsTimed (c2 : Time) (s t : State) : Prop :=
  ∃ es, t.output = s.output ++ es ∧ ∀ e ∈ es, EventTimed c2 s.blk e

theorem EmitsTimed.of_silent {c2 : Time} {s t : State} (h : t.output = s.output) : EmitsTimed c2 s t :=
  ⟨[], by rw [h, List.append_nil], fun _ he => absurd he List.not_mem_nil⟩

theorem EmitsTimed.of_one {c2 : Time} {s t : State} {e : Event} (he : EventTimed c2 s.blk e)
    (h : t.output = s.output ++ [e]) : EmitsTimed c2 s t :=
  ⟨[e], h, fun _ hmem => List.mem_singleton.mp hmem ▸ he⟩

theorem EventTimed.congr {c2 : Time} {f g : Framer} {e : Event} (h : EventTimed c2 f e) (hfr : f.fr = g.fr)
    (htime : f.blkTime = g.blkTime) : EventTimed c2 g e := by
  cases h with
  | byte b => exact .byte b
  | fault k => exact .fault k
  | block b busy time => exact .block b (hfr ▸ busy) (htime ▸ time)

/-- Two units after one another, of which the first keeps FR and BLK_TIME. -/
theorem EmitsTimed.trans {c2 : Time} {s u t : State} (h : EmitsTimed c2 s u) (hfr : u.blk.fr = s.blk.fr)
    (htime : u.blk.blkTime = s.blk.blkTime) (h' : EmitsTimed c2 u t) : EmitsTimed c2 s t := by
  obtain ⟨es, ho, hes⟩ := h
  obtain ⟨es', ho', hes'⟩ := h'
  refine ⟨es ++ es', by rw [ho', ho, List.append_assoc], fun e he => ?_⟩
  rcases List.mem_append.mp he with he | he
  · exact hes e he
  · exact (hes' e he).congr hfr htime

/-- What is emitted from a state with the same output, FR and BLK_TIME. -/
theorem EmitsTimed.after_silent {c2 : Time} {s u t : State} (h : EmitsTimed c2 u t) (ho : u.output = s.output)
    (hfr : u.blk.fr = s.blk.fr) (htime : u.blk.blkTime = s.blk.blkTime) : EmitsTimed c2 s t :=
  EmitsTimed.trans (.of_silent ho) hfr htime h

theorem coverHeader_fr (b : Byte) (s : State) : (coverHeader b s).blk.fr = s.blk.fr := by
  unfold coverHeader; split <;> rfl

theorem coverHeader_blkTime (b : Byte) (s : State) : (coverHeader b s).blk.blkTime = s.blk.blkTime := by
  unfold coverHeader; split <;> rfl

theorem raiseFault_timed {s u : State} (k : FaultKind) (c2 : Time) (h : u.output = s.output) :
    EmitsTimed c2 s (raiseFault k c2 u) :=
  .of_one (.fault k) (by rw [raiseFault_output, h])

theorem lenByte_timed (b : Byte) (c2 : Time) (s : State) : EmitsTimed c2 s (lenByte b c2 s) := by
  simp only [lenByte]
  split_ifs
  · exact raiseFault_timed _ c2 rfl
  all_goals exact .of_silent rfl

theorem hcrcByte_timed (b : Byte) (c2 : Time) (s : State) : EmitsTimed c2 s (hcrcByte b c2 s) := by
  simp only [hcrcByte]
  split_ifs
  · exact raiseFault_timed _ c2 rfl
  all_goals exact .of_silent rfl

/-- A BLOCK has the block time of the framer (R447). -/
theorem emitBlock_timed {c2 : Time} {s t : State} (hfr : s.blk.fr ≠ .hunt) (h : emitBlock s = .ok t) :
    EmitsTimed c2 s t := by
  unfold emitBlock at h
  split at h <;> cases h
  exact .of_one (.block _ hfr rfl) rfl

theorem pcrcByte_timed {b : Byte} {c2 : Time} {s t : State} (hfr : s.blk.fr = .pcrc) (h : pcrcByte b c2 s = .ok t) :
    EmitsTimed c2 s t := by
  have hbusy : s.blk.fr ≠ .hunt := by rw [hfr]; decide
  simp only [pcrcByte] at h
  split at h
  · split at h
    · cases h; exact raiseFault_timed _ c2 rfl
    · exact (emitBlock_timed (by exact hbusy) h).after_silent rfl rfl rfl
  · cases h; exact .of_silent rfl

theorem frame_timed {b : Byte} {c2 : Time} {s t : State} (h : frame b c2 s = .ok t) : EmitsTimed c2 s t := by
  refine EmitsTimed.after_silent ?_ (coverHeader_output b s) (coverHeader_fr b s) (coverHeader_blkTime b s)
  unfold frame frameByState at h
  split at h
  case h_1 => cases h; unfold huntByte; split <;> exact .of_silent rfl
  case h_7 => cases h; exact lenByte_timed b c2 _
  case h_10 => cases h; exact hcrcByte_timed b c2 _
  case h_11 => exact .of_silent (dataByte_output h)
  case h_12 hfr => exact pcrcByte_timed hfr h
  all_goals cases h; exact .of_silent rfl

theorem pushBit_timed {bit : Bool} {c2 : Time} {s t : State} (h : pushBit bit c2 s = .ok t) : EmitsTimed c2 s t := by
  unfold pushBit at h
  split at h
  · exact EmitsTimed.trans (.of_one (.byte _) (completeByte_output _ c2 s)) rfl rfl (frame_timed h)
  · cases h; exact .of_silent rfl

theorem assemble_timed {tone : Tone} {w : Word} {c2 : Time} {s t : State} (h : assemble tone w c2 s = .ok t) :
    EmitsTimed c2 s t := by
  unfold assemble at h
  split at h
  case h_1 => cases h; exact raiseFault_timed _ c2 rfl
  case h_6 => exact (pushBit_timed h).after_silent rfl rfl rfl
  case h_7 =>
    split at h
    · exact (pushBit_timed h).after_silent rfl rfl rfl
    · cases h; exact .of_silent rfl
  case h_8 => cases h; exact raiseFault_timed _ c2 rfl
  case h_9 => split at h <;> cases h <;> exact .of_silent rfl
  all_goals cases h; exact .of_silent rfl

theorem classify_timed {w : Word} {c2 : Time} {s t : State} (h : classify w c2 s = .ok t) : EmitsTimed c2 s t := by
  unfold classify at h
  exact (assemble_timed h).after_silent rfl rfl rfl

end Sys2Proof.Machine
end

section
/-! SUPPORT. The one pulse that a SAMPLE can close: its laws, its events, and that without it nothing after the detector
changes (42_pulse_detector.md R315 to R317). -/

namespace Sys2Proof.Machine

open Sys2Proof.Safety

/-! A sample that closes no pulse, and one that does -/

/-- The state after the detector, with its counters (R315). -/
def downstream (s : State) : Option Time × BitAsm × Framer × Memory × Word × Word :=
  (s.prevC2, s.asm, s.blk, s.pbuf, s.blockCount, s.faultCount)

theorem prevC2_of_downstream {s t : State} (h : downstream t = downstream s) : t.prevC2 = s.prevC2 := congrArg (·.1) h

theorem blk_of_downstream {s t : State} (h : downstream t = downstream s) : t.blk = s.blk := congrArg (·.2.2.1) h

/-- From `s` to `t` nothing after the detector changed, and no PULSE and no event with a time was emitted. -/
structure Quiet (s t : State) : Prop where
  same   : downstream t = downstream s
  events : ∃ es, t.output = s.output ++ es ∧ ∀ e ∈ es, isPulse e = false ∧ eventTime e = none

theorem Quiet.of_silent {s t : State} (h : downstream t = downstream s) (ho : t.output = s.output) : Quiet s t :=
  ⟨h, [], by rw [ho, List.append_nil], fun _ he => absurd he List.not_mem_nil⟩

theorem Quiet.trans {s u t : State} (h : Quiet s u) (h' : Quiet u t) : Quiet s t := by
  obtain ⟨hs, es, ho, hes⟩ := h
  obtain ⟨hs', es', ho', hes'⟩ := h'
  refine ⟨hs'.trans hs, es ++ es', by rw [ho', ho, List.append_assoc], fun e he => ?_⟩
  exact (List.mem_append.mp he).elim (hes e) (hes' e)

theorem emit_quiet {e : Event} (s : State) (hp : isPulse e = false) (ht : eventTime e = none) : Quiet s (emit e s) :=
  ⟨rfl, [e], rfl, fun _ he => List.mem_singleton.mp he ▸ ⟨hp, ht⟩⟩

theorem endOfStream_quiet (c : Cause) (s : State) : Quiet s (endOfStream c s) :=
  (emit_quiet (e := .exhausted c) s rfl rfl).trans (.of_silent rfl rfl)

theorem countSample_quiet (s : State) : Quiet s (countSample s) := by
  rcases countSample_cases s with ⟨-, hc⟩ | ⟨-, hc⟩ <;> rw [hc]
  · exact endOfStream_quiet _ s
  · exact .of_silent rfl rfl

theorem countSample_det (s : State) : (countSample s).det = s.det := by
  unfold countSample; split <;> rfl

/-- From `s` the sample that reached the detector at index `k` closed the open pulse (R300, R308): in `v`, with the
detector and what lies before it updated, the pulse is completed, and `t` is the state before the sample is counted. -/
structure PulseClosed (k : Word) (s v t : State) : Prop where
  inPulse : s.det.inPulse = true
  index   : RunningAt s.n.toNat s → k.toNat = s.nextIndex
  closed  : v.det.inPulse = false
  cfg     : v.cfg = s.cfg
  same    : downstream v = downstream s
  output  : v.output = s.output
  run     : completePulse s.det.pStart (s.det.markZero k).zStart s.det.pPeak v = .ok t

/-- A sample through the front end is queued by the spike filter, or passes a value to the detector; in a running session
that value has the index of the oldest pending sample (R216, R260). -/
theorem frontEnd_cases {x : Analog} {s t : State} (h : frontEnd x s.n s = .ok t) :
    (∃ f, t = setFe f s) ∨ ∃ y k f m, (RunningAt s.n.toNat s → k.toNat = s.nextIndex) ∧
      detect y k { s with fe := f, freeUse := m } = .ok t := by
  unfold frontEnd at h
  split at h
  case isTrue hby =>
    refine .inr ⟨_, s.n, s.fe, s.freeUse, fun hr => ?_, h⟩
    have hw := hr.window
    rw [hby, Bool.not_true, Bool.and_false] at hw
    exact (FrontEnd.nextFrom_nil hw.spkQ_nil).symm
  case isFalse =>
    split at h
    case isTrue =>
      unfold spike at h
      split at h
      case h_1 => cases h; exact .inl ⟨_, rfl⟩
      case h_2 => cases h; exact .inl ⟨_, rfl⟩
      case h_3 b c q hq =>
        rw [afe_eq] at h
        exact .inr ⟨_, b.2, _, _, fun _ => (FrontEnd.nextFrom_cons hq).symm, h⟩
    case isFalse hsp =>
      rw [afe_eq] at h
      refine .inr ⟨_, s.n, _, _, fun hr => ?_, h⟩
      have hw := hr.window
      rw [Bool.eq_false_iff.mpr hsp, Bool.false_and] at hw
      exact (FrontEnd.nextFrom_nil hw.spkQ_nil).symm

theorem frontEnd_quiet_or_closed {x : Analog} {s t : State} (h : frontEnd x s.n s = .ok t) :
    Quiet s t ∨ ∃ k v, PulseClosed k s v t := by
  rcases frontEnd_cases h with ⟨f, rfl⟩ | ⟨y, k, f, m, index, hd⟩
  · exact .inl (.of_silent rfl rfl)
  rcases detect_cases hd with ⟨-, -, rfl⟩ | ⟨inPulse, -, -, run⟩ | ⟨-, -, -, rfl⟩ | ⟨-, -, rfl⟩ | ⟨-, -, rfl⟩
  · exact .inl (.of_silent rfl rfl)
  · refine .inr ⟨k, _, inPulse, index, ?_, ?_, ?_, ?_, run⟩ <;> rfl
  all_goals exact .inl (.of_silent rfl rfl)

/-- A SAMPLE leaves what follows the detector alone, or closes one pulse and counts its sample. -/
theorem SampleResult.quiet_or_closed {d : Word} {s t : State} (h : SampleResult d s t) :
    Quiet s t ∨ ∃ k v u, s.session ≠ .done ∧ PulseClosed k s v u ∧ t = countSample u := by
  cases h with
  | rejected _ eq => subst eq; exact .inl (emit_quiet s rfl rfl)
  | refused _ _ eq => subst eq; exact .inl (.of_silent rfl rfl)
  | stopped _ _ _ eq =>
    subst eq
    exact .inl (Quiet.trans (u := { s with session := .active }) (.of_silent rfl rfl) (endOfStream_quiet _ _))
  | counted u notDone _ _ taken eq =>
    subst eq
    have hstart : Quiet s { s with session := .active } := .of_silent rfl rfl
    cases taken with
    | skipped _ eq => subst eq; exact .inl (hstart.trans (countSample_quiet _))
    | processed x _ _ run =>
      rcases frontEnd_quiet_or_closed (s := { s with session := .active }) run with hq | ⟨k, v, hc⟩
      · exact .inl ((hstart.trans hq).trans (countSample_quiet u))
      · exact .inr ⟨k, v, u, notDone, { hc with index := fun hr => hc.index (hr.withSession .active) }, rfl⟩

/-! The pulse that a sample closes -/

/-- The index of the oldest pending sample is at most N (R45). -/
theorem nextFrom_le_of_runningAt {k : Nat} {s : State} (h : RunningAt k s) : s.fe.nextFrom k ≤ k := by
  rcases FrontEnd.windowOk_iff.mp h.window with hq | ⟨b, hq, -, -, hn⟩ | ⟨b, c, hq, -, -, hbc, hn⟩
  · exact (FrontEnd.nextFrom_nil hq).le
  · rw [FrontEnd.nextFrom_cons hq]; omega
  · rw [FrontEnd.nextFrom_cons hq]; omega

/-- In a running session the zero run at a sample that reaches the detector began after the open pulse, at that sample or
before it (R307, R317). -/
theorem markZero_zStart_bounds {k : Word} {zc next : Nat} {d : Detector} (hd : d.ok zc next) (hin : d.inPulse = true)
    (hk : k.toNat = next) :
    d.pStart.toNat < (d.markZero k).zStart.toNat ∧ (d.markZero k).zStart.toNat ≤ next := by
  obtain ⟨hstart, -, -, -, hrun⟩ := hd hin
  rw [Detector.markZero_eq]
  by_cases hz : d.zRun = 0#32
  · rw [if_pos hz, hk]
    exact ⟨hstart, le_rfl⟩
  · rw [if_neg hz]
    exact ⟨(hrun hz).1, (hrun hz).2.le⟩

/-- The laws of R317 for the pulse that is closed in a running session; its centre lies after the one classified last. -/
theorem PulseClosed.laws {k : Word} {s v t : State} (h : PulseClosed k s v t)
    (hr : RunningAt s.n.toNat s) :
    s.det.pStart < (s.det.markZero k).zStart ∧ (s.det.markZero k).zStart ≤ s.n ∧ 0 < s.det.pPeak ∧ s.det.pPeak ≤ 1 ∧
      ∀ c, s.prevC2 = some c → c < doubledCentre s.det.pStart (s.det.markZero k).zStart := by
  obtain ⟨-, hpos, hone, -, -⟩ := hr.detector h.inPulse
  obtain ⟨hlt, hle⟩ := markZero_zStart_bounds hr.detector h.inPulse (h.index hr)
  refine ⟨hlt, hle.trans (nextFrom_le_of_runningAt hr), hpos, hone, fun c hc => ?_⟩
  have hbefore := (hr.centre c hc).2 h.inPulse
  rw [BitVec.lt_def, doubledCentre_toNat]
  omega

/-- The events of a closed pulse: the PULSE, and after an accepted one the events at its centre (R300, R316). -/
theorem completePulse_events {start stop : Word} {peak : Analog} {s t : State}
    (h : completePulse start stop peak s = .ok t) :
    ∃ es, t.output = s.output ++ .pulse start stop peak (accepted s peak) :: es ∧
      ∀ e ∈ es, t.prevC2 = some (doubledCentre start stop) ∧ EventTimed (doubledCentre start stop) s.blk e := by
  cases hacc : accepted s peak with
  | false =>
    rw [completePulse_of_not_accepted start stop hacc] at h
    cases h
    exact ⟨[], rfl, fun _ he => absurd he List.not_mem_nil⟩
  | true =>
    rw [completePulse_of_accepted start stop hacc] at h
    obtain ⟨es, ho, hes⟩ := classify_timed h
    refine ⟨es, ?_, fun e he => ⟨(classify_step h).2, hes e he⟩⟩
    rw [ho, emit_output, List.append_assoc, List.singleton_append]

/-- The events of a SAMPLE that closes a pulse: its PULSE, then events at its centre, which is PREV_C2 by then, and those
of the stream's end. -/
theorem PulseClosed.newEvents_eq {k : Word} {s v t : State} (h : PulseClosed k s v t) :
    ∃ es, newEvents s (countSample t) =
        .pulse s.det.pStart (s.det.markZero k).zStart s.det.pPeak (accepted v s.det.pPeak) :: es ∧
      ∀ e ∈ es, (t.prevC2 = some (doubledCentre s.det.pStart (s.det.markZero k).zStart) ∧
          EventTimed (doubledCentre s.det.pStart (s.det.markZero k).zStart) s.blk e) ∨
        (isPulse e = false ∧ eventTime e = none) := by
  obtain ⟨-, es', ho', hes'⟩ := countSample_quiet t
  obtain ⟨es, ho, hes⟩ := completePulse_events h.run
  rw [blk_of_downstream h.same] at hes
  refine ⟨es ++ es', newEvents_of_append ?_, fun e he => (List.mem_append.mp he).imp (hes e) (hes' e)⟩
  rw [ho', ho, h.output, List.append_assoc, List.cons_append]

/-- Settles O32: a PULSE of a step is the pulse that its sample closed. -/
theorem pulseLaws : Obligations.PulseLaws := by
  intro s t d start stop peak acc hinv h hmem
  rcases (exec_sample_result h).quiet_or_closed with hq | ⟨k, v, u, hopen, hc, rfl⟩
  · obtain ⟨-, es, ho, hes⟩ := hq
    rw [newEvents_of_append ho] at hmem
    cases (hes _ hmem).1
  obtain ⟨es, hev, hes⟩ := hc.newEvents_eq
  rw [hev] at hmem
  rcases List.mem_cons.mp hmem with heq | hlater
  · cases heq
    obtain ⟨hlt, hle, hpos, hone, -⟩ := hc.laws (hinv.runningAt hopen)
    refine ⟨hlt, hle, hpos, hone, hc.cfg ▸ accepted_iff, ?_⟩
    rw [countSample_det, (completePulse_step hc.run).1.det, hc.closed]
  · rcases hes _ hlater with ⟨-, hk⟩ | ⟨hk, -⟩ <;> cases hk

/-- Settles O33: a sample is quiet after the detector, or closes a pulse, which here is not accepted. -/
theorem noAcceptedPulseNoChange : Obligations.NoAcceptedPulseNoChange := by
  intro s t d h hnone
  have hsame : downstream t = downstream s := by
    rcases (exec_sample_result h).quiet_or_closed with hq | ⟨k, v, u, -, hc, rfl⟩
    · exact hq.same
    obtain ⟨es, hev, -⟩ := hc.newEvents_eq
    have hacc : accepted v s.det.pPeak = false := by
      refine Bool.eq_false_iff.mpr fun hacc => hnone s.det.pStart (s.det.markZero k).zStart s.det.pPeak ?_
      rw [hev, hacc]
      exact List.mem_cons_self
    have hrun := hc.run
    rw [completePulse_of_not_accepted _ _ hacc] at hrun
    cases hrun
    exact (countSample_quiet _).same.trans hc.same
  simpa [downstream] using hsame

/-- What O60 says of one event `e` of a step from `s` to `t`. -/
def TimeLaw (s t : State) (e : Event) : Prop :=
  (isByte e = true ∨ isFault e = true →
      ∃ c, eventTime e = some c ∧ t.prevC2 = some c ∧ ∀ c', s.prevC2 = some c' → c' < c) ∧
    (∀ b, e = .block b → b.time = s.blk.blkTime ∧ ∃ c', s.prevC2 = some c' ∧ b.time ≤ c')

/-- BYTE, FAULT and BLOCK have a time, and the law says nothing of the other events. -/
theorem TimeLaw.of_untimed {s t : State} {e : Event} (h : eventTime e = none) : TimeLaw s t e := by
  cases e with
  | byte | fault | block => cases h
  | _ => exact ⟨by rintro (⟨⟨⟩⟩ | ⟨⟨⟩⟩), nofun⟩

/-- The events at a centre that lies after the one before it, with the block in progress begun by then (R422). -/
theorem TimeLaw.of_timed {c2 : Time} {s t : State} {e : Event} (h : EventTimed c2 s.blk e) (hprev : t.prevC2 = some c2)
    (hafter : ∀ c, s.prevC2 = some c → c < c2) (hblock : BlockTimeKnown s) : TimeLaw s t e := by
  cases h with
  | byte b => exact ⟨fun _ => ⟨c2, rfl, hprev, hafter⟩, nofun⟩
  | fault k => exact ⟨fun _ => ⟨c2, rfl, hprev, hafter⟩, nofun⟩
  | block b busy time =>
    refine ⟨by rintro (⟨⟨⟩⟩ | ⟨⟨⟩⟩), ?_⟩
    rintro _ ⟨⟩
    exact ⟨time, time ▸ hblock busy⟩

/-- Settles O60: the events with a time are those of the pulse that the sample closed, whose centre lies after the one
classified before. -/
theorem eventTimesIncrease : Obligations.EventTimesIncrease := by
  intro s t d e hinv h he
  rcases (exec_sample_result h).quiet_or_closed with hq | ⟨k, v, u, hopen, hc, rfl⟩
  · obtain ⟨-, es, ho, hes⟩ := hq
    rw [newEvents_of_append ho] at he
    exact TimeLaw.of_untimed (hes e he).2
  have hr := hinv.runningAt hopen
  obtain ⟨-, -, -, -, hafter⟩ := hc.laws hr
  obtain ⟨es, hev, hes⟩ := hc.newEvents_eq
  rw [hev] at he
  rcases List.mem_cons.mp he with rfl | he
  · exact TimeLaw.of_untimed rfl
  rcases hes e he with ⟨hprev, hk⟩ | ⟨-, hk⟩
  · exact TimeLaw.of_timed hk ((prevC2_of_downstream (countSample_quiet u).same).trans hprev) hafter hr.blockTime
  · exact TimeLaw.of_untimed hk

end Sys2Proof.Machine
end

section
/-! SUPPORT. The classifier (43_assembler.md R350 to R352), and an equation per cell of the assembler's table (R355). -/

namespace Sys2Proof.Machine

/-! The tone of a pulse -/

theorem toneOf_of_low {s : State} {w : Word} (c2 : Time) (hlow : s.cfg.thrLow ≤ w) : toneOf w c2 s = .low :=
  if_pos hlow

theorem toneOf_of_high {s : State} {w : Word} {c2 : Time} (hlow : w < s.cfg.thrLow)
    (hhigh : s.cfg.thrHigh ≤ w ∨ (s.cfg.htimeEn = true ∧ highTiming s.par s.prevC2 c2 w = true)) :
    toneOf w c2 s = .high :=
  (if_neg (BitVec.not_le.mpr hlow)).trans (if_pos hhigh)

theorem toneOf_of_none {s : State} {w : Word} {c2 : Time} (hlow : w < s.cfg.thrLow) (hhigh : w < s.cfg.thrHigh)
    (htime : ¬ (s.cfg.htimeEn = true ∧ highTiming s.par s.prevC2 c2 w = true)) : toneOf w c2 s = .none :=
  (if_neg (BitVec.not_le.mpr hlow)).trans (if_neg (not_or.mpr ⟨BitVec.not_le.mpr hhigh, htime⟩))

theorem classify_of_toneOf {s : State} {w : Word} {c2 : Time} {tone : Tone} (h : toneOf w c2 s = tone) :
    classify w c2 s = assemble tone w c2 { s with prevC2 := some c2 } := by
  rw [classify, h]

/-- The default HIGH_TIMING is constantly false (R8, R352). -/
theorem highTiming_default (prev : Option Time) (c2 : Time) (w : Word) : highTiming Config.params prev c2 w = false :=
  decide_eq_false List.not_mem_nil

/-- Settles O34: `classify` runs the assembler on the tone, which its three clauses read off the width. -/
theorem classifyByWidth : Obligations.ClassifyByWidth :=
  ⟨fun _ _ c2 hlow => classify_of_toneOf (toneOf_of_low c2 hlow),
    fun _ _ _ hlow hhigh => classify_of_toneOf (toneOf_of_high hlow hhigh),
    fun _ _ _ hlow hhigh htime => classify_of_toneOf (toneOf_of_none hlow hhigh htime),
    highTiming_default⟩

/-! `pushBit` -/

theorem shiftIn_false (acc : Byte) : shiftIn false acc = acc >>> 1 := BitVec.or_zero

theorem shiftIn_true (acc : Byte) : shiftIn true acc = (acc >>> 1) ||| 0x80#8 := rfl

theorem pushBit_of_lt {s : State} (bit : Bool) (c2 : Time) (h : s.asm.shift < 7#4) :
    pushBit bit c2 s =
      .ok (setAsm ⟨s.asm.asm, shiftIn bit s.asm.acc, s.asm.shift + 1, s.asm.cycle⟩ s) :=
  if_neg (by bv_omega)

theorem pushBit_eighth {s : State} (bit : Bool) (c2 : Time) (h : s.asm.shift = 7#4) :
    pushBit bit c2 s = frame (shiftIn bit s.asm.acc) c2 (completeByte (shiftIn bit s.asm.acc) c2 s) :=
  if_pos (by rw [h]; rfl)

/-! The cells -/

section
variable {s : State} (w : Word) (c2 : Time)

theorem assemble_none : assemble .none w c2 s = .ok (raiseFault (.invalidPulse w) c2 s) := by
  unfold assemble
  cases s.asm.asm <;> rfl

theorem assemble_waiting_low (h : s.asm.asm = .waiting) : assemble .low w c2 s = .ok s := by
  simp only [assemble, h]

theorem assemble_waiting_high (h : s.asm.asm = .waiting) :
    assemble .high w c2 s = .ok (setAsm { s.asm with asm := .ready } s) := by
  simp only [assemble, h]

theorem assemble_ready_low (h : s.asm.asm = .ready) :
    assemble .low w c2 s = .ok (setAsm ⟨.data, 0#8, 0#4, 0#2⟩ s) := by
  simp only [assemble, h]

theorem assemble_ready_high (h : s.asm.asm = .ready) : assemble .high w c2 s = .ok s := by
  simp only [assemble, h]

theorem assemble_data_low (h : s.asm.asm = .data) :
    assemble .low w c2 s = pushBit false c2 (setAsm ⟨.data, s.asm.acc, s.asm.shift, 0#2⟩ s) := by
  simp only [assemble, h]

theorem assemble_data_firstHigh (h : s.asm.asm = .data) (hc : s.asm.cycle = 0#2) :
    assemble .high w c2 s = .ok (setAsm { s.asm with cycle := 1#2 } s) := by
  simp only [assemble, h, hc]
  rfl

theorem assemble_data_secondHigh (h : s.asm.asm = .data) (hc : s.asm.cycle = 1#2) :
    assemble .high w c2 s = pushBit true c2 (setAsm ⟨.data, s.asm.acc, s.asm.shift, 0#2⟩ s) := by
  simp only [assemble, h, hc]
  rfl

theorem assemble_after_low (h : s.asm.asm = .after) : assemble .low w c2 s = .ok (raiseFault .framingFault c2 s) := by
  simp only [assemble, h]

theorem assemble_after_firstHigh (h : s.asm.asm = .after) (hc : s.asm.cycle = 0#2) :
    assemble .high w c2 s = .ok (setAsm { s.asm with cycle := 1#2 } s) := by
  simp only [assemble, h, hc]
  rfl

theorem assemble_after_secondHigh (h : s.asm.asm = .after) (hc : s.asm.cycle = 1#2) :
    assemble .high w c2 s = .ok (setAsm { s.asm with asm := .ready, cycle := 0#2 } s) := by
  simp only [assemble, h, hc]
  rfl

end

/-- Settles O35: the equation of each cell, and in Data the one of `pushBit` below and at the eighth bit. -/
theorem assemblerCells : Obligations.AssemblerCells := by
  intro s w c2
  refine ⟨fun h => ⟨assemble_waiting_low w c2 h, assemble_waiting_high w c2 h⟩,
    fun h => ⟨assemble_ready_low w c2 h, assemble_ready_high w c2 h⟩,
    fun h hshift => ⟨?bitLow, assemble_data_firstHigh w c2 h, fun hc => ?bitHigh⟩,
    fun h => ⟨assemble_after_firstHigh w c2 h, assemble_after_secondHigh w c2 h⟩,
    fun h hshift => ⟨?byteLow, assemble_data_firstHigh w c2 h, fun hc => ?byteHigh⟩,
    assemble_after_low w c2, assemble_none w c2⟩
  case bitLow =>
    rw [assemble_data_low w c2 h, pushBit_of_lt, shiftIn_false]
    · rfl
    · exact hshift
  case bitHigh =>
    rw [assemble_data_secondHigh w c2 h hc, pushBit_of_lt, shiftIn_true]
    · rfl
    · exact hshift
  case byteLow =>
    rw [assemble_data_low w c2 h, pushBit_eighth, shiftIn_false]
    · rfl
    · exact hshift
  case byteHigh =>
    rw [assemble_data_secondHigh w c2 h hc, pushBit_eighth, shiftIn_true]
    · rfl
    · exact hshift

end Sys2Proof.Machine
end

section
/-! SUPPORT. The pulses of a byte (43_assembler.md R390): what `classifyAll` does with a start pulse, with the pulses of
one bit and of a run of bits, and with the two High pulses that lead back to Ready. -/

namespace Sys2Proof.Machine

open Sys2Proof.Safety

/-! Pulses that fit a list of tones -/

/-- The pulses `ps` have, in order, the widths R390 asks for the tones. -/
def FitPulses (c : RegFile) (tones : List Tone) (ps : List (Word × Time)) : Prop :=
  List.Forall₂ (fun tone p => toneFits c tone p.1) tones ps

/-- The tones of one bit: a Low pulse for 0, two High pulses for 1 (R390). -/
def bitTones (bit : Bool) : List Tone := if bit then [.high, .high] else [.low]

theorem byteTones_eq (b : Byte) :
    byteTones b = .low :: (((List.range 7).map b.getLsbD).flatMap bitTones ++
      (bitTones (b.getLsbD 7) ++ [.high, .high])) := by
  simp only [byteTones, List.range_succ (n := 7), List.flatMap_append, List.flatMap_map, List.flatMap_singleton,
    List.cons_append, List.append_assoc, bitTones]

/-- A pulse that fits a tone is classified as that tone. -/
theorem classify_of_fits {s : State} {tone : Tone} {w : Word} (c2 : Time) (h : toneFits s.cfg tone w) :
    classify w c2 s = assemble tone w c2 { s with prevC2 := some c2 } := by
  cases tone with
  | low => exact classify_of_toneOf (toneOf_of_low c2 h)
  | high => exact classify_of_toneOf (toneOf_of_high h.2 (.inl h.1))
  | none => exact h.elim

theorem classifyAll_cons (w : Word) (c2 : Time) (ps : List (Word × Time)) (s : State) :
    classifyAll ((w, c2) :: ps) s = classify w c2 s >>= classifyAll ps := by
  rw [classifyAll]
  cases classify w c2 s <;> rfl

/-- `s` with PREV_C2 and the assembler's registers given: all that the pulses of a byte change before its eighth bit. -/
def State.withAsm (prev : Option Time) (a : BitAsm) (s : State) : State := { s with prevC2 := prev, asm := a }

@[simp] theorem withAsm_asm (prev : Option Time) (a : BitAsm) (s : State) : (s.withAsm prev a).asm = a := rfl

@[simp] theorem setAsm_withAsm (prev : Option Time) (a a' : BitAsm) (s : State) :
    setAsm a' (s.withAsm prev a) = s.withAsm prev a' := rfl

section
variable {s : State} {prev : Option Time} {acc : Byte} {shift : BitVec 4} {tones : List Tone} {ps : List (Word × Time)}

/-- The first of a list of fitting pulses goes to the assembler as its tone. -/
theorem FitPulses.uncons {tone : Tone} (a : BitAsm) (h : FitPulses s.cfg (tone :: tones) ps) :
    ∃ w c2 qs, ps = (w, c2) :: qs ∧ FitPulses s.cfg tones qs ∧
      classifyAll ps (s.withAsm prev a) = assemble tone w c2 (s.withAsm (some c2) a) >>= classifyAll qs := by
  obtain ⟨⟨w, c2⟩, qs, hw, hqs, rfl⟩ := List.forall₂_cons_left_iff.mp h
  refine ⟨w, c2, qs, rfl, hqs, ?_⟩
  rw [classifyAll_cons, classify_of_fits (s := s.withAsm prev a) c2 hw]
  rfl

/-! The parts of a byte -/

/-- The start pulse (R362). -/
theorem classifyAll_start (hs : s.asm.asm = .ready) (h : FitPulses s.cfg (.low :: tones) ps) :
    ∃ prev qs, qs <:+ ps ∧ FitPulses s.cfg tones qs ∧
      classifyAll ps s = classifyAll qs (s.withAsm prev ⟨.data, 0#8, 0#4, 0#2⟩) := by
  obtain ⟨w, c2, qs, rfl, hqs, hrun⟩ := h.uncons (prev := s.prevC2) s.asm
  rw [assemble_ready_low (s := s.withAsm (some c2) s.asm) w c2 hs] at hrun
  exact ⟨some c2, qs, List.suffix_cons _ _, hqs, hrun⟩

/-- The pulses of one bit run `pushBit` on it, at the time of the last of them (R370, R371). -/
theorem classifyAll_bit {bit : Bool} (h : FitPulses s.cfg (bitTones bit ++ tones) ps) :
    ∃ w c2 qs, (w, c2) :: qs <:+ ps ∧ FitPulses s.cfg tones qs ∧
      classifyAll ps (s.withAsm prev ⟨.data, acc, shift, 0#2⟩) =
        pushBit bit c2 (s.withAsm (some c2) ⟨.data, acc, shift, 0#2⟩) >>= classifyAll qs := by
  cases bit with
  | false =>
    obtain ⟨w, c2, qs, rfl, hqs, hrun⟩ := h.uncons (prev := prev) ⟨.data, acc, shift, 0#2⟩
    rw [assemble_data_low w c2 rfl] at hrun
    exact ⟨w, c2, qs, List.suffix_rfl, hqs, hrun⟩
  | true =>
    obtain ⟨w₁, c₁, rest, rfl, hrest, hfirst⟩ := h.uncons (prev := prev) ⟨.data, acc, shift, 0#2⟩
    obtain ⟨w, c2, qs, rfl, hqs, hsecond⟩ := hrest.uncons (prev := some c₁) ⟨.data, acc, shift, 1#2⟩
    rw [assemble_data_firstHigh w₁ c₁ rfl rfl] at hfirst
    rw [assemble_data_secondHigh w c2 rfl rfl] at hsecond
    exact ⟨w, c2, qs, List.suffix_cons _ _, hqs, hfirst.trans hsecond⟩

/-- The pulses of bits that do not complete a byte shift them in, one after another. -/
theorem classifyAll_bits {bits : List Bool} {shift' : BitVec 4} (hcount : shift.toNat + bits.length = shift'.toNat)
    (hroom : shift'.toNat ≤ 7) (h : FitPulses s.cfg (bits.flatMap bitTones ++ tones) ps) :
    ∃ prev' qs, qs <:+ ps ∧ FitPulses s.cfg tones qs ∧
      classifyAll ps (s.withAsm prev ⟨.data, acc, shift, 0#2⟩) =
        classifyAll qs (s.withAsm prev' ⟨.data, bits.foldl (fun a bit => shiftIn bit a) acc, shift', 0#2⟩) := by
  induction bits generalizing prev acc shift ps with
  | nil =>
    cases BitVec.eq_of_toNat_eq hcount
    exact ⟨prev, ps, List.suffix_rfl, h, rfl⟩
  | cons bit bits ih =>
    rw [List.flatMap_cons, List.append_assoc] at h
    rw [List.length_cons] at hcount
    have hlt : shift < 7#4 := by bv_omega
    have hcount' : (shift + 1).toNat + bits.length = shift'.toNat := by bv_omega
    obtain ⟨w, c2, rest, hrest, hfit, hbit⟩ := classifyAll_bit (prev := prev) (acc := acc) (shift := shift) h
    rw [pushBit_of_lt bit c2 hlt] at hbit
    obtain ⟨prev', qs, hqs, hfit', hbits⟩ := ih (prev := some c2) (acc := shiftIn bit acc) hcount' hfit
    exact ⟨prev', qs, hqs.trans ((List.suffix_cons _ _).trans hrest), hfit', hbit.trans hbits⟩

/-- The two High pulses after a byte lead back to Ready (R381). -/
theorem classifyAll_stop (hs : s.asm = ⟨.after, acc, 0#4, 0#2⟩) (h : FitPulses s.cfg [.high, .high] ps) :
    ∃ prev, classifyAll ps s = .ok (s.withAsm prev ⟨.ready, acc, 0#4, 0#2⟩) := by
  have heta : s = s.withAsm s.prevC2 ⟨.after, acc, 0#4, 0#2⟩ := by rw [← hs]; rfl
  obtain ⟨w₁, c₁, rest, rfl, hrest, hfirst⟩ := h.uncons (prev := s.prevC2) ⟨.after, acc, 0#4, 0#2⟩
  obtain ⟨w, c2, qs, rfl, hqs, hsecond⟩ := hrest.uncons (prev := some c₁) ⟨.after, acc, 0#4, 1#2⟩
  rw [← heta, assemble_after_firstHigh w₁ c₁ rfl rfl] at hfirst
  rw [assemble_after_secondHigh w c2 rfl rfl] at hsecond
  cases List.forall₂_nil_left_iff.mp hqs
  exact ⟨some c2, hfirst.trans hsecond⟩

end

/-! The byte -/

theorem getElem_shiftIn (bit : Bool) (acc : Byte) {i : Nat} (hi : i < 8) :
    (shiftIn bit acc)[i] = if h : i = 7 then bit else acc[i + 1] := by
  cases bit <;> interval_cases i <;> simp [shiftIn]

/-- Eight shifts put the bits of a byte, the least significant first, in their places, whatever ACC held. -/
theorem shiftIn_all (b acc : Byte) :
    shiftIn (b.getLsbD 7) (((List.range 7).map b.getLsbD).foldl (fun a bit => shiftIn bit a) acc) = b := by
  refine BitVec.eq_of_getElem_eq fun i hi => ?_
  interval_cases i <;> simp [List.range_succ, getElem_shiftIn]

/-- The eighth bit of a byte emits it at the time of its pulse, then at most one framer event, and leaves After. -/
theorem pushBit_completes {s : State} {bit : Bool} {acc b : Byte} (c2 : Time) (hb : shiftIn bit acc = b)
    (hblk : s.blk.ok s.par.crc) :
    ∃ t r, pushBit bit c2 (s.withAsm (some c2) ⟨.data, acc, 7#4, 0#2⟩) = .ok t ∧ t.cfg = s.cfg ∧
      t.asm = ⟨.after, b, 0#4, 0#2⟩ ∧ atMostOne isFramerEvent r ∧ t.output = s.output ++ .byte b c2 :: r := by
  rw [pushBit_eighth bit c2 rfl, withAsm_asm, hb]
  obtain ⟨t, ht⟩ := frame_answers (b := b) (s := completeByte b c2 (s.withAsm (some c2) _)) c2 hblk
  have honly := frame_framerOnly ht
  obtain ⟨r, hr, hout⟩ := frame_emits ht
  refine ⟨t, r, ht, by rw [honly]; rfl, by rw [honly]; rfl, hr, ?_⟩
  rw [hout, completeByte_output, List.append_assoc, List.singleton_append]
  rfl

/-- Settles O36: the start pulse, seven bits, the bit that completes the byte, and the two High pulses, in turn. -/
theorem byteRoundTrip : Obligations.ByteRoundTrip := by
  intro s b ps hready hblk hfit
  rw [byteTones_eq] at hfit
  obtain ⟨prev₁, ps₁, hps₁, hfit₁, hstart⟩ := classifyAll_start hready hfit
  obtain ⟨prev₂, ps₂, hps₂, hfit₂, hbits⟩ :=
    classifyAll_bits (prev := prev₁) (acc := 0#8) (shift := 0#4) (shift' := 7#4) rfl le_rfl hfit₁
  obtain ⟨w, c2, ps₃, hps₃, hfit₃, hlast⟩ := classifyAll_bit (prev := prev₂) (shift := 7#4) hfit₂
  obtain ⟨t, r, hpush, hcfg, hasm, hr, hout⟩ := pushBit_completes c2 (shiftIn_all b 0#8) hblk
  obtain ⟨prev, hstop⟩ := classifyAll_stop hasm (hcfg ▸ hfit₃)
  refine ⟨t.withAsm prev ⟨.ready, b, 0#4, 0#2⟩, c2, r, ?run, ?time, rfl, hr, hout⟩
  case run =>
    rw [hstart, hbits, hlast, hpush]
    exact hstop
  case time =>
    obtain ⟨before, rfl⟩ := (hps₃.trans hps₂).trans hps₁
    simp [← hfit₃.length_eq]

end Sys2Proof.Machine
end

section
/-! SUPPORT. An equation per framer state and case (44_framer.md R422 to R447): what `frame` answers for one byte. -/

namespace Sys2Proof.Machine

theorem FrState.ne_of_inHeader {fr : FrState} (h : fr.inHeader = true) : fr ≠ .data ∧ fr ≠ .pcrc := by
  cases fr <;> simp_all [FrState.inHeader]

/-- In a header state the byte enters the header CRC first (R440). -/
theorem frame_of_inHeader {s : State} (b : Byte) (c2 : Time) (h : s.blk.fr.inHeader = true) :
    frame b c2 s = frameByState b c2 (setBlk { s.blk with hcrc := crcUpdate s.par.crc s.blk.hcrc b } s) := by
  rw [frame, coverHeader, if_pos h]

theorem frame_of_not_inHeader {s : State} (b : Byte) (c2 : Time) (h : s.blk.fr.inHeader = false) :
    frame b c2 s = frameByState b c2 s := by
  rw [frame, coverHeader, h, if_neg Bool.false_ne_true]

/-! HUNT -/

theorem frame_of_hunt_other {s : State} {b : Byte} (c2 : Time) (hfr : s.blk.fr = .hunt) (hb : b ≠ Config.sync) :
    frame b c2 s = .ok s := by
  rw [frame_of_not_inHeader b c2 (by rw [hfr]; rfl)]
  simp only [frameByState, hfr, huntByte, if_pos hb]

/-- The framer right after a sync byte taken at `c2` (R422). -/
def Framer.synced (c : RegFile) (crc : Crc16) (c2 : Time) : Framer :=
  { Framer.reset crc with
    fr := .name
    blkTime := c2
    hcrc := if c.hcrcSync then crcUpdate crc crc.init Config.sync else crc.init }

theorem frame_of_hunt_sync {s : State} (c2 : Time) (hfr : s.blk.fr = .hunt) :
    frame Config.sync c2 s = .ok (setBlk (.synced s.cfg s.par.crc c2) s) := by
  rw [frame_of_not_inHeader _ c2 (by rw [hfr]; rfl)]
  simp only [frameByState, hfr, huntByte, if_neg (not_not_intro (rfl : Config.sync = Config.sync))]
  rfl

/-- Settles O41: one equation for 0x2A and one for any other byte. -/
theorem huntForSync : Obligations.HuntForSync :=
  ⟨fun _ _ c2 hfr hb => frame_of_hunt_other c2 hfr hb, fun _ c2 hfr => frame_of_hunt_sync c2 hfr⟩

/-! NAME -/

theorem frame_of_name {s : State} (b : Byte) (c2 : Time) (hfr : s.blk.fr = .name) :
    frame b c2 s = .ok (setBlk (Framer.nameByte s.cfg.nameTerm10 b
      { s.blk with hcrc := crcUpdate s.par.crc s.blk.hcrc b }) s) := by
  rw [frame_of_inHeader b c2 (by rw [hfr]; rfl)]
  simp only [frameByState, setBlk_blk, hfr]
  rfl

theorem frame_of_name_end {s : State} (c2 : Time) (hfr : s.blk.fr = .name) :
    frame 0#8 c2 s = .ok (setBlk { s.blk with
      fr := .load, frCnt := 0#9, hcrc := crcUpdate s.par.crc s.blk.hcrc 0#8 } s) := by
  rw [frame_of_name 0#8 c2 hfr, Framer.nameByte, if_pos rfl]

theorem frame_of_name_more {s : State} {b : Byte} (c2 : Time) (hfr : s.blk.fr = .name) (hb : b ≠ 0#8)
    (hlen : s.blk.name.length + 1 ≠ Config.nameMax) :
    frame b c2 s = .ok (setBlk { s.blk with
      name := s.blk.name ++ [b], hcrc := crcUpdate s.par.crc s.blk.hcrc b } s) := by
  rw [frame_of_name b c2 hfr, Framer.nameByte, if_neg hb, if_neg (by rwa [List.length_append])]

theorem frame_of_name_tenth {s : State} {b : Byte} (c2 : Time) (hfr : s.blk.fr = .name) (hb : b ≠ 0#8)
    (hlen : s.blk.name.length + 1 = Config.nameMax) :
    frame b c2 s = .ok (setBlk { s.blk with
      name := s.blk.name ++ [b], fr := if s.cfg.nameTerm10 then .nameTerm else .load, frCnt := 0#9
      hcrc := crcUpdate s.par.crc s.blk.hcrc b } s) := by
  rw [frame_of_name b c2 hfr, Framer.nameByte, if_neg hb, if_pos (by rwa [List.length_append])]

theorem frame_of_nameTerm {s : State} (b : Byte) (c2 : Time) (hfr : s.blk.fr = .nameTerm) :
    frame b c2 s = .ok (setBlk { s.blk with
      fr := .load, frCnt := 0#9, hcrc := crcUpdate s.par.crc s.blk.hcrc b } s) := by
  rw [frame_of_inHeader b c2 (by rw [hfr]; rfl)]
  simp only [frameByState, setBlk_blk, hfr]
  rfl

/-- Settles O42: one equation per way a name can go on or end. -/
theorem nameField : Obligations.NameField :=
  ⟨fun _ c2 hfr => frame_of_name_end c2 hfr, fun _ _ c2 hfr hb hlen => frame_of_name_more c2 hfr hb hlen,
    fun _ _ c2 hfr hb hlen => frame_of_name_tenth c2 hfr hb hlen, fun _ b c2 hfr => frame_of_nameTerm b c2 hfr⟩

/-! LEN -/

theorem frame_of_len {s : State} (b : Byte) (c2 : Time) (hfr : s.blk.fr = .len) :
    frame b c2 s = .ok (lenByte b c2 (setBlk { s.blk with hcrc := crcUpdate s.par.crc s.blk.hcrc b } s)) := by
  rw [frame_of_inHeader b c2 (by rw [hfr]; rfl)]
  simp only [frameByState, setBlk_blk, hfr]

theorem frame_of_len_first {s : State} (b : Byte) (c2 : Time) (hfr : s.blk.fr = .len) (hcnt : s.blk.frCnt = 0#9) :
    frame b c2 s = .ok (setBlk { s.blk with
      len := orByte s.blk.len b 0, frCnt := 1#9, hcrc := crcUpdate s.par.crc s.blk.hcrc b } s) := by
  rw [frame_of_len b c2 hfr]
  simp [lenByte, hcnt, Framer.leShift, setBlk]

theorem frame_of_len_second {s : State} {l : Half} {b : Byte} (c2 : Time) (hfr : s.blk.fr = .len)
    (hcnt : s.blk.frCnt = 1#9) (hl : l = orByte s.blk.len b 8) (hle : l.toNat ≤ Config.maxPayload) :
    frame b c2 s = .ok (setBlk { s.blk with
      len := l, fr := .flag, frCnt := 0#9, hcrc := crcUpdate s.par.crc s.blk.hcrc b } s) := by
  subst hl
  rw [frame_of_len b c2 hfr]
  simp [lenByte, hcnt, Framer.leShift, setBlk, Nat.not_lt.mpr hle]

theorem frame_of_len_long {s : State} {l : Half} {b : Byte} (c2 : Time) (hfr : s.blk.fr = .len)
    (hcnt : s.blk.frCnt = 1#9) (hl : l = orByte s.blk.len b 8) (hlong : Config.maxPayload < l.toNat) :
    frame b c2 s = .ok (raiseFault (.blockLengthFault l) c2 s) := by
  subst hl
  rw [frame_of_len b c2 hfr]
  simp [lenByte, hcnt, Framer.leShift, setBlk, hlong, raiseFault, recover, abandonBlock, emit]

/-- Settles O38: the low byte, and the high byte with either outcome of the length check. -/
theorem lengthFieldChecked : Obligations.LengthFieldChecked :=
  ⟨fun s b c2 hfr hcnt => by simpa [orByte, setBlk] using frame_of_len_first b c2 hfr hcnt,
    fun _ _ c2 _ hfr hcnt hl hle => frame_of_len_second c2 hfr hcnt hl hle,
    fun _ _ c2 _ hfr hcnt hl hlong => frame_of_len_long c2 hfr hcnt hl hlong, fun _ => rfl⟩

/-! HCRC -/

theorem frame_of_hcrc {s : State} (b : Byte) (c2 : Time) (hfr : s.blk.fr = .hcrc) :
    frame b c2 s = .ok (hcrcByte b c2 s) := by
  rw [frame_of_not_inHeader b c2 (by rw [hfr]; rfl)]
  simp only [frameByState, hfr]

theorem frame_of_hcrc_first {s : State} (b : Byte) (c2 : Time) (hfr : s.blk.fr = .hcrc) (hcnt : s.blk.frCnt = 0#9) :
    frame b c2 s = .ok (setBlk { s.blk with
      hcrcRx := orByte s.blk.hcrcRx b (crcShift s.cfg.crcBe 0), frCnt := 1#9 } s) := by
  rw [frame_of_hcrc b c2 hfr]
  simp [hcrcByte, hcnt]

theorem frame_of_hcrc_match {s : State} {r : Half} {b : Byte} (c2 : Time) (hfr : s.blk.fr = .hcrc)
    (hcnt : s.blk.frCnt = 1#9) (hr : r = orByte s.blk.hcrcRx b (crcShift s.cfg.crcBe 1))
    (hcrc : r = crcFinish s.par.crc s.blk.hcrc) :
    frame b c2 s = .ok (setBlk { s.blk with
      hcrcRx := r, fr := if s.blk.len.toNat > 0 then .data else .pcrc, frCnt := 0#9 } s) := by
  rw [hr] at hcrc ⊢
  rw [frame_of_hcrc b c2 hfr]
  simp [hcrcByte, hcnt, hcrc]

theorem frame_of_hcrc_mismatch {s : State} {r : Half} {b : Byte} (c2 : Time) (hfr : s.blk.fr = .hcrc)
    (hcnt : s.blk.frCnt = 1#9) (hr : r = orByte s.blk.hcrcRx b (crcShift s.cfg.crcBe 1))
    (hcrc : r ≠ crcFinish s.par.crc s.blk.hcrc) :
    frame b c2 s = .ok (raiseFault (.headerCrcFault r (crcFinish s.par.crc s.blk.hcrc)) c2 s) := by
  rw [hr] at hcrc ⊢
  rw [frame_of_hcrc b c2 hfr]
  simp [hcrcByte, hcnt, hcrc, raiseFault, recover, abandonBlock, emit, setBlk]

/-- Settles O39: the first byte, and the second with either outcome of the comparison. -/
theorem headerCrcChecked : Obligations.HeaderCrcChecked :=
  ⟨fun _ b c2 hfr hcnt => frame_of_hcrc_first b c2 hfr hcnt,
    fun _ _ c2 _ hfr hcnt hr hcrc => frame_of_hcrc_match c2 hfr hcnt hr hcrc,
    fun _ _ c2 _ hfr hcnt hr hcrc => frame_of_hcrc_mismatch c2 hfr hcnt hr hcrc, fun _ _ => rfl⟩

/-! DATA -/

/-- A payload byte goes to PBUF at FR_CNT and into the payload CRC; the last one leads to PCRC (R444). -/
theorem frame_of_data {s : State} (b : Byte) (c2 : Time) (hfr : s.blk.fr = .data)
    (hin : s.blk.frCnt.toNat < pbufSize) :
    frame b c2 s = .ok (setBlk { s.blk with
        pcrc := crcUpdate s.par.crc s.blk.pcrc b
        fr := if s.blk.frCnt.toNat + 1 = s.blk.len.toNat then .pcrc else .data
        frCnt := if s.blk.frCnt.toNat + 1 = s.blk.len.toNat then 0#9 else s.blk.frCnt + 1 }
      { s with pbuf := Memory.set s.pbuf s.blk.frCnt.toNat b }) := by
  rw [frame_of_not_inHeader b c2 (by rw [hfr]; rfl)]
  simp only [frameByState, hfr, dataByte, memWrite, if_pos hin]
  split_ifs <;> rfl

/-- Settles O44: the stored byte reads back, by MemRead after MemWrite. -/
theorem payloadByteStored : Obligations.PayloadByteStored := by
  intro s b c2 hwf hfr hlt hle
  have hin : s.blk.frCnt.toNat < pbufSize := hlt.trans_le hle
  have hread := fun a => memRead_memWrite (b := a) hwf (memWrite_eq_some.mpr ⟨hin, rfl⟩) (v := b)
  refine ⟨Memory.set s.pbuf s.blk.frCnt.toNat b, ?_, fun a ha => ?_, frame_of_data b c2 hfr hin⟩
  · rw [hread, if_pos rfl]
  · rw [hread, if_neg ha]

/-! PCRC -/

theorem frame_of_pcrc {s : State} (b : Byte) (c2 : Time) (hfr : s.blk.fr = .pcrc) : frame b c2 s = pcrcByte b c2 s := by
  rw [frame_of_not_inHeader b c2 (by rw [hfr]; rfl)]
  simp only [frameByState, hfr]

theorem frame_of_pcrc_first {s : State} (b : Byte) (c2 : Time) (hfr : s.blk.fr = .pcrc) (hcnt : s.blk.frCnt = 0#9) :
    frame b c2 s = .ok (setBlk { s.blk with
      pcrcRx := orByte s.blk.pcrcRx b (crcShift s.cfg.crcBe 0), frCnt := 1#9 } s) := by
  rw [frame_of_pcrc b c2 hfr]
  simp [pcrcByte, hcnt]

theorem frame_of_pcrc_mismatch {s : State} {r : Half} {b : Byte} (c2 : Time) (hfr : s.blk.fr = .pcrc)
    (hcnt : s.blk.frCnt = 1#9) (hr : r = orByte s.blk.pcrcRx b (crcShift s.cfg.crcBe 1))
    (hcrc : r ≠ crcFinish s.par.crc s.blk.pcrc) :
    frame b c2 s = .ok (raiseFault (.payloadCrcFault r (crcFinish s.par.crc s.blk.pcrc)) c2 s) := by
  rw [hr] at hcrc ⊢
  rw [frame_of_pcrc b c2 hfr]
  simp [pcrcByte, hcnt, hcrc, raiseFault, recover, abandonBlock, emit, setBlk]

/-- The state after a BLOCK event `b` (R447). -/
def blockEmitted (b : Block) (s : State) : State :=
  abandonBlock { emit (.block b) s with blockCount := s.blockCount + 1 }

theorem frame_of_pcrc_match {s : State} {r : Half} {b : Byte} {payload : List Byte} (c2 : Time) (hfr : s.blk.fr = .pcrc)
    (hcnt : s.blk.frCnt = 1#9) (hr : r = orByte s.blk.pcrcRx b (crcShift s.cfg.crcBe 1))
    (hcrc : r = crcFinish s.par.crc s.blk.pcrc) (hpay : memReadFirst s.pbuf s.blk.len.toNat = some payload) :
    frame b c2 s = .ok (blockEmitted (Framer.toBlock { s.blk with pcrcRx := r } payload) s) := by
  rw [hr] at hcrc ⊢
  rw [frame_of_pcrc b c2 hfr]
  simp [pcrcByte, hcnt, hcrc, emitBlock, hpay, blockEmitted, abandonBlock, Framer.toBlock, emit, setBlk]

/-- Settles O40: as for the header CRC, and the BLOCK reads its payload from the first bytes of PBUF. -/
theorem payloadCrcChecked : Obligations.PayloadCrcChecked := by
  refine ⟨fun _ b c2 hfr hcnt => frame_of_pcrc_first b c2 hfr hcnt,
    fun _ _ c2 _ hfr hcnt hr hcrc => frame_of_pcrc_mismatch c2 hfr hcnt hr hcrc,
    fun s b c2 r hfr hcnt hr hcrc hle => ?_, fun _ _ => rfl⟩
  refine ⟨(List.range s.blk.len.toNat).map (Memory.lookup s.pbuf), by simp, fun i hi => ?_,
    frame_of_pcrc_match c2 hfr hcnt hr hcrc (memReadFirst_eq_some.mpr ⟨hle, rfl⟩)⟩
  rw [memRead, if_pos (show i < pbufSize from hi.trans_le hle), List.getElem?_map, List.getElem?_range hi, Option.map_some]

end Sys2Proof.Machine
end

section
/-! SUPPORT. With an odd polynomial every step of the CRC is injective (44_framer.md R425, R426). -/

namespace Sys2Proof.Machine

/-- Bit 0 of a shift tells which bit left the register, when the polynomial has its x^0 term. -/
theorem crcShiftBit_getLsbD_zero {poly : Half} (hpoly : poly.getLsbD 0 = true) (c : Half) :
    (crcShiftBit poly c).getLsbD 0 = c.getLsbD 15 := by
  unfold crcShiftBit
  cases hc : c.getLsbD 15 <;> simp [hpoly]

theorem crcShiftBit_injective {poly : Half} (hpoly : poly.getLsbD 0 = true) :
    Function.Injective (crcShiftBit poly) := by
  intro c d h
  have htop : c.getLsbD 15 = d.getLsbD 15 := by
    rw [← crcShiftBit_getLsbD_zero hpoly, h, crcShiftBit_getLsbD_zero hpoly]
  have hshift : c <<< 1 = d <<< 1 := by
    unfold crcShiftBit at h
    rw [htop] at h
    split at h
    · exact (BitVec.xor_left_inj _).mp h
    · exact h
  refine BitVec.eq_of_getLsbD_eq fun i hi => ?_
  by_cases hlast : i = 15
  · rw [hlast, htop]
  · have hbit := congrArg (·.getLsbD (i + 1)) hshift
    simpa [show i + 1 < 16 by omega, BitVec.getLsbD_eq_getElem hi] using hbit

theorem crcShiftBits_injective {poly : Half} (hpoly : poly.getLsbD 0 = true) (k : Nat) :
    Function.Injective (crcShiftBits poly k) := by
  induction k with
  | zero => exact Function.injective_id
  | succ k ih => exact ih.comp (crcShiftBit_injective hpoly)

theorem crcByteIn_injective (p : Crc16) : Function.Injective (crcByteIn p) := by
  intro b b' h
  unfold crcByteIn at h
  split at h
  · rw [← BitVec.reverse_reverse_eq (x := b), h, BitVec.reverse_reverse_eq]
  · exact h

/-- A byte in the upper half of the register, where crcUpdate adds it. -/
theorem setWidth_shiftLeft_injective : Function.Injective fun b : Byte => b.setWidth 16 <<< 8 := by
  intro b b' h
  refine BitVec.eq_of_getLsbD_eq fun i hi => ?_
  have hbit := congrArg (·.getLsbD (i + 8)) h
  simpa [show i + 8 < 16 by omega, hi] using hbit

theorem crcUpdate_injective {p : Crc16} (hpoly : p.poly.getLsbD 0 = true) (b : Byte) :
    Function.Injective fun c => crcUpdate p c b := by
  intro c c' h
  exact (BitVec.xor_left_inj _).mp (crcShiftBits_injective hpoly 8 h)

theorem crcUpdate_byte_injective {p : Crc16} (hpoly : p.poly.getLsbD 0 = true) (c : Half) :
    Function.Injective (crcUpdate p c) := by
  intro b b' h
  exact crcByteIn_injective p (setWidth_shiftLeft_injective ((BitVec.xor_right_inj _).mp (crcShiftBits_injective hpoly 8 h)))

theorem crcFold_injective {p : Crc16} (hpoly : p.poly.getLsbD 0 = true) (bs : List Byte) :
    Function.Injective fun c => crcFold p c bs := by
  induction bs with
  | nil => exact Function.injective_id
  | cons b bs ih => exact ih.comp (crcUpdate_injective hpoly b)

theorem crcFinish_injective (p : Crc16) : Function.Injective (crcFinish p) := by
  intro c c' h
  have hreg := (BitVec.xor_left_inj _).mp h
  split at hreg
  · rw [← BitVec.reverse_reverse_eq (x := c), hreg, BitVec.reverse_reverse_eq]
  · exact hreg

theorem crcFold_append (p : Crc16) (c : Half) (xs ys : List Byte) :
    crcFold p c (xs ++ ys) = crcFold p (crcFold p c xs) ys := List.foldl_append

/-- Settles O48: the register differs after the changed byte, and every later step keeps it so. -/
theorem crcSeesByteChange : Obligations.CrcSeesByteChange := by
  intro p front back b b' hpoly hne h
  have hfold := crcFinish_injective p h
  rw [crcFold_append, crcFold_append] at hfold
  exact hne (crcUpdate_byte_injective hpoly _ (crcFold_injective hpoly back hfold))

end Sys2Proof.Machine
end

section
/-! SUPPORT. The payload CRC register is the CRC of the written bytes of PBUF (44_framer.md R444, R449), so a BLOCK has
the CRC of its payload (R447, R456): unit by unit, both at once. -/

namespace Sys2Proof.Safety

open Sys2Proof.Machine

/-! The relation -/

/-- What R456 says of the payload of a BLOCK. -/
def BlockChecked (crc : Crc16) (b : Block) : Prop :=
  b.payload.length = b.length.toNat ∧ b.length.toNat ≤ 256 ∧ b.pcrc = crcOf crc b.payload

/-- `t` meets the payload invariant, under the parameters of `s`, and every BLOCK emitted since `s` is checked. -/
structure PayloadKept (s t : State) : Prop where
  par    : t.par = s.par
  events : ∃ es, t.output = s.output ++ es ∧ ∀ b, .block b ∈ es → BlockChecked s.par.crc b
  inv    : PayloadInv t

theorem PayloadKept.trans {s u t : State} (h : PayloadKept s u) (h' : PayloadKept u t) : PayloadKept s t := by
  obtain ⟨es, ho, hes⟩ := h.events
  obtain ⟨es', ho', hes'⟩ := h'.events
  rw [h.par] at hes'
  refine ⟨h'.par.trans h.par, ⟨es ++ es', by rw [ho', ho, List.append_assoc], fun b hb => ?_⟩, h'.inv⟩
  exact (List.mem_append.mp hb).elim (hes b) (hes' b)

theorem PayloadKept.of_silent {s t : State} (hpar : t.par = s.par) (ho : t.output = s.output) (hinv : PayloadInv t) :
    PayloadKept s t :=
  ⟨hpar, ⟨[], by rw [ho, List.append_nil], fun _ hb => absurd hb List.not_mem_nil⟩, hinv⟩

theorem PayloadKept.of_event {s t : State} {e : Event} (hpar : t.par = s.par) (ho : t.output = s.output ++ [e])
    (he : isBlock e = false) (hinv : PayloadInv t) : PayloadKept s t := by
  refine ⟨hpar, ⟨[e], ho, fun b hb => ?_⟩, hinv⟩
  cases List.mem_singleton.mp hb
  cases he

theorem PayloadInv.congr {s t : State} (h : PayloadInv s) (hpar : t.par = s.par) (hpbuf : t.pbuf = s.pbuf)
    (hw : written t.blk = written s.blk) (hp : t.blk.pcrc = s.blk.pcrc) : PayloadInv t := by
  rw [PayloadInv, hpar, hpbuf, hw, hp]
  exact h

/-- With no byte written the register holds its initial value (R449). -/
theorem payloadInv_of_unwritten {s : State} (hwf : Memory.wf s.pbuf = true) (hw : written s.blk = 0)
    (hp : s.blk.pcrc = s.par.crc.init) : PayloadInv s := by
  refine ⟨hwf, ?_⟩
  rw [hw, hp]
  rfl

/-- A unit that changes nothing after the detector and emits no BLOCK. -/
theorem PayloadInv.after_quiet {s t : State} (h : PayloadInv s) (hq : Quiet s t) (hpar : t.par = s.par) :
    PayloadKept s t := by
  obtain ⟨hsame, es, ho, hes⟩ := hq
  have hblk := blk_of_downstream hsame
  have hpbuf : t.pbuf = s.pbuf := congrArg (·.2.2.2.1) hsame
  exact ⟨hpar, ⟨es, ho, fun b hb => nomatch (hes _ hb).2⟩, h.congr hpar hpbuf (by rw [hblk]) (by rw [hblk])⟩

theorem PayloadInv.after_setBlk {s : State} {f : Framer} (h : PayloadInv s) (hw : written f = written s.blk)
    (hp : f.pcrc = s.blk.pcrc) : PayloadKept s (setBlk f s) :=
  .of_silent rfl rfl (h.congr rfl rfl hw hp)

/-- Taking a fault keeps the framer or clears the block (R600). -/
theorem PayloadInv.after_raiseFault {s : State} (h : PayloadInv s) (k : FaultKind) (c2 : Time) :
    PayloadKept s (raiseFault k c2 s) := by
  refine .of_event (raiseFault_par k c2 s) (raiseFault_output k c2 s) rfl ?_
  cases k with
  | invalidPulse => exact h.congr rfl rfl rfl rfl
  | framingFault | blockLengthFault | headerCrcFault | payloadCrcFault => exact payloadInv_of_unwritten h.1 rfl rfl

/-! The framer -/

theorem PayloadInv.after_coverHeader {s : State} (h : PayloadInv s) (b : Byte) : PayloadKept s (coverHeader b s) := by
  have hw := written_coverHeader b s
  unfold coverHeader at hw ⊢
  split
  · exact h.after_setBlk (by rwa [if_pos ‹_›] at hw) rfl
  · exact .of_silent rfl rfl h

theorem PayloadInv.after_huntByte {s : State} (h : PayloadInv s) (b : Byte) (c2 : Time) :
    PayloadKept s (huntByte b c2 s) := by
  unfold huntByte
  split
  · exact .of_silent rfl rfl h
  · exact .of_silent rfl rfl (payloadInv_of_unwritten h.1 rfl rfl)

/-- A byte of the block header: no byte of PBUF is written before it or after it. -/
theorem PayloadInv.after_headerByte {s : State} {f : Framer} (h : PayloadInv s) (hd : s.blk.fr ≠ .data)
    (hp : s.blk.fr ≠ .pcrc) (hw : written f = 0) (hpcrc : f.pcrc = s.blk.pcrc) : PayloadKept s (setBlk f s) :=
  h.after_setBlk (by rw [hw, written_eq_zero hd hp]) hpcrc

theorem advance_pcrc (k : BitVec 9) (n : FrState) (f : Framer) : (f.advance k n).pcrc = f.pcrc := by
  unfold Framer.advance
  split <;> rfl

theorem nameByte_pcrc (term10 : Bool) (b : Byte) (f : Framer) : (f.nameByte term10 b).pcrc = f.pcrc := by
  unfold Framer.nameByte
  split_ifs <;> rfl

theorem PayloadInv.after_lenByte {s : State} (h : PayloadInv s) (hfr : s.blk.fr = .len) (b : Byte) (c2 : Time) :
    PayloadKept s (lenByte b c2 s) := by
  have hset : ∀ l n, PayloadKept s (setBlk { s.blk with len := l, frCnt := n } s) := fun l n =>
    h.after_setBlk (by simp [written, hfr]) rfl
  simp only [lenByte]
  split_ifs
  · exact (hset _ _).trans ((hset _ _).inv.after_raiseFault _ c2)
  · exact h.after_setBlk (by simp [written, hfr]) rfl
  · exact hset _ _

/-- The header CRC trailer leads to DATA with no byte written, or to PCRC when the payload is empty (R441). -/
theorem PayloadInv.after_hcrcByte {s : State} (h : PayloadInv s) (hfr : s.blk.fr = .hcrc) (b : Byte) (c2 : Time) :
    PayloadKept s (hcrcByte b c2 s) := by
  have hset : ∀ r n, PayloadKept s (setBlk { s.blk with hcrcRx := r, frCnt := n } s) := fun r n =>
    h.after_setBlk (by simp [written, hfr]) rfl
  simp only [hcrcByte]
  split_ifs with hend hcrc hlen
  · exact (hset _ _).trans ((hset _ _).inv.after_raiseFault _ c2)
  · exact h.after_setBlk (by simp [written, hfr]) rfl
  · refine h.after_setBlk ?_ rfl
    simpa [written, hfr] using hlen
  · exact hset _ _

/-- The first bytes of PBUF after the next one is stored. -/
theorem map_lookup_range_set {m : Memory} (hm : Memory.wf m = true) (n : Nat) (v : Byte) :
    (List.range (n + 1)).map (Memory.lookup (Memory.set m n v)) = (List.range n).map (Memory.lookup m) ++ [v] := by
  rw [List.range_succ, List.map_append, List.map_singleton, Memory.lookup_set hm, if_pos rfl]
  congr 1
  refine List.map_congr_left fun a ha => ?_
  rw [Memory.lookup_set hm, if_neg (List.mem_range.mp ha).ne]

/-- A payload byte joins the written bytes and the register (R444). -/
theorem PayloadInv.after_dataByte {b : Byte} {s t : State} (h : PayloadInv s) (hfr : s.blk.fr = .data)
    (ht : dataByte b s = .ok t) : PayloadKept s t := by
  obtain ⟨hwf, hcrc⟩ := h
  simp only [written, hfr] at hcrc
  simp only [dataByte] at ht
  split at ht
  · cases ht
  rename_i m hm
  obtain ⟨hlt, rfl⟩ := memWrite_eq_some.mp hm
  have hstored : crcUpdate s.par.crc s.blk.pcrc b = crcFold s.par.crc s.par.crc.init
      ((List.range (s.blk.frCnt.toNat + 1)).map (Memory.lookup (Memory.set s.pbuf s.blk.frCnt.toNat b))) := by
    rw [map_lookup_range_set hwf, crcFold_append, ← hcrc]
    rfl
  have hinv : ∀ f : Framer, written f = s.blk.frCnt.toNat + 1 → f.pcrc = crcUpdate s.par.crc s.blk.pcrc b →
      PayloadInv (setBlk f { s with pbuf := Memory.set s.pbuf s.blk.frCnt.toNat b }) := fun f hw hp =>
    ⟨Memory.wf_set b hlt hwf, by simp only [setBlk_blk, hw, hp]; exact hstored⟩
  split at ht <;> cases ht
  · exact .of_silent rfl rfl (hinv _ (Eq.symm ‹_›) rfl)
  · refine .of_silent rfl rfl (hinv _ ?_ rfl)
    simp only [written, hfr]
    exact bitVec9_succ hlt le_rfl

/-- A BLOCK whose received CRC is the finished register is checked (R447). -/
theorem PayloadInv.after_emitBlock {s t : State} (h : PayloadInv s) (hfr : s.blk.fr = .pcrc)
    (hcrc : s.blk.pcrcRx = crcFinish s.par.crc s.blk.pcrc) (ht : emitBlock s = .ok t) : PayloadKept s t := by
  obtain ⟨hwf, hreg⟩ := h
  simp only [written, hfr] at hreg
  unfold emitBlock at ht
  split at ht
  · cases ht
  rename_i payload hread
  cases ht
  obtain ⟨hle, rfl⟩ := memReadFirst_eq_some.mp hread
  refine ⟨rfl, ⟨[_], rfl, fun b hb => ?_⟩, payloadInv_of_unwritten hwf rfl rfl⟩
  cases List.mem_singleton.mp hb
  exact ⟨by simp [Framer.toBlock], hle, hcrc.trans (congrArg (crcFinish _) hreg)⟩

theorem PayloadInv.after_pcrcByte {b : Byte} {c2 : Time} {s t : State} (h : PayloadInv s) (hfr : s.blk.fr = .pcrc)
    (ht : pcrcByte b c2 s = .ok t) : PayloadKept s t := by
  have hset : ∀ r n, PayloadKept s (setBlk { s.blk with pcrcRx := r, frCnt := n } s) := fun r n =>
    h.after_setBlk (by simp [written, hfr]) rfl
  simp only [pcrcByte] at ht
  split at ht
  · split at ht
    · cases ht
      exact (hset _ _).trans ((hset _ _).inv.after_raiseFault _ c2)
    · rename_i hcrc
      have hend := hset (orByte s.blk.pcrcRx b (crcShift s.cfg.crcBe s.blk.frCnt.toNat)) 0#9
      exact hend.trans (hend.inv.after_emitBlock hfr (not_not.mp hcrc) ht)
  · cases ht
    exact hset _ _

theorem PayloadInv.after_frameByState {b : Byte} {c2 : Time} {s t : State} (h : PayloadInv s)
    (ht : frameByState b c2 s = .ok t) : PayloadKept s t := by
  have hheader : ∀ {f : Framer}, s.blk.fr.inHeader = true → written f = 0 → f.pcrc = s.blk.pcrc →
      PayloadKept s (setBlk f s) := fun hin =>
    h.after_headerByte (FrState.ne_of_inHeader hin).1 (FrState.ne_of_inHeader hin).2
  have hfield : ∀ {k : BitVec 9} {n : FrState} {f : Framer}, n ≠ .data ∧ n ≠ .pcrc → s.blk.fr.inHeader = true →
      f.fr = s.blk.fr → f.pcrc = s.blk.pcrc → PayloadKept s (setBlk (f.advance k n) s) := fun hn hin hf hp =>
    hheader hin (written_advance hn (hf ▸ FrState.ne_of_inHeader hin)) ((advance_pcrc _ _ _).trans hp)
  unfold frameByState at ht
  cases hfr : s.blk.fr <;> simp only [hfr] at ht hheader hfield
  case data => exact h.after_dataByte hfr ht
  case pcrc => exact h.after_pcrcByte hfr ht
  all_goals cases ht
  case hunt => exact h.after_huntByte b c2
  case name => exact hheader rfl (written_nameByte hfr) (nameByte_pcrc _ _ _)
  case nameTerm => exact hheader rfl rfl rfl
  case load => exact hfield (by decide) rfl hfr rfl
  case exec => exact hfield (by decide) rfl hfr rfl
  case seq => exact hfield (by decide) rfl hfr rfl
  case len => exact h.after_lenByte hfr b c2
  case flag => exact hheader rfl rfl rfl
  case next => exact hfield (by decide) rfl hfr rfl
  case hcrc => exact h.after_hcrcByte hfr b c2

theorem PayloadInv.after_frame {b : Byte} {c2 : Time} {s t : State} (h : PayloadInv s) (ht : frame b c2 s = .ok t) :
    PayloadKept s t :=
  (h.after_coverHeader b).trans ((h.after_coverHeader b).inv.after_frameByState ht)

/-! The assembler and the classifier -/

theorem PayloadInv.after_setAsm {s : State} (h : PayloadInv s) (a : BitAsm) : PayloadKept s (setAsm a s) :=
  .of_silent rfl rfl (h.congr rfl rfl rfl rfl)

theorem PayloadInv.after_emit {s : State} {e : Event} (h : PayloadInv s) (he : isBlock e = false) :
    PayloadKept s (emit e s) :=
  .of_event rfl rfl he (h.congr rfl rfl rfl rfl)

theorem PayloadInv.after_pushBit {bit : Bool} {c2 : Time} {s t : State} (h : PayloadInv s)
    (ht : pushBit bit c2 s = .ok t) : PayloadKept s t := by
  unfold pushBit at ht
  split at ht
  · have hbyte := h.after_emit (e := .byte (shiftIn bit s.asm.acc) c2) rfl
    have hafter := hbyte.trans (hbyte.inv.after_setAsm ⟨.after, shiftIn bit s.asm.acc, 0#4, 0#2⟩)
    exact hafter.trans (hafter.inv.after_frame ht)
  · cases ht
    exact h.after_setAsm _

theorem PayloadInv.after_assemble {tone : Tone} {w : Word} {c2 : Time} {s t : State} (h : PayloadInv s)
    (ht : assemble tone w c2 s = .ok t) : PayloadKept s t := by
  have hpush : ∀ {bit a}, pushBit bit c2 (setAsm a s) = .ok t → PayloadKept s t := fun {_ a} hp =>
    (h.after_setAsm a).trans ((h.after_setAsm a).inv.after_pushBit hp)
  unfold assemble at ht
  split at ht
  case h_1 => cases ht; exact h.after_raiseFault _ c2
  case h_6 => exact hpush ht
  case h_7 =>
    split at ht
    · exact hpush ht
    · cases ht; exact h.after_setAsm _
  case h_8 => cases ht; exact h.after_raiseFault _ c2
  case h_9 => split at ht <;> cases ht <;> exact h.after_setAsm _
  case h_2 | h_5 => cases ht; exact .of_silent rfl rfl h
  case h_3 | h_4 => cases ht; exact h.after_setAsm _

theorem PayloadInv.after_classify {w : Word} {c2 : Time} {s t : State} (h : PayloadInv s)
    (ht : classify w c2 s = .ok t) : PayloadKept s t := by
  have hprev : PayloadKept s { s with prevC2 := some c2 } := .of_silent rfl rfl (h.congr rfl rfl rfl rfl)
  exact hprev.trans (hprev.inv.after_assemble ht)

theorem PayloadInv.after_completePulse {start stop : Word} {peak : Analog} {s t : State} (h : PayloadInv s)
    (ht : completePulse start stop peak s = .ok t) : PayloadKept s t := by
  have hpulse := h.after_emit (e := .pulse start stop peak (accepted s peak)) rfl
  cases hacc : accepted s peak <;> rw [hacc] at hpulse
  · rw [completePulse_of_not_accepted start stop hacc] at ht
    cases ht
    exact hpulse
  · rw [completePulse_of_accepted start stop hacc] at ht
    exact hpulse.trans (hpulse.inv.after_classify ht)

/-! The commands -/

theorem countSample_par (s : State) : (countSample s).par = s.par := by
  unfold countSample
  split <;> rfl

theorem sampleResult_par {d : Word} {s t : State} (h : SampleResult d s t) : t.par = s.par := by
  cases h with
  | rejected _ eq | refused _ _ eq | stopped _ _ _ eq => subst eq; rfl
  | counted u _ _ _ taken eq =>
    have hpar : u.par = s.par := taken.pipelineStep.only.par
    rw [eq, countSample_par, hpar]

/-- A SAMPLE is quiet after the detector, or completes one pulse and is counted. -/
theorem PayloadInv.after_sample {d : Word} {s t : State} (h : PayloadInv s) (ht : SampleResult d s t) :
    PayloadKept s t := by
  have hpar := sampleResult_par ht
  rcases ht.quiet_or_closed with hq | ⟨k, v, u, -, hc, rfl⟩
  · exact h.after_quiet hq hpar
  have hvu : u.par = v.par := (completePulse_step hc.run).1.par
  have hv : PayloadKept s v :=
    h.after_quiet (.of_silent hc.same hc.output) (hvu.symm.trans ((countSample_par u).symm.trans hpar))
  have hu := hv.trans (hv.inv.after_completePulse hc.run)
  exact hu.trans (hu.inv.after_quiet (countSample_quiet u) (countSample_par u))

theorem PayloadInv.after_exec {i : Instr} {s t : State} (h : PayloadInv s) (ht : exec i s = .next t) :
    PayloadKept s t := by
  cases i with
  | nop => rw [exec_nop_next ht]; exact .of_silent rfl rfl h
  | sample d => exact h.after_sample (exec_sample_result ht)
  | endStream =>
    rcases exec_endStream_cases ht with ⟨-, rfl⟩ | ⟨-, rfl⟩
    · exact h.after_emit rfl
    · exact h.after_quiet (endOfStream_quiet _ s) rfl
  | cfgWrite a d =>
    rcases exec_cfgWrite_cases ht with ⟨r, rfl⟩ | ⟨-, -, rfl⟩
    · exact h.after_emit rfl
    · exact .of_silent rfl rfl (h.congr rfl rfl rfl rfl)
  | cfgRead a => rw [exec_cfgRead_next ht]; exact h.after_emit rfl
  | sessionReset =>
    rw [exec_sessionReset_next ht]
    exact .of_silent rfl rfl (payloadInv_of_unwritten rfl rfl rfl)

theorem PayloadInv.after_step {s t : State} (h : PayloadInv s) (ht : step s = .next t) : PayloadKept s t := by
  have htaken : ∀ rest, PayloadKept s { s with input := rest } := fun _ => .of_silent rfl rfl (h.congr rfl rfl rfl rfl)
  cases step_result ht with
  | idle _ eq => subst eq; exact .of_silent rfl rfl h
  | hardwareReset rest _ eq => subst eq; exact .of_silent rfl rfl (payloadInv_of_unwritten rfl rfl rfl)
  | command _ rest _ _ _ run => exact (htaken rest).trans ((htaken rest).inv.after_exec run)
  | malformed _ rest _ _ _ eq => subst eq; exact (htaken rest).trans ((htaken rest).inv.after_emit rfl)

/-- Settles O57: at reset no byte is written, and every unit keeps the register with the written bytes. -/
theorem payloadInvariantKept : Obligations.PayloadInvariantKept :=
  ⟨payloadInv_of_unwritten rfl rfl rfl, fun _ _ h ht => (h.after_step ht).inv⟩

/-- Settles O58: a BLOCK is emitted only when the received CRC is the finished register. -/
theorem blockEventPayloadChecked : Obligations.BlockEventPayloadChecked := by
  intro s t b h ht hmem
  obtain ⟨es, ho, hes⟩ := (h.after_step ht).events
  rw [newEvents_of_append ho] at hmem
  exact hes b hmem

end Sys2Proof.Safety
end

section
/-! SUPPORT. The wire form of a block after its sync byte (44_framer.md R455): a field's bytes determine its value, and
every long enough list of bytes begins with the wire form of some block. -/

namespace Sys2Proof.Machine

open Sys2Proof.Safety

/-! Fields and CRC trailers -/

theorem leBytes_length {w : Nat} (v : BitVec w) (k : Nat) : (leBytes v k).length = k := by
  simp [leBytes]

/-- The little-endian value of the low `k` bytes (R103). -/
theorem ofDigits_leBytes {w : Nat} (v : BitVec w) (k : Nat) :
    Nat.ofDigits (2 ^ 8) ((leBytes v k).map BitVec.toNat) = v.toNat % 2 ^ (8 * k) := by
  induction k with
  | zero => simp [leBytes, Nat.mod_one]
  | succ k ih =>
    have hlast : leBytes v (k + 1) = leBytes v k ++ [v.extractLsb' (8 * k) 8] := by
      simp [leBytes, List.range_succ]
    rw [hlast, List.map_append, Nat.ofDigits_append, ih, List.length_map, leBytes_length, ← pow_mul, Nat.mul_succ,
      Nat.pow_add, Nat.mod_mul]
    simp [Nat.shiftRight_eq_div_pow]

theorem ofDigits_leBytes_full {w k : Nat} (hw : 8 * k = w) (v : BitVec w) :
    Nat.ofDigits (2 ^ 8) ((leBytes v k).map BitVec.toNat) = v.toNat := by
  rw [ofDigits_leBytes, hw, Nat.mod_eq_of_lt v.isLt]

/-- Every list of `k` bytes is a field of `k` bytes. -/
theorem exists_leBytes_eq {w : Nat} {bs : List Byte} (hw : 8 * bs.length = w) :
    ∃ v : BitVec w, leBytes v bs.length = bs := by
  have hdigit : ∀ (xs : List Byte), ∀ d ∈ xs.map BitVec.toNat, d < 2 ^ 8 := by
    intro xs d hd
    obtain ⟨b, -, rfl⟩ := List.mem_map.mp hd
    exact b.isLt
  have hlt := Nat.ofDigits_lt_base_pow_length (by decide) (hdigit bs)
  rw [List.length_map, ← pow_mul, hw] at hlt
  refine ⟨BitVec.ofNat w (Nat.ofDigits (2 ^ 8) (bs.map BitVec.toNat)), ?_⟩
  refine List.map_injective_iff.mpr BitVec.toNat_injective
    (Nat.ofDigits_inj_of_len_eq (b := 2 ^ 8) (by decide) (by simp [leBytes_length]) (hdigit _) (hdigit bs) ?_)
  rw [ofDigits_leBytes_full hw, BitVec.toNat_ofNat, Nat.mod_eq_of_lt hlt]

theorem exists_leBytes_append {w k : Nat} {l : List Byte} (hw : 8 * k = w) (hk : k ≤ l.length) :
    ∃ (v : BitVec w) (rest : List Byte), l = leBytes v k ++ rest ∧ rest.length + k = l.length := by
  have hlen : (l.take k).length = k := List.length_take_of_le hk
  obtain ⟨v, hv⟩ := exists_leBytes_eq (bs := l.take k) (by rw [hlen, hw])
  rw [hlen] at hv
  exact ⟨v, l.drop k, by rw [hv, List.take_append_drop], by rw [List.length_drop]; omega⟩

/-- The two bytes of a CRC trailer in wire order, put back as R446 puts them. -/
theorem crcBytes_eq_pair (be : Bool) (v : Half) :
    ∃ x y : Byte, crcBytes be v = [x, y] ∧ v = orByte (orByte 0#16 x (crcShift be 0)) y (crcShift be 1) := by
  have hjoin : ∀ i < 16, v.getLsbD i =
      (decide (i < 8) && v.getLsbD i || (!decide (i < 8) && (decide (i - 8 < 8) && v.getLsbD (8 + (i - 8))))) := by
    intro i hi
    by_cases h8 : i < 8
    · simp [h8]
    · simp [h8, show i - 8 < 8 by omega, show 8 + (i - 8) = i by omega]
  cases be
  · refine ⟨v.extractLsb' 0 8, v.extractLsb' 8 8, rfl, BitVec.eq_of_getLsbD_eq fun i hi => ?_⟩
    rw [hjoin i hi]
    simp [orByte, crcShift, hi]
  · refine ⟨v.extractLsb' 8 8, v.extractLsb' 0 8, rfl, BitVec.eq_of_getLsbD_eq fun i hi => ?_⟩
    rw [hjoin i hi, Bool.or_comm]
    simp [orByte, crcShift, hi]

theorem exists_crcBytes_append (be : Bool) {l : List Byte} (h : 2 ≤ l.length) :
    ∃ (v : Half) (rest : List Byte), l = crcBytes be v ++ rest ∧ rest.length + 2 = l.length := by
  obtain _ | ⟨x, _ | ⟨y, rest⟩⟩ := l
  · simp at h
  · simp at h
  cases be
  · exact ⟨y ++ x, rest, congrArg₂ (fun lo hi => lo :: hi :: rest) BitVec.extractLsb'_append_eq_right.symm
      BitVec.extractLsb'_append_eq_left.symm, rfl⟩
  · exact ⟨x ++ y, rest, congrArg₂ (fun hi lo => hi :: lo :: rest) BitVec.extractLsb'_append_eq_left.symm
      BitVec.extractLsb'_append_eq_right.symm, rfl⟩

/-! The whole block -/

/-- The header bytes up to the sequence number, with the terminator `te` after the name. -/
def Block.headerFront (te : List Byte) (b : Block) : List Byte :=
  b.name ++ te ++ leBytes b.load 4 ++ leBytes b.exec 4 ++ leBytes b.seq 2

/-- The header bytes after the sync byte. -/
def Block.header (te : List Byte) (b : Block) : List Byte :=
  b.headerFront te ++ leBytes b.length 2 ++ [b.flag] ++ leBytes b.next 4

/-- Everything after the sync byte. -/
def Block.afterSync (be : Bool) (te : List Byte) (b : Block) : List Byte :=
  b.header te ++ crcBytes be b.hcrc ++ b.payload ++ crcBytes be b.pcrc

/-- A name and terminator that the framer can take, and a payload of the declared length: what the wire form of a block
needs to be read back, whatever its length and its CRCs. -/
def Block.Framed (term10 : Bool) (te : List Byte) (b : Block) : Prop :=
  b.name.length ≤ Config.nameMax ∧ 0#8 ∉ b.name ∧ nameEnd term10 b.name te ∧ b.payload.length = b.length.toNat

/-- The terminator that `serialise` writes (R455). -/
def wireEnd (term10 : Bool) (name : List Byte) : List Byte :=
  if name.length < Config.nameMax ∨ term10 = true then [0#8] else []

theorem nameEnd_wireEnd (term10 : Bool) (name : List Byte) : nameEnd term10 name (wireEnd term10 name) := by
  unfold nameEnd wireEnd
  by_cases hlen : name.length < Config.nameMax
  · simp [hlen]
  · cases term10 <;> simp [hlen]

theorem headerCovered_eq (c : RegFile) (b : Block) : headerCovered c b =
    (if c.hcrcSync then [Config.sync] else []) ++ b.header (wireEnd c.nameTerm10 b.name) := rfl

theorem serialise_eq (c : RegFile) (b : Block) :
    serialise c b = Config.sync :: b.afterSync c.crcBe (wireEnd c.nameTerm10 b.name) := rfl

/-- The first eleven bytes hold a name and its end (R430, R431). -/
theorem exists_name_append (term10 : Bool) {l : List Byte} (h : 11 ≤ l.length) :
    ∃ name te rest : List Byte, l = name ++ te ++ rest ∧ name.length ≤ Config.nameMax ∧ 0#8 ∉ name ∧
      nameEnd term10 name te ∧ l.length ≤ rest.length + 11 := by
  by_cases hz : 0#8 ∈ l.take 10
  · obtain ⟨name, more, htake, hnot⟩ := List.eq_append_cons_of_mem hz
    have hten : name.length + (more.length + 1) = 10 := by
      rw [← List.length_cons, ← List.length_append, ← htake, List.length_take_of_le (by omega)]
    have hlt : name.length < Config.nameMax := by simp only [Config.nameMax]; omega
    refine ⟨name, [0#8], more ++ l.drop 10, ?_, hlt.le, hnot, by rw [nameEnd, if_pos hlt], ?_⟩
    · conv_lhs => rw [← List.take_append_drop 10 l, htake]
      simp
    · rw [List.length_append, List.length_drop]; omega
  · have hten : (l.take 10).length = Config.nameMax := List.length_take_of_le (by omega)
    have hfull : ¬ (l.take 10).length < Config.nameMax := by omega
    cases term10
    · refine ⟨l.take 10, [], l.drop 10, by simp, hten.le, hz, by rw [nameEnd, if_neg hfull]; rfl, ?_⟩
      rw [List.length_drop]; omega
    · refine ⟨l.take 10, (l.drop 10).take 1, (l.drop 10).drop 1, ?_, hten.le, hz, ?_, ?_⟩
      · rw [List.append_assoc, List.take_append_drop, List.take_append_drop]
      · rw [nameEnd, if_neg hfull, if_pos rfl, List.length_take_of_le (by rw [List.length_drop]; omega)]
      · rw [List.length_drop, List.length_drop]; omega

/-- A list long enough for the longest payload that a length field can declare begins with the wire form of a block. -/
theorem exists_afterSync_append (be term10 : Bool) {l : List Byte} (h : 2 ^ 16 + 32 ≤ l.length) :
    ∃ (b : Block) (te rest : List Byte), l = b.afterSync be te ++ rest ∧ b.Framed term10 te := by
  obtain ⟨name, te, l₁, rfl, hname, hzero, hend, h₁⟩ := exists_name_append term10 (l := l) (by omega)
  obtain ⟨load, l₂, rfl, h₂⟩ := exists_leBytes_append (w := 32) (k := 4) (l := l₁) rfl (by omega)
  obtain ⟨exec, l₃, rfl, h₃⟩ := exists_leBytes_append (w := 32) (k := 4) (l := l₂) rfl (by omega)
  obtain ⟨seq, l₄, rfl, h₄⟩ := exists_leBytes_append (w := 16) (k := 2) (l := l₃) rfl (by omega)
  obtain ⟨length, l₅, rfl, h₅⟩ := exists_leBytes_append (w := 16) (k := 2) (l := l₄) rfl (by omega)
  obtain ⟨flag, l₆, rfl⟩ := List.exists_cons_of_length_pos (l := l₅) (by omega)
  rw [List.length_cons] at h₅
  obtain ⟨next, l₇, rfl, h₇⟩ := exists_leBytes_append (w := 32) (k := 4) (l := l₆) rfl (by omega)
  obtain ⟨hcrc, l₈, rfl, h₈⟩ := exists_crcBytes_append be (l := l₇) (by omega)
  have hpay : length.toNat ≤ l₈.length := by have := length.isLt; omega
  obtain ⟨pcrc, rest, hrest, -⟩ := exists_crcBytes_append be (l := l₈.drop length.toNat) (by
    have := length.isLt
    rw [List.length_drop]; omega)
  refine ⟨⟨name, load, exec, seq, length, flag, next, hcrc, l₈.take length.toNat, pcrc, 0#33⟩, te, rest, ?_, hname, hzero,
    hend, List.length_take_of_le hpay⟩
  conv_lhs => rw [← List.take_append_drop length.toNat l₈, hrest]
  simp [Block.afterSync, Block.header, Block.headerFront]

end Sys2Proof.Machine
end

section
/-! SUPPORT. What the framer does with the bytes of each part of a block, whatever their times (44_framer.md R422 to R447):
runs without an event, and runs whose last byte brings the first event. -/

namespace Sys2Proof.Machine

open Sys2Proof.Safety

/-! Runs without an event -/

theorem frameAll_append (xs ys : List (Byte × Time)) (s : State) :
    frameAll (xs ++ ys) s = (frameAll xs s).bind (frameAll ys) := by
  induction xs generalizing s with
  | nil => rfl
  | cons x xs ih =>
    obtain ⟨b, c2⟩ := x
    rw [List.cons_append, frameAll, frameAll]
    cases frame b c2 s with
    | error f => rfl
    | ok t => exact ih t

theorem frameAll_append_of_ok {xs : List (Byte × Time)} {s t : State} (h : frameAll xs s = .ok t)
    (ys : List (Byte × Time)) : frameAll (xs ++ ys) s = frameAll ys t := by
  rw [frameAll_append, h]
  rfl

theorem frameAll_singleton (x : Byte × Time) (s : State) : frameAll [x] s = frame x.1 x.2 s := by
  rw [frameAll]
  cases frame x.1 x.2 s <;> rfl

theorem frameAll_output {bs : List (Byte × Time)} {s t : State} (h : frameAll bs s = .ok t) : s.output <+: t.output := by
  induction bs generalizing s with
  | nil => cases h; exact List.prefix_rfl
  | cons x bs ih =>
    rw [← List.singleton_append, frameAll_append, frameAll_singleton] at h
    cases hx : frame x.1 x.2 s with
    | error f => rw [hx] at h; cases h
    | ok u =>
      rw [hx] at h
      obtain ⟨es, -, ho⟩ := frame_emits hx
      exact List.IsPrefix.trans ⟨es, ho.symm⟩ (ih h)

/-- The bytes `bytes`, whatever their times, lead from `s` to `t` without an event. -/
structure Silent (bytes : List Byte) (s t : State) : Prop where
  output : t.output = s.output
  run    : ∀ bs : List (Byte × Time), bs.map Prod.fst = bytes → frameAll bs s = .ok t

theorem Silent.nil (s : State) : Silent [] s s :=
  ⟨rfl, fun bs hbs => by rw [List.map_eq_nil_iff.mp hbs]; rfl⟩

theorem Silent.append {xs ys : List Byte} {s t u : State} (h : Silent xs s t) (h' : Silent ys t u) :
    Silent (xs ++ ys) s u := by
  refine ⟨h'.output.trans h.output, fun bs hbs => ?_⟩
  obtain ⟨bs₁, bs₂, rfl, h₁, h₂⟩ := List.map_eq_append_iff.mp hbs
  rw [frameAll_append_of_ok (h.run bs₁ h₁), h'.run bs₂ h₂]

theorem Silent.single {b : Byte} {s t : State} (h : ∀ c2, frame b c2 s = .ok t) (ho : t.output = s.output) :
    Silent [b] s t := by
  refine ⟨ho, fun bs hbs => ?_⟩
  obtain ⟨x, rfl, rfl⟩ := List.map_eq_singleton_iff.mp hbs
  rw [frameAll_singleton, h]

theorem Silent.cons {b : Byte} {bs : List Byte} {s t u : State} (h : ∀ c2, frame b c2 s = .ok t)
    (ho : t.output = s.output) (h' : Silent bs t u) : Silent (b :: bs) s u :=
  (Silent.single h ho).append h'

/-! Runs to the first event -/

/-- The last of the bytes `bs` brings the first event, `e`, and leads to `t`. -/
def FirstEvent (bs : List (Byte × Time)) (e : Event) (s t : State) : Prop :=
  ∃ init last u, bs = init ++ [last] ∧ frameAll init s = .ok u ∧ u.output = s.output ∧
    frame last.1 last.2 u = .ok t ∧ t.output = s.output ++ [e]

theorem FirstEvent.run {bs : List (Byte × Time)} {e : Event} {s t : State} (h : FirstEvent bs e s t) :
    frameAll bs s = .ok t ∧ t.output = s.output ++ [e] := by
  obtain ⟨init, last, u, rfl, hinit, -, hlast, ho⟩ := h
  exact ⟨by rw [frameAll_append_of_ok hinit, frameAll_singleton, hlast], ho⟩

/-- Once an event is out, no longer run is silent up to its last byte. -/
theorem FirstEvent.eq_of_prefix {bs bs' : List (Byte × Time)} {e e' : Event} {s t t' : State} (h : FirstEvent bs e s t)
    (h' : FirstEvent bs' e' s t') (hpre : bs <+: bs') : bs = bs' ∧ e = e' := by
  obtain ⟨hrun, ho⟩ := h.run
  obtain ⟨hrun', ho'⟩ := h'.run
  obtain ⟨init, last, u, rfl, hinit, hsilent, -, -⟩ := h'
  rcases List.prefix_concat_iff.mp hpre with rfl | ⟨more, rfl⟩
  · rw [hrun] at hrun'
    cases hrun'
    rw [ho] at ho'
    exact ⟨rfl, (List.cons.inj (List.append_cancel_left ho')).1⟩
  · rw [frameAll_append_of_ok hrun] at hinit
    have hle := (frameAll_output hinit).length_le
    rw [ho, hsilent, List.length_append, List.length_singleton] at hle
    omega

/-- The first event of a stream of bytes comes at one place and is one event. -/
theorem FirstEvent.unique {bs bs' l : List (Byte × Time)} {e e' : Event} {s t t' : State} (h : FirstEvent bs e s t)
    (h' : FirstEvent bs' e' s t') (hpre : bs <+: l) (hpre' : bs' <+: l) : bs = bs' ∧ e = e' := by
  rcases List.prefix_or_prefix_of_prefix hpre hpre' with hle | hle
  · exact h.eq_of_prefix h' hle
  · obtain ⟨hbs, he⟩ := h'.eq_of_prefix h hle
    exact ⟨hbs.symm, he.symm⟩

/-- The last of the bytes `bytes`, whatever their times, brings the first event after `s`; the event and the state it
leads to are as `P` says. -/
def EndsWith (bytes : List Byte) (s : State) (P : Event → State → Prop) : Prop :=
  ∀ bs : List (Byte × Time), bs.map Prod.fst = bytes → ∃ e t, P e t ∧ FirstEvent bs e s t

theorem Silent.endsWith {xs ys : List Byte} {s u : State} {P : Event → State → Prop} (h : Silent xs s u)
    (h' : EndsWith ys u P) : EndsWith (xs ++ ys) s P := by
  intro bs hbs
  obtain ⟨bs₁, bs₂, rfl, h₁, h₂⟩ := List.map_eq_append_iff.mp hbs
  obtain ⟨e, t, hP, init, last, v, rfl, hinit, hsilent, hlast, ho⟩ := h' bs₂ h₂
  refine ⟨e, t, hP, bs₁ ++ init, last, v, (List.append_assoc ..).symm, ?_, hsilent.trans h.output, hlast,
    by rw [ho, h.output]⟩
  rw [frameAll_append_of_ok (h.run bs₁ h₁), hinit]

theorem EndsWith.single {b : Byte} {s : State} {P : Event → State → Prop}
    (h : ∀ c2, ∃ e t, frame b c2 s = .ok t ∧ t.output = s.output ++ [e] ∧ P e t) : EndsWith [b] s P := by
  intro bs hbs
  obtain ⟨x, rfl, rfl⟩ := List.map_eq_singleton_iff.mp hbs
  obtain ⟨e, t, hrun, ho, hP⟩ := h x.2
  exact ⟨e, t, hP, [], x, s, rfl, rfl, rfl, hrun, ho⟩

/-- The run brings a FAULT. -/
def EndsInFault (bytes : List Byte) (s : State) : Prop := EndsWith bytes s fun e _ => isFault e = true

theorem EndsInFault.single {b : Byte} {s : State} {k : FaultKind}
    (h : ∀ c2, frame b c2 s = .ok (raiseFault k c2 s)) : EndsInFault [b] s :=
  EndsWith.single fun c2 => ⟨.fault k c2, _, h c2, raiseFault_output k c2 s, rfl⟩

/-! The name -/

/-- Name bytes that do not fill the name buffer (R430). -/
theorem silent_nameBytes {s : State} {name : List Byte} (hfr : s.blk.fr = .name) (hzero : 0#8 ∉ name)
    (hlen : s.blk.name.length + name.length < Config.nameMax) :
    Silent name s (setBlk { s.blk with
      name := s.blk.name ++ name, hcrc := crcFold s.par.crc s.blk.hcrc name } s) := by
  induction name generalizing s with
  | nil => rw [List.append_nil]; exact Silent.nil s
  | cons b name ih =>
    rw [List.length_cons] at hlen
    obtain ⟨hb, hrest⟩ := List.ne_and_not_mem_of_not_mem_cons hzero
    refine Silent.cons (fun c2 => frame_of_name_more c2 hfr hb.symm (by omega)) rfl ?_
    have htail := ih (s := setBlk { s.blk with
      name := s.blk.name ++ [b], hcrc := crcUpdate s.par.crc s.blk.hcrc b } s) hfr hrest
      (by simp only [setBlk_blk, List.length_append, List.length_singleton]; omega)
    simp only [setBlk_blk, List.append_assoc, List.singleton_append] at htail
    exact htail

/-- A name and its terminator lead to LOAD (R430, R431). -/
theorem silent_name {s : State} {name te : List Byte} (hfr : s.blk.fr = .name) (hnil : s.blk.name = [])
    (hlen : name.length ≤ Config.nameMax) (hzero : 0#8 ∉ name) (hend : nameEnd s.cfg.nameTerm10 name te) :
    Silent (name ++ te) s (setBlk { s.blk with
      fr := .load, frCnt := 0#9, name := name, hcrc := crcFold s.par.crc s.blk.hcrc (name ++ te) } s) := by
  unfold nameEnd at hend
  split at hend
  case isTrue hshort =>
    subst hend
    have hname := silent_nameBytes hfr hzero (by rwa [hnil, List.length_nil, Nat.zero_add])
    rw [hnil, List.nil_append] at hname
    rw [crcFold_append]
    exact hname.append (.single (fun c2 => frame_of_name_end c2 hfr) rfl)
  case isFalse hshort =>
    have hten : name.length = Config.nameMax := by omega
    obtain rfl | ⟨front, b, rfl⟩ := List.eq_nil_or_concat' name
    · cases hten
    have hfront : front.length + 1 = Config.nameMax := by simpa using hten
    simp only [List.mem_append, List.mem_singleton, not_or] at hzero
    obtain ⟨hzero, hb⟩ := hzero
    have hname := silent_nameBytes hfr hzero (by rw [hnil, List.length_nil]; omega)
    rw [hnil, List.nil_append] at hname
    have htenth := hname.append (.single (fun c2 => frame_of_name_tenth c2 hfr (Ne.symm hb) hfront) rfl)
    rw [crcFold_append, crcFold_append]
    cases hterm : s.cfg.nameTerm10 <;> simp only [setBlk_cfg, hterm] at hend htenth
    · obtain rfl : te = [] := by simpa using hend
      rw [List.append_nil]
      exact htenth
    · obtain ⟨b', rfl⟩ := List.length_eq_one_iff.mp (by simpa using hend)
      exact htenth.append (.single (fun c2 => frame_of_nameTerm b' c2 rfl) rfl)

/-! The other fields -/

/-- The bytes of a value that a header field accepts, from framer registers `f` (R103). -/
theorem HeaderField.silent {w : Nat} (F : HeaderField w) {s : State} {f : Framer} (v : BitVec w) (hfr : f.fr = F.fr)
    (hcnt : f.frCnt = 0#9) (hzero : F.get f = 0#w) (hne : F.size ≠ 0) (hacc : F.accepts v.toNat) :
    Silent (leBytes v F.size) (setBlk f s)
      (setBlk (F.put f F.nextFr 0#9 v (crcFold s.par.crc f.hcrc (leBytes v F.size))) s) := by
  refine ⟨rfl, fun bs hbs => ?_⟩
  have hlen : bs.length = F.size := by rw [← leBytes_length v F.size, ← hbs, List.length_map]
  have hvalue : Nat.ofDigits (2 ^ 8) (bs.map (·.1.toNat)) = v.toNat := by
    rw [← ofDigits_leBytes_full F.width v, ← hbs, List.map_map]
    rfl
  obtain ⟨v', hv', hrun⟩ := F.frameAll_eq (s := setBlk f s) (bs := bs) (List.ne_nil_of_length_pos (by omega)) hlen hfr
    hcnt hzero (by rwa [hvalue])
  obtain rfl : v' = v := BitVec.eq_of_toNat_eq (hv'.trans hvalue)
  rw [hrun, setBlk_blk, hcnt, hbs]
  rfl

/-- A length above 256 brings BlockLengthFault at its second byte (R435). -/
theorem endsInFault_len {s : State} {l : Half} (hfr : s.blk.fr = .len) (hcnt : s.blk.frCnt = 0#9)
    (hzero : s.blk.len = 0#16) (hlong : Config.maxPayload < l.toNat) : EndsInFault (leBytes l 2) s := by
  obtain ⟨x, y, hxy, hl⟩ := crcBytes_eq_pair false l
  rw [← hzero] at hl
  rw [show leBytes l 2 = [x, y] from hxy]
  exact (Silent.single (fun c2 => frame_of_len_first x c2 hfr hcnt) rfl).endsWith
    (EndsInFault.single fun c2 => frame_of_len_long c2 hfr rfl hl hlong)

/-! The CRC trailers and the payload -/

/-- A header CRC that matches leads to the payload (R441). -/
theorem silent_hcrc {s : State} {v : Half} (hfr : s.blk.fr = .hcrc) (hcnt : s.blk.frCnt = 0#9)
    (hzero : s.blk.hcrcRx = 0#16) (hcrc : v = crcFinish s.par.crc s.blk.hcrc) :
    Silent (crcBytes s.cfg.crcBe v) s (setBlk { s.blk with
      hcrcRx := v, fr := if s.blk.len.toNat > 0 then .data else .pcrc, frCnt := 0#9 } s) := by
  obtain ⟨x, y, hxy, hv⟩ := crcBytes_eq_pair s.cfg.crcBe v
  rw [← hzero] at hv
  rw [hxy]
  exact (Silent.single (fun c2 => frame_of_hcrc_first x c2 hfr hcnt) rfl).append
    (.single (fun c2 => frame_of_hcrc_match c2 hfr rfl hv hcrc) rfl)

/-- Another header CRC brings HeaderCRCFault (R441). -/
theorem endsInFault_hcrc {s : State} {v : Half} (hfr : s.blk.fr = .hcrc) (hcnt : s.blk.frCnt = 0#9)
    (hzero : s.blk.hcrcRx = 0#16) (hcrc : v ≠ crcFinish s.par.crc s.blk.hcrc) :
    EndsInFault (crcBytes s.cfg.crcBe v) s := by
  obtain ⟨x, y, hxy, hv⟩ := crcBytes_eq_pair s.cfg.crcBe v
  rw [← hzero] at hv
  rw [hxy]
  exact (Silent.single (fun c2 => frame_of_hcrc_first x c2 hfr hcnt) rfl).endsWith
    (EndsInFault.single fun c2 => frame_of_hcrc_mismatch c2 hfr rfl hv hcrc)

/-- The rest of a payload: the bytes join those that the block has written (R444). -/
theorem silent_payload_from {s : State} {payload : List Byte} (hne : payload ≠ []) (hfr : s.blk.fr = .data)
    (hwf : Memory.wf s.pbuf = true) (hlen : s.blk.frCnt.toNat + payload.length = s.blk.len.toNat)
    (hle : s.blk.len.toNat ≤ pbufSize) :
    ∃ m, (List.range s.blk.len.toNat).map (Memory.lookup m) =
        (List.range s.blk.frCnt.toNat).map (Memory.lookup s.pbuf) ++ payload ∧
      Silent payload s (setBlk { s.blk with
        fr := .pcrc, frCnt := 0#9, pcrc := crcFold s.par.crc s.blk.pcrc payload } { s with pbuf := m }) := by
  induction payload generalizing s with
  | nil => exact absurd rfl hne
  | cons b rest ih =>
    rw [List.length_cons] at hlen
    have hin : s.blk.frCnt.toNat < pbufSize := by omega
    have hstore := map_lookup_range_set hwf s.blk.frCnt.toNat b
    have hbyte := fun c2 => frame_of_data b c2 hfr hin
    by_cases hlast : rest = []
    · subst hlast
      have hend : s.blk.frCnt.toNat + 1 = s.blk.len.toNat := hlen
      simp only [if_pos hend] at hbyte
      exact ⟨_, by rw [← hend, hstore], .single hbyte rfl⟩
    · have hpos : 0 < rest.length := List.length_pos_iff.mpr hlast
      have hmore : s.blk.frCnt.toNat + 1 ≠ s.blk.len.toNat := by omega
      have hsucc := bitVec9_succ hin le_rfl
      simp only [if_neg hmore] at hbyte
      obtain ⟨m, hread, hrun⟩ := ih (s := setBlk { s.blk with
          pcrc := crcUpdate s.par.crc s.blk.pcrc b, fr := .data, frCnt := s.blk.frCnt + 1 }
        { s with pbuf := Memory.set s.pbuf s.blk.frCnt.toNat b }) hlast rfl (Memory.wf_set b hin hwf)
        (by simp only [setBlk_blk]; omega) hle
      simp only [setBlk_blk, setBlk_pbuf, hsucc, hstore] at hread
      exact ⟨m, by rw [hread, List.append_assoc]; rfl, .cons hbyte rfl hrun⟩

/-- A payload of the declared length, after the header CRC (R441, R444). -/
theorem silent_payload {s : State} {payload : List Byte} (hwf : Memory.wf s.pbuf = true)
    (hfr : s.blk.fr = if s.blk.len.toNat > 0 then .data else .pcrc) (hcnt : s.blk.frCnt = 0#9)
    (hlen : payload.length = s.blk.len.toNat) (hle : s.blk.len.toNat ≤ pbufSize) :
    ∃ m, memReadFirst m s.blk.len.toNat = some payload ∧
      Silent payload s (setBlk { s.blk with
        fr := .pcrc, frCnt := 0#9, pcrc := crcFold s.par.crc s.blk.pcrc payload } { s with pbuf := m }) := by
  by_cases hnil : payload = []
  · subst hnil
    have hzero : s.blk.len.toNat = 0 := hlen.symm
    have hstay : setBlk { s.blk with fr := .pcrc, frCnt := 0#9 } s = s := by
      rw [hzero] at hfr
      rw [← hcnt, ← show s.blk.fr = .pcrc from hfr]
      rfl
    refine ⟨s.pbuf, memReadFirst_eq_some.mpr ⟨hle, by rw [hzero]; rfl⟩, ?_⟩
    exact hstay.symm ▸ Silent.nil s
  · have hpos : 0 < payload.length := List.length_pos_iff.mpr hnil
    rw [if_pos (by omega)] at hfr
    obtain ⟨m, hread, hrun⟩ := silent_payload_from hnil hfr hwf (by rw [hcnt]; simpa using hlen) hle
    refine ⟨m, memReadFirst_eq_some.mpr ⟨hle, ?_⟩, hrun⟩
    rw [hread, hcnt]
    rfl

/-- A payload CRC that does not match brings PayloadCRCFault (R445). -/
theorem endsInFault_pcrc {s : State} {v : Half} (hfr : s.blk.fr = .pcrc) (hcnt : s.blk.frCnt = 0#9)
    (hzero : s.blk.pcrcRx = 0#16) (hcrc : v ≠ crcFinish s.par.crc s.blk.pcrc) :
    EndsInFault (crcBytes s.cfg.crcBe v) s := by
  obtain ⟨x, y, hxy, hv⟩ := crcBytes_eq_pair s.cfg.crcBe v
  rw [← hzero] at hv
  rw [hxy]
  exact (Silent.single (fun c2 => frame_of_pcrc_first x c2 hfr hcnt) rfl).endsWith
    (EndsInFault.single fun c2 => frame_of_pcrc_mismatch c2 hfr rfl hv hcrc)

/-- From `s` to `t` one block was completed: BLOCK_COUNT is one higher and the framer hunts for the next (R447). -/
def BlockDone (s t : State) : Prop :=
  t.blk = .reset s.par.crc ∧ t.blockCount = s.blockCount + 1 ∧ t.faultCount = s.faultCount

/-- A payload CRC that matches brings the BLOCK (R445, R447). -/
theorem endsWith_block {s : State} {v : Half} {payload : List Byte} (hfr : s.blk.fr = .pcrc) (hcnt : s.blk.frCnt = 0#9)
    (hzero : s.blk.pcrcRx = 0#16) (hcrc : v = crcFinish s.par.crc s.blk.pcrc)
    (hpay : memReadFirst s.pbuf s.blk.len.toNat = some payload) :
    EndsWith (crcBytes s.cfg.crcBe v) s fun e t =>
      e = .block (Framer.toBlock { s.blk with pcrcRx := v } payload) ∧ BlockDone s t := by
  obtain ⟨x, y, hxy, hv⟩ := crcBytes_eq_pair s.cfg.crcBe v
  rw [← hzero] at hv
  rw [hxy]
  exact (Silent.single (fun c2 => frame_of_pcrc_first x c2 hfr hcnt) rfl).endsWith
    (.single fun c2 => ⟨_, _, frame_of_pcrc_match c2 hfr rfl hv hcrc hpay, rfl, rfl, rfl, rfl, rfl⟩)

end Sys2Proof.Machine
end

section
/-! SUPPORT. A whole block through the framer (44_framer.md R455, R456): its wire form brings its BLOCK, and bytes that
bring a BLOCK are its wire form. -/

namespace Sys2Proof.Machine

open Sys2Proof.Safety

section

variable {s : State} {c2 : Time} {b : Block} {te : List Byte}

/-! The header -/

/-- The framer right after the sync byte of a block that began at `c2`, with the header fields up to the sequence number
those of `b`, in LEN (R422 to R434). -/
def Framer.frontTaken (c : RegFile) (crc : Crc16) (c2 : Time) (te : List Byte) (b : Block) : Framer :=
  { Framer.synced c crc c2 with
    fr := .len
    name := b.name
    load := b.load
    exec := b.exec
    seq := b.seq
    hcrc := crcFold crc (Framer.synced c crc c2).hcrc (b.headerFront te) }

theorem silent_headerFront (h : b.Framed s.cfg.nameTerm10 te) :
    Silent (b.headerFront te) (setBlk (.synced s.cfg s.par.crc c2) s)
      (setBlk (.frontTaken s.cfg s.par.crc c2 te b) s) := by
  obtain ⟨hlen, hzero, hend, -⟩ := h
  simp only [Framer.frontTaken, Block.headerFront, crcFold_append _ _ (_ ++ _) (leBytes _ _)]
  exact (((silent_name (s := setBlk (.synced s.cfg s.par.crc c2) s) rfl rfl hlen hzero hend).append
    (loadField.silent b.load rfl rfl rfl (by decide) trivial)).append
    (execField.silent b.exec rfl rfl rfl (by decide) trivial)).append
    (seqField.silent b.seq rfl rfl rfl (by decide) trivial)

/-- The framer with the header fields of `b` taken, in HCRC (R435 to R437). -/
def Framer.headerTaken (c : RegFile) (crc : Crc16) (c2 : Time) (te : List Byte) (b : Block) : Framer :=
  { Framer.frontTaken c crc c2 te b with
    fr := .hcrc
    len := b.length
    flag := b.flag
    next := b.next
    hcrc := crcFold crc (Framer.synced c crc c2).hcrc (b.header te) }

theorem silent_header (h : b.Framed s.cfg.nameTerm10 te) (hle : b.length.toNat ≤ Config.maxPayload) :
    Silent (b.header te) (setBlk (.synced s.cfg s.par.crc c2) s) (setBlk (.headerTaken s.cfg s.par.crc c2 te b) s) := by
  simp only [Framer.headerTaken, Block.header, crcFold_append _ _ (_ ++ _) (leBytes _ _),
    crcFold_append _ _ (_ ++ _) [_], crcFold_append _ _ (b.headerFront te)]
  exact (((silent_headerFront h).append (lenField.silent b.length rfl rfl rfl (by decide) hle)).append
    (.single (fun c => frame_of_flag b.flag c rfl) rfl)).append
    (nextField.silent b.next rfl rfl rfl (by decide) trivial)

/-- The header CRC register is the CRC of the bytes that R440 names. -/
theorem headerTaken_crc :
    crcFinish s.par.crc (Framer.headerTaken s.cfg s.par.crc c2 te b).hcrc =
      crcOf s.par.crc ((if s.cfg.hcrcSync then [Config.sync] else []) ++ b.header te) := by
  rw [crcOf, crcFold_append, Framer.headerTaken, Framer.synced]
  cases s.cfg.hcrcSync <;> rfl

/-! The payload -/

/-- The CRCs of a block are those of R440 and R444, and its payload fits PBUF. -/
def Block.Checked (crc : Crc16) (sync : Bool) (te : List Byte) (b : Block) : Prop :=
  b.length.toNat ≤ Config.maxPayload ∧ b.hcrc = crcOf crc ((if sync then [Config.sync] else []) ++ b.header te) ∧
    b.pcrc = crcOf crc b.payload

/-- The framer with the header and the payload of `b` taken, in PCRC (R441, R444). -/
def Framer.payloadTaken (c : RegFile) (crc : Crc16) (c2 : Time) (te : List Byte) (b : Block) : Framer :=
  { Framer.headerTaken c crc c2 te b with
    fr := .pcrc
    hcrcRx := b.hcrc
    pcrc := crcFold crc crc.init b.payload }

/-- A header with its right CRC and any payload of the declared length: PBUF then holds the payload. -/
theorem silent_throughPayload (hwf : Memory.wf s.pbuf = true) (h : b.Framed s.cfg.nameTerm10 te)
    (hle : b.length.toNat ≤ Config.maxPayload)
    (hcrc : b.hcrc = crcOf s.par.crc ((if s.cfg.hcrcSync then [Config.sync] else []) ++ b.header te)) :
    ∃ m, memReadFirst m b.length.toNat = some b.payload ∧
      Silent (b.header te ++ crcBytes s.cfg.crcBe b.hcrc ++ b.payload) (setBlk (.synced s.cfg s.par.crc c2) s)
        (setBlk (.payloadTaken s.cfg s.par.crc c2 te b) { s with pbuf := m }) := by
  rw [← headerTaken_crc (c2 := c2)] at hcrc
  have htrailer := (silent_header (c2 := c2) h hle).append (silent_hcrc rfl rfl rfl hcrc)
  obtain ⟨-, -, -, hlen⟩ := h
  obtain ⟨m, hread, hrun⟩ := silent_payload (s := setBlk { Framer.headerTaken s.cfg s.par.crc c2 te b with
      hcrcRx := b.hcrc, fr := if b.length.toNat > 0 then .data else .pcrc, frCnt := 0#9 } s) hwf rfl rfl hlen hle
  exact ⟨m, hread, htrailer.append hrun⟩

/-! The block -/

/-- A block in its wire form with the right CRCs brings its BLOCK, with the time of its sync byte (R447, R456). -/
theorem endsWith_checkedBlock (hwf : Memory.wf s.pbuf = true) (h : b.Framed s.cfg.nameTerm10 te)
    (hcheck : b.Checked s.par.crc s.cfg.hcrcSync te) :
    EndsWith (b.afterSync s.cfg.crcBe te) (setBlk (.synced s.cfg s.par.crc c2) s) fun e t =>
      e = .block { b with time := c2 } ∧ BlockDone s t := by
  obtain ⟨hle, hhcrc, hpcrc⟩ := hcheck
  obtain ⟨m, hread, hrun⟩ := silent_throughPayload (c2 := c2) hwf h hle hhcrc
  exact hrun.endsWith (endsWith_block
    (s := setBlk (.payloadTaken s.cfg s.par.crc c2 te b) { s with pbuf := m }) rfl rfl rfl hpcrc hread)

/-- A block in its wire form with a wrong CRC, or longer than PBUF, brings a fault and no BLOCK (R603 to R605). -/
theorem endsInFault_uncheckedBlock (hwf : Memory.wf s.pbuf = true) (h : b.Framed s.cfg.nameTerm10 te)
    (hcheck : ¬ b.Checked s.par.crc s.cfg.hcrcSync te) :
    ∃ p, p <+: b.afterSync s.cfg.crcBe te ∧ EndsInFault p (setBlk (.synced s.cfg s.par.crc c2) s) := by
  by_cases hle : b.length.toNat ≤ Config.maxPayload
  case neg =>
    refine ⟨b.headerFront te ++ leBytes b.length 2, ?_,
      (silent_headerFront h).endsWith (endsInFault_len rfl rfl rfl (Nat.lt_of_not_le hle))⟩
    simp [Block.afterSync, Block.header]
  by_cases hhcrc : b.hcrc = crcOf s.par.crc ((if s.cfg.hcrcSync then [Config.sync] else []) ++ b.header te)
  case neg =>
    rw [← headerTaken_crc (c2 := c2)] at hhcrc
    refine ⟨b.header te ++ crcBytes s.cfg.crcBe b.hcrc, ?_,
      (silent_header h hle).endsWith (endsInFault_hcrc
        (s := setBlk (.headerTaken s.cfg s.par.crc c2 te b) s) rfl rfl rfl hhcrc)⟩
    simp [Block.afterSync]
  have hpcrc : b.pcrc ≠ crcOf s.par.crc b.payload := fun hpcrc => hcheck ⟨hle, hhcrc, hpcrc⟩
  obtain ⟨m, -, hrun⟩ := silent_throughPayload (c2 := c2) hwf h hle hhcrc
  exact ⟨b.afterSync s.cfg.crcBe te, List.prefix_rfl, hrun.endsWith (endsInFault_pcrc
    (s := setBlk (.payloadTaken s.cfg s.par.crc c2 te b) { s with pbuf := m }) rfl rfl rfl hpcrc)⟩

/-- What R456 asks of a block is what the framer needs of its wire form. -/
theorem framed_and_checked_of_valid {p : Crc16} {c : RegFile} (h : b.valid p c) :
    b.Framed c.nameTerm10 (wireEnd c.nameTerm10 b.name) ∧ b.Checked p c.hcrcSync (wireEnd c.nameTerm10 b.name) := by
  obtain ⟨hname, hzero, hpay, hle, hhcrc, hpcrc⟩ := h
  rw [headerCovered_eq] at hhcrc
  exact ⟨⟨hname, hzero, nameEnd_wireEnd _ _, hpay⟩, hle, hhcrc, hpcrc⟩

/-! The converse -/

/-- The first event of a stream that begins with `p` is the one that `p` ends with. -/
theorem EndsWith.firstEvent {p : List Byte} {u : State} {P : Event → State → Prop} {l : List (Byte × Time)}
    (h : EndsWith p u P) (hpre : p <+: l.map Prod.fst) :
    ∃ q e t, q <+: l ∧ q.map Prod.fst = p ∧ P e t ∧ FirstEvent q e u t := by
  have hmap : (l.take p.length).map Prod.fst = p := by
    rw [List.map_take]
    exact (List.prefix_iff_eq_take.mp hpre).symm
  obtain ⟨e, t, hP, hfirst⟩ := h _ hmap
  exact ⟨_, e, t, List.take_prefix _ _, hmap, hP, hfirst⟩

/-- The bytes that bring a BLOCK are its wire form with both CRCs right (R456). -/
theorem wireForm_of_firstEvent {bs : List (Byte × Time)} {b₀ : Block} {t : State} (hwf : Memory.wf s.pbuf = true)
    (h : FirstEvent bs (.block b₀) (setBlk (.synced s.cfg s.par.crc c2) s) t) :
    b₀.time = c2 ∧ ∃ te, b₀.Framed s.cfg.nameTerm10 te ∧ b₀.Checked s.par.crc s.cfg.hcrcSync te ∧
      bs.map Prod.fst = b₀.afterSync s.cfg.crcBe te := by
  obtain ⟨b, te, rest, hparse, hframed⟩ := exists_afterSync_append s.cfg.crcBe s.cfg.nameTerm10
    (l := (bs ++ List.replicate (2 ^ 16 + 32) (0#8, 0#33)).map Prod.fst)
    (by rw [List.length_map, List.length_append, List.length_replicate]; exact Nat.le_add_left _ _)
  have hbs : bs <+: bs ++ List.replicate (2 ^ 16 + 32) (0#8, 0#33) := List.prefix_append _ _
  by_cases hcheck : b.Checked s.par.crc s.cfg.hcrcSync te
  · obtain ⟨q, e, t', hq, hbytes, ⟨rfl, -⟩, hfirst⟩ :=
      (endsWith_checkedBlock (c2 := c2) hwf hframed hcheck).firstEvent ⟨rest, hparse.symm⟩
    obtain ⟨rfl, heq⟩ := h.unique hfirst hbs hq
    cases heq
    exact ⟨rfl, te, hframed, hcheck, hbytes⟩
  · obtain ⟨p, hp, hfault⟩ := endsInFault_uncheckedBlock (c2 := c2) hwf hframed hcheck
    obtain ⟨q, e, t', hq, -, he, hfirst⟩ := hfault.firstEvent (hp.trans ⟨rest, hparse.symm⟩)
    obtain ⟨-, rfl⟩ := h.unique hfirst hbs hq
    cases he

end

/-- Settles O45: the framer goes through the header fields, the payload and the CRCs of a valid block in turn. -/
theorem blockRoundTrip : Obligations.BlockRoundTrip := by
  intro s b c2 times hfr hwf hvalid htimes
  obtain ⟨hframed, hchecked⟩ := framed_and_checked_of_valid hvalid
  rw [serialise_eq] at htimes ⊢
  obtain ⟨e, t, ⟨rfl, hdone⟩, hfirst⟩ := endsWith_checkedBlock (c2 := c2) hwf hframed hchecked
    ((b.afterSync s.cfg.crcBe (wireEnd s.cfg.nameTerm10 b.name)).zip times)
    (List.map_fst_zip (by simp only [List.length_cons] at htimes; omega))
  obtain ⟨hrun, ho⟩ := hfirst.run
  refine ⟨t, ?_, ho, hdone⟩
  rw [List.zip_cons_cons, frameAll, frame_of_hunt_sync c2 hfr]
  exact hrun

/-- Settles O46: every stream begins with the wire form of some block, which fixes its first event. -/
theorem emittedBlockIsValid : Obligations.EmittedBlockIsValid := by
  intro s u t c2 c2' bs last b hfr hwf hrun hsilent hlast ho
  have hinit : frameAll bs (setBlk (.synced s.cfg s.par.crc c2) s) = .ok u := by
    rw [frameAll, show (0x2A#8 : Byte) = Config.sync from rfl, frame_of_hunt_sync c2 hfr] at hrun
    exact hrun
  have hfirst : FirstEvent (bs ++ [(last, c2')]) (.block b) (setBlk (.synced s.cfg s.par.crc c2) s) t :=
    ⟨bs, (last, c2'), u, rfl, hinit, hsilent, hlast, ho⟩
  obtain ⟨htime, te, ⟨-, -, hend, hpay⟩, ⟨hle, hhcrc, hpcrc⟩, hbytes⟩ := wireForm_of_firstEvent hwf hfirst
  rw [List.map_append, List.map_singleton] at hbytes
  exact ⟨htime, hle, hpay, hpcrc, te, b.header te, hend, rfl, hhcrc, hbytes⟩

end Sys2Proof.Machine
end

section
/-! SUPPORT. Taking the assembler's two faults (50_exceptions.md R601, R602). -/

namespace Sys2Proof.Machine

/-- Settles O37: a width without a tone is taken by `assemble` in every state, and Low in After is the other fault. -/
theorem assemblerFaultsTaken : Obligations.AssemblerFaultsTaken := by
  refine ⟨fun s w c2 hlow hhigh htime => ⟨?_, rfl⟩, fun s w c2 hlow hafter => ⟨?_, rfl⟩⟩
  · exact (classify_of_toneOf (toneOf_of_none hlow hhigh htime)).trans (assemble_none w c2)
  · exact (classify_of_toneOf (toneOf_of_low c2 hlow)).trans (assemble_after_low w c2 hafter)

end Sys2Proof.Machine
end

section
/-! SUPPORT. The events of one command, their order and their number (50_exceptions.md R620, R621). -/

namespace Sys2Proof.Machine

open Sys2Proof.Safety

/-! The order -/

/-- The events of a SAMPLE: a REJECT, the EXHAUSTED of the stop index, or those of the pipeline and at the last index
EXHAUSTED after them (R210 to R217, R620). -/
theorem SampleResult.output_cases {d : Word} {s t : State} (h : SampleResult d s t) :
    t.output = s.output ++ [.reject .sessionDone 0x1#4] ∨ t.output = s.output ++ [.exhausted .stopIndex] ∨
      ∃ es fin, pipelineOrder es ∧ (fin = [] ∨ fin = [.exhausted .indexExhausted]) ∧
        t.output = s.output ++ es ++ fin := by
  cases h with
  | rejected _ eq => subst eq; exact .inl rfl
  | refused _ _ eq => subst eq; exact .inr (.inr ⟨[], [], pipelineOrder_nil, .inl rfl, by simp⟩)
  | stopped _ _ _ eq => subst eq; exact .inr (.inl rfl)
  | counted u _ _ _ taken eq =>
    obtain ⟨es, horder, hes⟩ := taken.pipelineStep.events
    have hes : u.output = s.output ++ es := hes
    refine .inr (.inr ?_)
    rcases countSample_cases u with ⟨-, hc⟩ | ⟨-, hc⟩ <;> rw [eq, hc]
    · exact ⟨es, _, horder, .inr rfl, by rw [endOfStream_output, hes]⟩
    · exact ⟨es, [], horder, .inl rfl, by rw [hes, List.append_nil]⟩

/-- A SAMPLE that ends the stream at the stop index emits nothing else (R213, R620). -/
theorem SampleResult.newEvents_of_stopIndex {d : Word} {s t : State} (h : SampleResult d s t)
    (hmem : .exhausted .stopIndex ∈ newEvents s t) : newEvents s t = [.exhausted .stopIndex] := by
  rcases h.output_cases with ho | ho | ⟨es, fin, horder, hfin, ho⟩
  · rw [newEvents_of_append ho, List.mem_singleton] at hmem
    cases hmem
  · exact newEvents_of_append ho
  · rw [newEvents_of_append (ho.trans (List.append_assoc ..)), List.mem_append] at hmem
    rcases hmem with hes | hlast
    · exact absurd hes (exhausted_notMem_pipelineOrder horder _)
    · rcases hfin with rfl | rfl
      · cases hlast
      · cases List.mem_singleton.mp hlast

/-- What a command other than SAMPLE emits: nothing, one REJECT, or its own one event (R620). -/
theorem exec_output_cases {i : Instr} {s t : State} (hi : ∀ d, i ≠ .sample d) (h : exec i s = .next t) :
    t.output = s.output ∨ (∃ r, t.output = s.output ++ [.reject r i.opcode]) ∨
      (i = .endStream ∧ t.output = s.output ++ [.exhausted .endCommand]) ∨
      (∃ a v, i = .cfgRead a ∧ t.output = s.output ++ [.cfgData a v]) := by
  cases i with
  | nop => rw [exec_nop_next h]; exact .inl rfl
  | sample d => exact absurd rfl (hi d)
  | endStream =>
    rcases exec_endStream_cases h with ⟨-, rfl⟩ | ⟨-, rfl⟩
    · exact .inr (.inl ⟨_, rfl⟩)
    · exact .inr (.inr (.inl ⟨rfl, rfl⟩))
  | cfgWrite a d =>
    rcases exec_cfgWrite_cases h with ⟨r, rfl⟩ | ⟨-, -, rfl⟩
    · exact .inr (.inl ⟨r, rfl⟩)
    · exact .inl rfl
  | cfgRead a => rw [exec_cfgRead_next h]; exact .inr (.inr (.inr ⟨a, _, rfl, rfl⟩))
  | sessionReset => rw [exec_sessionReset_next h]; exact .inl rfl

/-- Settles O49: in a SAMPLE the EXHAUSTED of the stop index stands alone, and that of the last index follows the pipeline's
events. -/
theorem eventOrder : Obligations.EventOrder := by
  refine ⟨fun s t d h => ?_, fun s t d h => (exec_sample_result h).newEvents_of_stopIndex,
    fun i s t => exec_output_cases⟩
  rcases (exec_sample_result h).output_cases with ho | ho | ⟨es, fin, horder, hfin, ho⟩
  · exact .inr ⟨_, ho⟩
  · exact .inl ⟨[], _, pipelineOrder_nil, atMostOne_single rfl, by rw [ho, List.append_nil]⟩
  · exact .inl ⟨es, fin, horder, hfin.imp_right fun he => ⟨_, rfl, he⟩, ho⟩

/-! The number -/

theorem isFault_of_isPulse {e : Event} (h : isPulse e = true) : isFault e = false := by
  cases e with
  | pulse => rfl
  | _ => cases h

theorem isFault_of_isByte {e : Event} (h : isByte e = true) : isFault e = false := by
  cases e with
  | byte => rfl
  | _ => cases h

theorem length_le_of_atMostOne {p : Event → Bool} {es : List Event} (h : atMostOne p es) : es.length ≤ 1 := by
  rcases h with rfl | ⟨e, -, rfl⟩
  · exact Nat.zero_le 1
  · exact le_rfl

/-- Neither PULSE nor BYTE is a FAULT, and at most one event follows them (R621). -/
theorem bounds_of_pipelineOrder {es : List Event} (h : pipelineOrder es) : es.countP isFault ≤ 1 ∧ es.length ≤ 3 := by
  rcases h with rfl | ⟨p, hp, rfl | ⟨f, -, rfl⟩ | ⟨b, r, hb, hr, rfl⟩⟩
  · decide
  · exact ⟨List.countP_le_length, by simp⟩
  · rw [List.countP_cons_of_neg (by simp [isFault_of_isPulse hp])]
    exact ⟨List.countP_le_length, by simp⟩
  · rw [List.countP_cons_of_neg (by simp [isFault_of_isPulse hp]),
      List.countP_cons_of_neg (by simp [isFault_of_isByte hb])]
    have hlen := length_le_of_atMostOne hr
    exact ⟨List.countP_le_length.trans hlen, Nat.add_le_add_right hlen 2⟩

/-- `t` has emitted after `s` at most one FAULT and at most four events. -/
def FewEvents (s t : State) : Prop :=
  ∃ es, t.output = s.output ++ es ∧ es.countP isFault ≤ 1 ∧ es.length ≤ 4

theorem FewEvents.of_silent {s t : State} (ho : t.output = s.output) : FewEvents s t :=
  ⟨[], by rw [ho, List.append_nil], by simp⟩

theorem FewEvents.of_one {s t : State} {e : Event} (ho : t.output = s.output ++ [e]) : FewEvents s t :=
  ⟨[e], ho, List.countP_le_length, by simp⟩

/-- The EXHAUSTED of the last index is no FAULT, and the fourth event at most (R621, R724). -/
theorem SampleResult.fewEvents {d : Word} {s t : State} (h : SampleResult d s t) : FewEvents s t := by
  rcases h.output_cases with ho | ho | ⟨es, fin, horder, hfin, ho⟩
  · exact .of_one ho
  · exact .of_one ho
  · obtain ⟨hfault, hlen⟩ := bounds_of_pipelineOrder horder
    refine ⟨es ++ fin, ho.trans (List.append_assoc ..), ?_⟩
    rcases hfin with rfl | rfl
    · rw [List.append_nil]
      exact ⟨hfault, hlen.trans (by decide)⟩
    · rw [List.countP_append, List.length_append]
      exact ⟨hfault, Nat.add_le_add_right hlen 1⟩

theorem exec_fewEvents {i : Instr} {s t : State} (h : exec i s = .next t) : FewEvents s t := by
  by_cases hsample : ∃ d, i = .sample d
  · obtain ⟨d, rfl⟩ := hsample
    exact (exec_sample_result h).fewEvents
  · rcases exec_output_cases (not_exists.mp hsample) h with ho | ⟨r, ho⟩ | ⟨-, ho⟩ | ⟨a, v, -, ho⟩
    · exact .of_silent ho
    all_goals exact .of_one ho

/-- Taking an item from the port emits nothing. -/
theorem step_fewEvents {s t : State} (h : step s = .next t) : FewEvents s t := by
  cases step_result h with
  | idle _ eq => exact .of_silent (by rw [eq])
  | hardwareReset rest _ eq => subst eq; exact .of_silent rfl
  | command w rest i _ _ run => exact exec_fewEvents (s := { s with input := rest }) run
  | malformed w rest e _ _ eq => subst eq; exact .of_one rfl

/-- Settles O50, from the order of the events (R620). -/
theorem atMostOneFaultPerStep : Obligations.AtMostOneFaultPerStep := by
  intro s t h
  obtain ⟨es, ho, hfault, hlen⟩ := step_fewEvents h
  rw [newEvents_of_append ho]
  exact ⟨⟨es, ho.symm⟩, hfault, hlen⟩

end Sys2Proof.Machine
end

section
/-! SUPPORT. A block whose payload CRC alone is wrong (50_exceptions.md R605): its last byte brings PayloadCRCFault. -/

namespace Sys2Proof.Machine

open Sys2Proof.Safety

/-- A silent run and one more byte. -/
theorem Silent.frameAll_concat {bytes : List Byte} {s u : State} (h : Silent bytes s u) (last : Byte) {times : List Time}
    (hlen : times.length = bytes.length) (c2 : Time) :
    frameAll ((bytes ++ [last]).zip (times ++ [c2])) s = frame last c2 u := by
  rw [List.zip_append hlen.symm, frameAll_append_of_ok (h.run _ (List.map_fst_zip hlen.ge))]
  exact frameAll_singleton (last, c2) u

/-- Up to the second byte of a wrong payload CRC the framer emits nothing, and that byte brings the fault (R445, R605). -/
theorem exists_last_of_payload_mismatch {s : State} {c2 : Time} {b : Block} {te : List Byte}
    (hwf : Memory.wf s.pbuf = true) (h : b.Framed s.cfg.nameTerm10 te) (hle : b.length.toNat ≤ Config.maxPayload)
    (hhcrc : b.hcrc = crcOf s.par.crc ((if s.cfg.hcrcSync then [Config.sync] else []) ++ b.header te))
    (hpcrc : b.pcrc ≠ crcOf s.par.crc b.payload) :
    ∃ init last f m, b.afterSync s.cfg.crcBe te = init ++ [last] ∧
      Silent init (setBlk (.synced s.cfg s.par.crc c2) s) (setBlk f { s with pbuf := m }) ∧
      ∀ c, frame last c (setBlk f { s with pbuf := m }) =
        .ok (raiseFault (.payloadCrcFault b.pcrc (crcOf s.par.crc b.payload)) c (setBlk f { s with pbuf := m })) := by
  obtain ⟨x, y, hxy, hv⟩ := crcBytes_eq_pair s.cfg.crcBe b.pcrc
  obtain ⟨m, -, hrun⟩ := silent_throughPayload (c2 := c2) hwf h hle hhcrc
  have hfirst := fun c => frame_of_pcrc_first
    (s := setBlk (.payloadTaken s.cfg s.par.crc c2 te b) { s with pbuf := m }) x c rfl rfl
  refine ⟨_, y, _, m, ?_, hrun.append (.single hfirst rfl), fun c => frame_of_pcrc_mismatch c rfl rfl hv hpcrc⟩
  rw [Block.afterSync, hxy, List.append_assoc _ [x] [y]]
  rfl

/-- With an odd polynomial another payload byte gives another payload CRC (R426). -/
theorem crcOf_set_ne {p : Crc16} (hpoly : p.poly.getLsbD 0 = true) {payload : List Byte} {k : Nat} {v : Byte}
    (hk : k < payload.length) (hne : payload[k]? ≠ some v) : crcOf p payload ≠ crcOf p (payload.set k v) := by
  rw [List.getElem?_eq_getElem hk, ne_eq, Option.some_inj] at hne
  have h := crcSeesByteChange p (payload.take k) (payload.drop (k + 1)) _ v hpoly hne
  rw [← List.drop_eq_getElem_cons hk, List.take_append_drop] at h
  rwa [List.set_eq_take_append_cons_drop, if_pos hk]

theorem length_afterSync_set (be : Bool) (te : List Byte) (b : Block) (k : Nat) (v : Byte) :
    (Block.afterSync be te { b with payload := b.payload.set k v }).length = (b.afterSync be te).length := by
  simp only [Block.afterSync, List.length_append, List.length_set]
  rfl

/-- Settles O47: the changed payload is framed like the valid one, its header CRC is still right, and its payload CRC
differs from the one sent. -/
theorem corruptPayloadCaught : Obligations.CorruptPayloadCaught := by
  intro s b k v c2 times hfr hwf hpoly hvalid hk hne htimes
  obtain ⟨⟨hname, hzero, hend, hpay⟩, hle, hhcrc, hpcrc⟩ := framed_and_checked_of_valid hvalid
  have hchange : b.pcrc ≠ crcOf s.par.crc (b.payload.set k v) := hpcrc ▸ crcOf_set_ne hpoly hk hne
  obtain ⟨init, last, f, m, hbytes, hsilent, hlast⟩ := exists_last_of_payload_mismatch (c2 := c2)
    (b := { b with payload := b.payload.set k v }) hwf ⟨hname, hzero, hend, by rwa [List.length_set]⟩ hle hhcrc hchange
  have hlen : times.length = (init ++ [last]).length := by
    rw [← hbytes, length_afterSync_set]
    exact Nat.succ.inj htimes
  obtain rfl | ⟨front, c, rfl⟩ := List.eq_nil_or_concat' times
  · simp at hlen
  simp only [List.length_append, List.length_singleton, Nat.add_right_cancel_iff] at hlen
  refine ⟨raiseFault (.payloadCrcFault b.pcrc (crcOf s.par.crc (b.payload.set k v))) c (setBlk f { s with pbuf := m }),
    ?_, ?_, rfl, rfl, rfl⟩
  · rw [serialise_eq, List.zip_cons_cons, frameAll, frame_of_hunt_sync c2 hfr]
    exact (congrArg (fun bytes => frameAll (bytes.zip (front ++ [c])) _) hbytes).trans
      ((hsilent.frameAll_concat last hlen c).trans (hlast c))
  · rw [raiseFault_output, List.getLastD_cons, List.getLastD_concat]
    rfl

end Sys2Proof.Machine
end

section
/-! SUPPORT. The reset state: a hardware reset gives it, its elements have the values of R701, and it meets the invariant
(10_state.md R36; 70_reset_and_hazards.md R700, R701, R705). -/

namespace Sys2Proof.Machine

open Sys2Proof.Safety

/-! The state after a reset -/

/-- The state at the start of a run is itself one that SESSION_RESET leaves. -/
theorem init_eq_sessionResetState (p : Params) : State.init p = sessionResetState (State.init p) := rfl

/-- What a reset keeps of a state is its parameters, `cfg`, REFUSED, the ports and the free-value counter. -/
theorem sessionResetState_eq_init (s : State) :
    sessionResetState s = { State.init s.par with
      cfg := s.cfg, refused := s.refused, input := s.input, output := s.output, freeUse := s.freeUse } := rfl

/-- A step with a hardware reset at the head of the port takes it and resets (R700). -/
theorem step_of_hardwareReset {s : State} {rest : List PortItem} (hopen : s.refused = none)
    (hport : s.input = .hardwareReset :: rest) : step s = .next (hardwareResetState { s with input := rest }) := by
  conv_lhs => rw [step, hopen, takeItem_of_input hport]

/-- A state that is not refused goes to the reset state of its parameters, with the input, the output and the free-value
counter kept (R700). -/
theorem hardwareResetState_eq_init {s : State} (hopen : s.refused = none) :
    hardwareResetState s = { State.init s.par with input := s.input, output := s.output, freeUse := s.freeUse } := by
  rw [hardwareResetState, sessionResetState_eq_init, hopen]
  rfl

/-- A hardware reset acts on `st` as SESSION_RESET (R705). -/
theorem hardwareResetState_eq_withCfg (s : State) :
    hardwareResetState s = { sessionResetState s with cfg := s.par.cfgReset } := rfl

/-- Settles O9: the two readings of `hardwareResetState`, as the reset state and as SESSION_RESET. -/
theorem hardwareResetStep : Obligations.HardwareResetStep := by
  intro s rest hopen hport
  have hstep := step_of_hardwareReset hopen hport
  refine ⟨?init, sessionResetState { s with input := rest }, rfl, ?session⟩
  case init => rw [hstep, hardwareResetState_eq_init (s := { s with input := rest }) hopen]
  case session => rw [hstep, hardwareResetState_eq_withCfg]

/-! The elements of `st` -/

/-- STATUS is packed from codes that are 0 at reset: Waiting, HUNT, IDLE and an empty assembler (R50, R701). -/
theorem statusWord_sessionResetState (s : State) : statusWord (sessionResetState s) = 0#32 := by
  have hhunt : (Framer.reset s.par.crc).fr = .hunt := rfl
  simp only [statusWord, sessionResetState_asm, sessionResetState_blk, sessionResetState_det, sessionResetState_session,
    hhunt]
  decide

/-- The table of R701, unit by unit. -/
theorem resetElements_sessionResetState (s : State) : ResetElements (sessionResetState s) := by
  refine ⟨rfl, rfl, rfl, rfl, ?frontEnd, ?detector, rfl, ?assembler, ?block, ?crcs, ?framer,
    statusWord_sessionResetState s⟩
  case frontEnd => simp [FrontEnd.reset]
  case detector => simp [Detector.reset]
  case assembler => simp [BitAsm.reset]
  case block | crcs | framer => simp [Framer.reset]

/-- Settles O10: all three states are ones that SESSION_RESET leaves. -/
theorem resetElementsOfSt : Obligations.ResetElementsOfSt := by
  refine ⟨fun s => ?session, fun s rest hopen hport => ?hardware, ?start, rfl⟩
  case session =>
    exact ⟨sessionResetState s, rfl, resetElements_sessionResetState s, rfl, rfl, rfl, rfl, rfl⟩
  case hardware =>
    exact ⟨_, step_of_hardwareReset hopen hport, resetElements_sessionResetState _, rfl, rfl⟩
  case start =>
    rw [State.reset, init_eq_sessionResetState]
    exact resetElements_sessionResetState _

end Sys2Proof.Machine

namespace Sys2Proof.Safety

open Sys2Proof.Machine

/-! The invariant -/

/-- The state at the start of a run is one that a reset leaves, with `cfg` at CFG_RESET. -/
theorem init_inv {p : Params} (h : p.cfgReset.legal = true) : Inv (State.init p) := by
  rw [init_eq_sessionResetState]
  exact sessionResetState_inv h h

/-- Settles O54: the default CFG_RESET is legal, so the reset state is one case of `init_inv`. -/
theorem invariantAtReset : Obligations.InvariantAtReset :=
  ⟨init_inv (p := Config.params) (by decide), fun _ => init_inv⟩

end Sys2Proof.Safety
end
